-- ==== Sys2Proof/Word.lean ====
section
/-! DEFINITION. The words of FEC-CORE: the port word, the symbol cell and the MINPOLY cell. -/

namespace Sys2Proof

/-- A 32-bit word: a port access, a register on the port, a command word (R80, R110). -/
abbrev Word := BitVec 32

/-- A symbol cell, W = 16 bits: every array cell but MINPOLY's (00_scope.md R7, 10_state.md section 3). -/
abbrev Sym := BitVec 16

/-- A 17-bit binary polynomial: a MINPOLY cell and CFG_POLY.POLY (R39, R53). -/
abbrev Mask := BitVec 17

/-- A 20-bit byte address on the host port (R80). -/
abbrev Addr := BitVec 20

end Sys2Proof
end

