-- ==== Sys2Proof/Config.lean ====
section
/-! DEFINITION. What this implementation fixes (00_scope.md R7) and the free values the spec leaves open. -/

namespace Sys2Proof

/-- The arrays of 16-bit cells (10_state.md section 3); MINPOLY, of 17-bit cells, stands apart. -/
inductive Win where
  | expt
  | logt
  | gen
  | code
  | syn
  | lambda
  | omega
  | loc
  | mag
  | eras
deriving DecidableEq, Repr

namespace Config

/-- M_MIN, the smallest accepted M (R7). -/
def mMin : Nat := 2

/-- M_MAX, the largest accepted M (R7). -/
def mMax : Nat := 16

/-- NR_MAX, the largest NR and the largest NP (R7). -/
def nrMax : Nat := 256

/-- FREE VALUE. The value cell `i` of array `w` holds at draw number `k`: array contents after reset (R64, U7) and
EXPT/LOGT after E_NOT_PRIMITIVE (R141, U6). No body: nothing can be proved about any of its values. Log entries 3, 4. -/
opaque draw : Nat → Win → Nat → Sym

/-- FREE VALUE. The same for MINPOLY's 17-bit cells (R64). Log entry 3. -/
opaque drawMinpoly : Nat → Nat → Mask

end Config

end Sys2Proof
end

