-- ==== Sys2Proof/Syntax.lean ====
section
/-! DEFINITION. The commands of FEC-CORE, one constructor per row of the opcode map (30_encoding.md R113), and the
fields of a command word (R111). -/

namespace Sys2Proof

/-- A command. Commands have no immediate operands (R114); only DECODE carries two flag bits. -/
inductive Instr where
  | nop
  | srst
  | buildField
  | buildGen
  | gfAdd
  | gfMul
  | gfDiv
  | gfInv
  | gfFma
  | gfExp
  | gfLog
  | gfPow
  | gfTrace
  | gfQsolve
  | encode
  | syndromes
  | bm
  | roots
  | forney
  | apply
  /-- DECODE with CLR = word[8] and NOVFY = word[9]. -/
  | decode (clr novfy : Bool)
deriving DecidableEq, Repr

/-- The fields of a command word before any check (R111). -/
structure CmdFields where
  /-- OP, bits [7:0]. -/
  op : BitVec 8
  /-- CLR, bit [8]. -/
  clr : Bool
  /-- NOVFY, bit [9]. -/
  novfy : Bool
  /-- RSV, bits [31:10]. -/
  rsv : BitVec 22
deriving DecidableEq, Repr

end Sys2Proof
end

