-- ==== Sys2Proof/WellFormed.lean ====
section
/-! DEFINITION. Well-formed command words (R111, R112, R115). Every term of `Instr` is well formed: a command carries
nothing but DECODE's two Booleans, so the checks are on the word's fields. -/

namespace Sys2Proof

/-- The opcodes of the map (R113). -/
def opcodes : List (BitVec 8) :=
  [0x00, 0x01, 0x10, 0x11, 0x20, 0x21, 0x22, 0x23, 0x24, 0x25, 0x26, 0x27, 0x28, 0x29] ++
  [0x30, 0x31, 0x32, 0x33, 0x34, 0x35, 0x36]

/-- Check 1: the opcode is in the map (R112, R115). -/
def CmdFields.opListed (f : CmdFields) : Bool := opcodes.contains f.op

/-- Check 2: bits [31:10] are 0 in every command (R111). -/
def CmdFields.rsvClear (f : CmdFields) : Bool := f.rsv == 0

/-- Check 3: the flag bits [9:8] are 0 unless the opcode is DECODE's (R111). -/
def CmdFields.flagsClear (f : CmdFields) : Bool := f.op == 0x36 || (!f.clr && !f.novfy)

/-- A command word that R112 executes. -/
def CmdFields.wellFormed (f : CmdFields) : Bool := f.opListed && f.rsvClear && f.flagsClear

end Sys2Proof
end

