-- ==== Sys2Proof/Decode.lean ====
section
/-! DEFINITION. The decoder of a command word, total on every 32-bit word and rejecting by name (30_encoding.md R112,
R115), and after it the encoder, from the same map (R113). -/

namespace Sys2Proof

/-- Why a word is no command; each raises E_ILLEGAL (R115). -/
inductive DecodeError where
  /-- The opcode is not in the map. -/
  | unlistedOpcode (op : BitVec 8)
  /-- A reserved bit is set. -/
  | reservedBits (c : Word)
deriving DecidableEq, Repr

/-- The fields of a command word (R111). -/
def cmdFields (c : Word) : CmdFields :=
  { op := c.extractLsb' 0 8, clr := c.getLsbD 8, novfy := c.getLsbD 9, rsv := c.extractLsb' 10 22 }

/-- The opcode map (R113), with DECODE's flags as given. -/
def commandOf (op : BitVec 8) (clr novfy : Bool) : Option Instr :=
  match op with
  | 0x00#8 => some .nop
  | 0x01#8 => some .srst
  | 0x10#8 => some .buildField
  | 0x11#8 => some .buildGen
  | 0x20#8 => some .gfAdd
  | 0x21#8 => some .gfMul
  | 0x22#8 => some .gfDiv
  | 0x23#8 => some .gfInv
  | 0x24#8 => some .gfFma
  | 0x25#8 => some .gfExp
  | 0x26#8 => some .gfLog
  | 0x27#8 => some .gfPow
  | 0x28#8 => some .gfTrace
  | 0x29#8 => some .gfQsolve
  | 0x30#8 => some .encode
  | 0x31#8 => some .syndromes
  | 0x32#8 => some .bm
  | 0x33#8 => some .roots
  | 0x34#8 => some .forney
  | 0x35#8 => some .apply
  | 0x36#8 => some (.decode clr novfy)
  | _ => none

/-- R112: the opcode is looked up first, then the reserved bits are checked ([31:10] for DECODE, [31:8] otherwise). -/
def decode (c : Word) : Except DecodeError Instr :=
  let f := cmdFields c
  match commandOf f.op f.clr f.novfy with
  | none => .error (.unlistedOpcode f.op)
  | some i => if f.rsvClear && f.flagsClear then .ok i else .error (.reservedBits c)

/-- The opcode of a command (R113). -/
def opcodeOf : Instr → BitVec 8
  | .nop => 0x00
  | .srst => 0x01
  | .buildField => 0x10
  | .buildGen => 0x11
  | .gfAdd => 0x20
  | .gfMul => 0x21
  | .gfDiv => 0x22
  | .gfInv => 0x23
  | .gfFma => 0x24
  | .gfExp => 0x25
  | .gfLog => 0x26
  | .gfPow => 0x27
  | .gfTrace => 0x28
  | .gfQsolve => 0x29
  | .encode => 0x30
  | .syndromes => 0x31
  | .bm => 0x32
  | .roots => 0x33
  | .forney => 0x34
  | .apply => 0x35
  | .decode _ _ => 0x36

/-- The flag bits [9:8] of a command: NOVFY is bit 9 and CLR bit 8 (R111). -/
def flagBitsOf : Instr → BitVec 2
  | .decode clr novfy => BitVec.ofBool novfy ++ BitVec.ofBool clr
  | .nop | .srst | .buildField | .buildGen | .gfAdd | .gfMul | .gfDiv | .gfInv | .gfFma | .gfExp | .gfLog
  | .gfPow | .gfTrace | .gfQsolve | .encode | .syndromes | .bm | .roots | .forney | .apply => 0

/-- The command word of a command: reserved bits 0, then the flag bits, then the opcode (R111, R113). -/
def encode (i : Instr) : Word := (0 : BitVec 22) ++ flagBitsOf i ++ opcodeOf i

/-- The command the decoder reads from a table row's bits: a command is one 32-bit word (R110), whose bits above
`nbits` are 0. -/
def decodeTableWord (nbits w : Nat) : Option Instr :=
  match decode (BitVec.ofNat 32 (w % 2 ^ nbits)) with
  | .ok i => some i
  | .error _ => none

end Sys2Proof
end

