-- ==== Sys2Proof/Machine/State.lean ====
section
/-! DEFINITION. The state of FEC-CORE as plain data (10_state.md), its reset value (R63, R64, R350), and the ways a
step can stop. -/

namespace Sys2Proof.Machine

/-- The fault codes a command can end with (60_exceptions.md R321). Their numbers are `ErrCode.code` in Ops.lean. These
are ordinary next states recorded in STATUS (R322), not stops of the model. -/
inductive ErrCode where
  | illegal
  | cfgM
  | cfgPoly
  | notPrimitive
  | cfgNr
  | cfgFcr
  | cfgMinpoly
  | genVerify
  | noField
  | noGen
  | range
  | zero
  | erasure
  | count
deriving DecidableEq, Repr

/-- The engine's sequencing state (R31): IDLE, or BUSY(c) with the accepted command word c. STATUS.BUSY reads it. -/
inductive Engine where
  | idle
  | busy (c : Word)
deriving DecidableEq, Repr

/-- The direction of a port access (R80). -/
inductive Dir where
  | rd
  | wr
deriving DecidableEq, Repr

/-- One access a host presents on the port (R80). `narrow` is a request for fewer than 32 bits, which the port refuses
whatever it carries (R87). -/
inductive Access where
  | read (a : Addr)
  | write (a : Addr) (v : Word)
  | narrow (d : Dir) (a : Addr)
deriving DecidableEq, Repr

/-- What the port answers (R80, R89): OKAY with read data, OKAY to a write, or ERROR (whose read data is 0). -/
inductive Response where
  | okayData (v : Word)
  | okay
  | error
deriving DecidableEq, Repr

/-- Whose turn a step is (R32): the host presents an access, the engine may take its completion step, or the reset
input is driven (R350). DESIGN CHOICE, log entry 1. -/
inductive Turn where
  | host (x : Access)
  | engine
  | resetInput (asserted : Bool)
deriving DecidableEq, Repr

/-- The cells of one array: the pairs (index, value) of the cells written since the last draw, indices strictly
rising. An unlisted cell holds its draw. -/
abbrev Cells (w : Nat) := List (Nat × BitVec w)

/-- The arrays (10_state.md section 3, R51 to R60). `epoch` numbers the draw that gives every unlisted cell its value
(R64): plain data, the model's own field (log entry 3). -/
structure Memory where
  epoch : Nat
  expt : Cells 16
  logt : Cells 16
  gen : Cells 16
  code : Cells 16
  syn : Cells 16
  lambda : Cells 16
  omega : Cells 16
  loc : Cells 16
  mag : Cells 16
  eras : Cells 16
  minpoly : Cells 17
deriving DecidableEq, Repr

/-- Everything the spec gives the machine, each register with one home and its listed fields only (the zero fields
read 0, R84), then the model's own fields for the interface (log entries 1, 3, 6, 7). -/
structure State where
  /-- IDLE or BUSY(c), with STATUS.BUSY (R31, R35). -/
  engine : Engine
  /-- STATUS.DONE (R35). -/
  done : Bool
  /-- STATUS.ERR (R35). -/
  err : Bool
  /-- STATUS.ERRCODE (R35). -/
  errcode : BitVec 8
  /-- STATUS.FIELD_OK (R35, R62). -/
  fieldOk : Bool
  /-- STATUS.GEN_OK (R35, R62). -/
  genOk : Bool
  /-- CTRL.IE (R36). -/
  ie : Bool
  /-- RESULT (R37). -/
  result : Word
  /-- CFG_M.M (R38). -/
  cfgM : BitVec 5
  /-- CFG_POLY.POLY (R39). -/
  cfgPoly : Mask
  /-- CFG_NR.NR (R40). -/
  cfgNr : BitVec 16
  /-- CFG_FCR.FCR (R41). -/
  cfgFcr : BitVec 16
  /-- CFG_MODE.BCH (R42). -/
  cfgBch : Bool
  /-- CFG_NMP.NMP (R43). -/
  cfgNmp : BitVec 16
  /-- GEN_INFO's stored NP; GEN_INFO reads 0 while GEN_OK = 0 (R44, R190). -/
  genNp : BitVec 16
  /-- GEN_INFO's stored K (R44, R190). -/
  genK : BitVec 16
  /-- NERAS[15:0] (R45). -/
  neras : BitVec 16
  /-- DEG[15:0] (R46). -/
  deg : BitVec 16
  /-- LOCCNT[15:0] (R47). -/
  loccnt : BitVec 16
  /-- OPA (R48). -/
  opa : Word
  /-- OPB (R48). -/
  opb : Word
  /-- OPC (R48). -/
  opc : Word
  /-- OPR (R49). -/
  opr : Word
  /-- The arrays (R51 to R60). -/
  mem : Memory
  /-- The reset input is asserted (R350). -/
  inReset : Bool
  /-- The port's answer to the latest access (R80), none before the first (log entry 7). -/
  response : Option Response
  /-- The turns still to come, next first; when none is left every step is the engine's (R32, log entry 1). -/
  agenda : List Turn
  /-- The number of the next free draw (log entry 3). -/
  draws : Nat
deriving DecidableEq, Repr

/-- Arrays no cell of which has been written since draw number `k` (R64). -/
def Memory.drawn (k : Nat) : Memory :=
  { epoch := k, expt := [], logt := [], gen := [], code := [], syn := [], lambda := [], omega := [], loc := [],
    mag := [], eras := [], minpoly := [] }

/-- The machine right after reset: every register and flag 0, the engine IDLE (R63, R350), every array cell a draw
(R64). The reset input is released, no access has been made, and nothing is scheduled. -/
def State.reset : State :=
  { engine := .idle, done := false, err := false, errcode := 0, fieldOk := false, genOk := false, ie := false,
    result := 0, cfgM := 0, cfgPoly := 0, cfgNr := 0, cfgFcr := 0, cfgBch := false, cfgNmp := 0, genNp := 0,
    genK := 0, neras := 0, deg := 0, loccnt := 0, opa := 0, opb := 0, opc := 0, opr := 0, mem := Memory.drawn 0,
    inReset := false, response := none, agenda := [], draws := 1 }

/-- Faults of the MODEL: the machine stops. There are none: the spec gives every command word, every operand and every
port access an outcome that goes on (R89, R322, R327), so the type has no constructor and no step can fault. Safe: a
claim that the machine stops cannot be proved. -/
inductive Fault where
deriving DecidableEq, Repr

/-- Refusals of the MODEL (not the port's refused accesses, which are next states, R89). -/
inductive Refusal where
  /-- Raised by `exec`'s arm of a command that has no meaning yet. Safe. No arm raises it: every command of the map
  has its meaning. -/
  | notModelled (mnemonic : String)
deriving DecidableEq, Repr

end Sys2Proof.Machine
end

