-- ==== Sys2Proof/Machine/Ops.lean ====
section
/-! DEFINITION. The named operations over the arrays and the registers: reading and writing cells, completing a
command, taking a fault (60_exceptions.md R322) and the return from one (R328), and the register reset (R63). -/

namespace Sys2Proof.Machine

/-! ## Cells -/

/-- `vs` numbered from `i` up. -/
def numbered {α : Type} : Nat → List α → List (Nat × α)
  | _, [] => []
  | i, v :: vs => (i, v) :: numbered (i + 1) vs

/-- The value of cell `i`: the one written, else its draw (R64). -/
def Cells.get {w : Nat} (l : Cells w) (draw : Nat → BitVec w) (i : Nat) : BitVec w :=
  match l.lookup i with
  | some v => v
  | none => draw i

/-- Cells `i`, `i + 1`, … take the values `vs`; every other cell stays. -/
def Cells.write {w : Nat} (l : Cells w) (i : Nat) (vs : List (BitVec w)) : Cells w :=
  l.filter (fun c => c.1 < i) ++ numbered i vs ++ l.filter (fun c => i + vs.length ≤ c.1)

/-- The canonical form of an array: indices strictly rising. -/
def Cells.rising {w : Nat} : Cells w → Bool
  | [] => true
  | [_] => true
  | c :: c' :: l => decide (c.1 < c'.1) && Cells.rising (c' :: l)

/-! ## The arrays -/

/-- The cells of a 16-bit array. -/
def Memory.cells (m : Memory) : Win → Cells 16
  | .expt => m.expt
  | .logt => m.logt
  | .gen => m.gen
  | .code => m.code
  | .syn => m.syn
  | .lambda => m.lambda
  | .omega => m.omega
  | .loc => m.loc
  | .mag => m.mag
  | .eras => m.eras

/-- The arrays with one 16-bit array's cells replaced. -/
def Memory.setCells (m : Memory) (w : Win) (l : Cells 16) : Memory :=
  match w with
  | .expt => { m with expt := l }
  | .logt => { m with logt := l }
  | .gen => { m with gen := l }
  | .code => { m with code := l }
  | .syn => { m with syn := l }
  | .lambda => { m with lambda := l }
  | .omega => { m with omega := l }
  | .loc => { m with loc := l }
  | .mag => { m with mag := l }
  | .eras => { m with eras := l }

/-- Cell `i` of a 16-bit array. -/
def Memory.rd (m : Memory) (w : Win) (i : Nat) : Sym := Cells.get (m.cells w) (Config.draw m.epoch w) i

/-- MINPOLY[i]. -/
def Memory.rdMinpoly (m : Memory) (i : Nat) : Mask := Cells.get m.minpoly (Config.drawMinpoly m.epoch) i

/-- Cells `i`, `i + 1`, … of a 16-bit array take the values `vs`. -/
def Memory.write (m : Memory) (w : Win) (i : Nat) (vs : List Sym) : Memory :=
  m.setCells w (Cells.write (m.cells w) i vs)

/-- MINPOLY[i] takes the value `v`. -/
def Memory.writeMinpoly (m : Memory) (i : Nat) (v : Mask) : Memory :=
  { m with minpoly := Cells.write m.minpoly i [v] }

/-- Cells 0..n-1 of a 16-bit array. -/
def Memory.rdList (m : Memory) (w : Win) (n : Nat) : List Sym := (List.range n).map (m.rd w)

/-- The canonical form of the arrays. -/
def Memory.wf (m : Memory) : Bool :=
  Cells.rising m.expt && Cells.rising m.logt && Cells.rising m.gen && Cells.rising m.code && Cells.rising m.syn &&
  Cells.rising m.lambda && Cells.rising m.omega && Cells.rising m.loc && Cells.rising m.mag && Cells.rising m.eras &&
  Cells.rising m.minpoly

/-! ## The state -/

/-- Cell `i` of a 16-bit array. -/
def State.rd (s : State) (w : Win) (i : Nat) : Sym := s.mem.rd w i

/-- Cells 0..n-1 of a 16-bit array. -/
def State.rdList (s : State) (w : Win) (n : Nat) : List Sym := s.mem.rdList w n

/-- Cells `i`, `i + 1`, … of a 16-bit array take the values `vs`. -/
def State.store (s : State) (w : Win) (i : Nat) (vs : List Sym) : State := { s with mem := s.mem.write w i vs }

/-- The end of a command that did not fault: BUSY <- 0, DONE <- 1 (R32, R35). ERR and ERRCODE stay (R328). -/
def State.complete (s : State) : State := { s with engine := .idle, done := true }

/-- The fault codes (R321). -/
def ErrCode.code : ErrCode → BitVec 8
  | .illegal => 0x01
  | .cfgM => 0x02
  | .cfgPoly => 0x03
  | .notPrimitive => 0x04
  | .cfgNr => 0x05
  | .cfgFcr => 0x06
  | .cfgMinpoly => 0x07
  | .genVerify => 0x08
  | .noField => 0x09
  | .noGen => 0x0A
  | .range => 0x0B
  | .zero => 0x0C
  | .erasure => 0x0D
  | .count => 0x0E

/-- TAKING A FAULT (R322): ERR <- 1, ERRCODE <- code, BUSY <- 0, DONE <- 1, and nothing else. No vector is taken, no
mode changes and no state is saved. -/
def State.raiseFault (s : State) (e : ErrCode) : State :=
  { s with err := true, errcode := e.code, engine := .idle, done := true }

/-- THE RETURN FROM A FAULT (R328): no instruction returns; a host's write of 1 to STATUS.ERR clears ERR and
ERRCODE. -/
def State.clearFault (s : State) : State := { s with err := false, errcode := 0 }

/-- A command's completion step (R32, R320): the first check that fails is its fault; when none does, its effect
happens whole. -/
def State.finish (s : State) (check : Option ErrCode) (effect : State → State) :
    Host.Outcome State Fault Refusal :=
  match check with
  | some e => .next (s.raiseFault e)
  | none => .next (effect s).complete

/-- Every register and flag of R63 takes its reset value, and the engine is IDLE. The arrays stay. -/
def State.resetRegisters (s : State) : State :=
  { State.reset with
    mem := s.mem, inReset := s.inReset, response := s.response, agenda := s.agenda, draws := s.draws }

/-- Every array cell takes a fresh draw (R64, R350). -/
def State.redraw (s : State) : State := { s with mem := Memory.drawn s.draws, draws := s.draws + 1 }

/-- The reset input (R350, R351). While it is asserted the block holds its registers at their reset values and any
command is abandoned; when it is released the block is in its reset state, its array cells drawn anew. -/
def State.driveReset (s : State) (asserted : Bool) : State :=
  if asserted then { s.resetRegisters.redraw with inReset := true }
  else if s.inReset then { s.resetRegisters.redraw with inReset := false }
  else s

end Sys2Proof.Machine
end

