-- ==== Sys2Proof/Machine/GaloisField.lean ====
section
/-! DEFINITION. The field GF(2^M) that every other command computes in (40_field.md section 1). -/

namespace Sys2Proof.Machine

/-! ## The tables -/

/-- next(a), multiplication by the primitive element: shift left, and reduce by POLY when bit M-1 was set (R140). -/
def nextPower (m : Nat) (poly : Mask) (a : Sym) : Sym :=
  let d : Mask := a.setWidth 17 <<< 1
  (if a.getLsbD (m - 1) then d ^^^ poly else d).setWidth 16

/-- a, next(a), …, `n` values (R141's loop). -/
def powersFrom (m : Nat) (poly : Mask) : Nat → Sym → List Sym
  | 0, _ => []
  | n + 1, a => a :: powersFrom m poly n (nextPower m poly a)

/-- The values a takes in R141's loop, i = 0..N: EXPT[0..N-1], then the value after the loop. -/
def powers (m : Nat) (poly : Mask) : List Sym := powersFrom m poly (2 ^ m) 1

/-- POLY has bit M set and no bit above M (R141). -/
def polyDegreeOk (m : Nat) (poly : Mask) : Bool := poly.getLsbD m && poly >>> (m + 1) == 0

/-- The powers first return to 1 at step N (R141, 90_conflicts.md C2). -/
def primitive (m : Nat) (poly : Mask) : Bool :=
  let ps := powers m poly
  ps.tail.dropLast.all (fun a => a != 1) && ps.getLast? == some 1

/-- EXPT[0..N]: the powers, then the zero marker (R141, R142). -/
def expTable (m : Nat) (poly : Mask) : List Sym := (powers m poly).dropLast ++ [0]

/-- LOGT[0..N]: the zero marker N, then for each value 1..N the index of it in EXPT (R141, R142). -/
def logTable (m : Nat) (poly : Mask) : List Sym :=
  let ps := powers m poly
  BitVec.ofNat 16 (2 ^ m - 1) ::
    (List.range (2 ^ m - 1)).map fun v => BitVec.ofNat 16 (ps.idxOf (BitVec.ofNat 16 (v + 1)))

/-! ## The field functions -/

/-- The field as the commands see it: M, and the tables EXPT and LOGT. A view of the state, not part of it. -/
structure GF where
  m : Nat
  exp : Nat → Sym
  log : Sym → Nat

/-- Q = 2^M (R6). -/
def GF.q (F : GF) : Nat := 2 ^ F.m

/-- N = Q - 1 (R6). -/
def GF.n (F : GF) : Nat := 2 ^ F.m - 1

/-- EXPT[k mod N] for an integer k (R148). -/
def GF.pe (F : GF) (k : Int) : Sym := F.exp (k % (F.n : Int)).toNat

/-- Addition, and subtraction (R143). -/
def gadd (a b : Sym) : Sym := a ^^^ b

/-- Multiplication (R144). -/
def gmul (F : GF) (a b : Sym) : Sym :=
  if a = 0 ∨ b = 0 then 0 else F.exp ((F.log a + F.log b) % F.n)

/-- Division, precondition b ≠ 0, which every command that divides has checked (R145, log entry 8). -/
def gdiv (F : GF) (a b : Sym) : Sym :=
  if a = 0 then 0 else F.pe ((F.log a : Int) - (F.log b : Int))

/-- The reciprocal, precondition a ≠ 0 (R146, log entry 8). -/
def ginv (F : GF) (a : Sym) : Sym := F.pe ((F.n : Int) - (F.log a : Int))

/-- Fused multiply-add (R147). -/
def gfma (F : GF) (a b c : Sym) : Sym :=
  if a = 0 ∨ b = 0 then c else gmul F a b ^^^ c

/-- The primitive element raised to an index in [0, N-1] (R148). -/
def gexp (F : GF) (i : Nat) : Sym := F.exp i

/-- The discrete logarithm, precondition v ≠ 0 (R148, log entry 8). -/
def glog (F : GF) (v : Sym) : Nat := F.log v

/-- Integer power; precondition: not (a = 0 and e < 0) (R150, log entry 8). -/
def gpow (F : GF) (a : Sym) (e : Int) : Sym :=
  if a = 0 ∧ 0 ≤ e then (if e = 0 then 1 else 0) else F.pe ((F.log a : Int) * e)

/-- The absolute trace a ⊕ a^2 ⊕ a^4 ⊕ … ⊕ a^(2^(M-1)), M terms (R151). -/
def gtrace (F : GF) (a : Sym) : Sym :=
  (List.range (F.m - 1)).foldl (fun t k => t ^^^ gpow F a ((2 ^ (k + 1) : Nat) : Int)) a

/-- The quadratic solver: the solution of y² ⊕ y = c with bit 0 clear, NONE when the trace is 1 (R152). -/
def gqsolve (F : GF) (c : Sym) : Option Sym :=
  if gtrace F c = 1 then none
  else ((List.range F.q).map (BitVec.ofNat 16)).find? fun y => !y.getLsbD 0 && gmul F y y ^^^ y == c

/-- The value at x of the polynomial with ascending coefficients `p` (R153); 0 for the empty list. -/
def peval (F : GF) (p : List Sym) (x : Sym) : Sym :=
  (numbered 0 p).foldl (fun t c => t ^^^ gmul F c.2 (gpow F x (c.1 : Int))) 0

/-- Square root (R154); the closed form of 45_roots.md R256 uses it, no command's output needs it (R254). -/
def gsqrt (F : GF) (a : Sym) : Sym :=
  if a = 0 then 0 else
    let i := F.log a
    F.exp (if i % 2 = 0 then i / 2 else (i + F.n) / 2)

end Sys2Proof.Machine
end

