-- ==== Sys2Proof/Machine/Operands.lean ====
section
/-! DEFINITION. What the commands read: the field, the code parameters and the operands, and the checks every command
of a family makes on them (40_field.md R155, 42_encoder.md R200 and R201, 60_exceptions.md R324 to R326). -/

namespace Sys2Proof.Machine

/-! ## The current field and code -/

/-- The field of the current CFG_M and tables (40_field.md). -/
def State.gf (s : State) : GF :=
  { m := s.cfgM.toNat, exp := fun i => s.rd .expt i, log := fun v => (s.rd .logt v.toNat).toNat }

/-- Q = 2^M (R6). -/
def State.q (s : State) : Nat := 2 ^ s.cfgM.toNat

/-- N = Q - 1, the codeword length (R6). -/
def State.n (s : State) : Nat := 2 ^ s.cfgM.toNat - 1

/-- NR, the number of consecutive roots and syndromes (R40). -/
def State.nr (s : State) : Nat := s.cfgNr.toNat

/-- FCR, the first consecutive root exponent (R41). -/
def State.fcr (s : State) : Nat := s.cfgFcr.toNat

/-- NP, the number of parity symbols (R44). -/
def State.np (s : State) : Nat := s.genNp.toNat

/-- K, the number of message symbols (R44). -/
def State.k (s : State) : Nat := s.genK.toNat

/-- The erasure positions ERAS[0..NERAS-1] (R45, R60). -/
def State.erasures (s : State) : List Nat := (s.rdList .eras s.neras.toNat).map BitVec.toNat

/-- The positions LOC[0..LOCCNT-1] (R47, R58). -/
def State.locations (s : State) : List Nat := (s.rdList .loc s.loccnt.toNat).map BitVec.toNat

/-! ## Operands of the field-arithmetic commands -/

/-- An operand register as a value: an unsigned integer below Q once checked (R114). -/
def symOf (x : Word) : Sym := x.setWidth 16

/-- OPB as GF.POW's exponent: the register's two's-complement value (R114, R163). -/
def exponentOf (x : Word) : Int := x.toInt

/-- A field value as OPR holds it (R49). -/
def wordOf (v : Sym) : Word := v.setWidth 32

/-- RESULT = -1, the failure sentinel (R37). -/
def minusOne : Word := 0xFFFFFFFF

/-- R155's checks: FIELD_OK, then each operand, in order, below its bound (Q for a value, N for an index). -/
def State.operandCheck (s : State) (operands : List Word) (bound : Nat) : Option ErrCode :=
  if !s.fieldOk then some .noField
  else if operands.any fun x => bound ≤ x.toNat then some .range
  else none

/-- The first check that fails (R326). -/
def firstFault (a b : Option ErrCode) : Option ErrCode :=
  match a with
  | some e => some e
  | none => b

/-- The check that a condition does not hold. -/
def faultIf (bad : Bool) (e : ErrCode) : Option ErrCode := if bad then some e else none

/-! ## Checks of the pipeline commands -/

/-- R200's checks: FIELD_OK, then GEN_OK. -/
def State.pipelineCheck (s : State) : Option ErrCode :=
  if !s.fieldOk then some .noField else if !s.genOk then some .noGen else none

/-- A codeword symbol is in range: below Q in RS mode, 0 or 1 in BCH mode (R201). -/
def State.symbolOk (s : State) (v : Sym) : Bool :=
  if s.cfgBch then v.toNat ≤ 1 else v.toNat < s.q

end Sys2Proof.Machine
end

