-- ==== Sys2Proof/Machine/BerlekampMassey.lean ====
section
/-! DEFINITION. The Berlekamp-Massey error-locator solver, BM (44_berlekamp_massey.md). -/

namespace Sys2Proof.Machine

/-- C(x)·(1 ⊕ X·x), cells 0..NR of the same list (R231). -/
def timesLocator (F : GF) (x : Sym) (c : List Sym) : List Sym :=
  List.zipWith (fun a b => a ^^^ gmul F x b) c (0 :: c)

/-- C seeded with the erasure locator, cells 0..NR (R231). -/
def erasureSeed (F : GF) (nr : Nat) (eras : List Nat) : List Sym :=
  eras.foldl (fun c p => timesLocator F (F.pe ((F.n : Int) - 1 - (p : Int))) c) (1 :: List.replicate nr 0)

/-- What one BM run carries from step to step (R61, R232): C, B, L, m and b. -/
structure BMRun where
  c : List Sym
  prev : List Sym
  len : Nat
  gap : Nat
  disc : Sym
deriving DecidableEq, Repr

/-- The discrepancy at step n: SYN[n] ⊕ C[1]·SYN[n-1] ⊕ … ⊕ C[L]·SYN[n-L] (R232). -/
def discrepancy (F : GF) (syn : List Sym) (r : BMRun) (n : Nat) : Sym :=
  (List.range r.len).foldl (fun d i => gfma F (r.c.getD (i + 1) 0) (syn.getD (n - (i + 1)) 0) d) (syn.getD n 0)

/-- T: C[i] for i < m, then C[i] ⊕ (d/b)·B[i-m] for i = m..NR (R232). -/
def corrected (F : GF) (nr : Nat) (r : BMRun) (d : Sym) : List Sym :=
  (List.range (nr + 1)).map fun i =>
    if i < r.gap then r.c.getD i 0
    else gfma F (gdiv F d r.disc) (r.prev.getD (i - r.gap) 0) (r.c.getD i 0)

/-- One step n of the iteration, with f erasures (R232). -/
def bmStep (F : GF) (nr : Nat) (syn : List Sym) (f : Nat) (r : BMRun) (n : Nat) : BMRun :=
  let d := discrepancy F syn r n
  if d = 0 then { r with gap := r.gap + 1 }
  else if 2 * r.len ≤ n + f then
    { c := corrected F nr r d, prev := r.c, len := n + f + 1 - r.len, gap := 1, disc := d }
  else { r with c := corrected F nr r d, gap := r.gap + 1 }

/-- The run before the first step: B is the seeded C, L = f, m = 1, b = 1 (R232). -/
def bmStart (F : GF) (nr : Nat) (eras : List Nat) : BMRun :=
  let c := erasureSeed F nr eras
  { c := c, prev := c, len := eras.length, gap := 1, disc := 1 }

/-- The run after steps f..NR-1; its C is the locator and its L the degree (R231, R232). -/
def bmRun (F : GF) (nr : Nat) (syn : List Sym) (eras : List Nat) : BMRun :=
  (List.range' eras.length (nr - eras.length)).foldl (bmStep F nr syn eras.length) (bmStart F nr eras)

/-- The erasure checks: the count, then each position (R230). -/
def State.erasureCheck (s : State) : Option ErrCode :=
  if s.nr < s.neras.toNat then some .erasure
  else if s.erasures.any fun p => s.n ≤ p then some .erasure
  else none

/-- BM's checks (R230). -/
def State.bmCheck (s : State) : Option ErrCode :=
  firstFault s.pipelineCheck
    (firstFault s.erasureCheck (faultIf ((s.rdList .syn s.nr).any fun v => s.q ≤ v.toNat) .range))

/-- LAMBDA[0..NR], DEG and RESULT (R230). -/
def State.solveLocator (s : State) : State :=
  let r := bmRun s.gf s.nr (s.rdList .syn s.nr) s.erasures
  { s.store .lambda 0 r.c with deg := BitVec.ofNat 16 r.len, result := BitVec.ofNat 32 r.len }

/-- BM (R230). -/
def execBm (s : State) : Host.Outcome State Fault Refusal := s.finish s.bmCheck State.solveLocator

end Sys2Proof.Machine
end

