-- ==== Sys2Proof/Machine/Forney.lean ====
section
/-! DEFINITION. The Forney evaluator, FORNEY, and the correction step, APPLY (46_forney.md). -/

namespace Sys2Proof.Machine

/-- The error evaluator, syndromes × locator modulo x^NR, cells 0..NR-1; `lam` is LAMBDA[0..d] (R271). -/
def evaluator (F : GF) (nr : Nat) (syn lam : List Sym) : List Sym :=
  (List.range nr).map fun i =>
    (List.range (min i (lam.length - 1) + 1)).foldl
      (fun t j => t ^^^ gmul F (syn.getD (i - j) 0) (lam.getD j 0)) 0

/-- The formal derivative at x: the odd-indexed coefficients only (R272). -/
def derivative (F : GF) (lam : List Sym) (x : Sym) : Sym :=
  (numbered 0 lam).foldl
    (fun t c => if c.1 % 2 = 1 then t ^^^ gmul F c.2 (gpow F x ((c.1 - 1 : Nat) : Int)) else t) 0

/-- The root of Λ for position p (R12, R270). -/
def rootOf (F : GF) (p : Nat) : Sym := F.pe ((p + 1 : Nat) : Int)

/-- The magnitude root^(FCR-1)·Ω(root)/Λ'(root) at position p (R270, R273). -/
def magnitude (F : GF) (fcr : Nat) (om lam : List Sym) (p : Nat) : Sym :=
  let x := rootOf F p
  gmul F (gpow F x ((fcr : Int) - 1)) (gdiv F (peval F om x) (derivative F lam x))

/-- LAMBDA[0..DEG]. -/
def State.locator (s : State) : List Sym := s.rdList .lambda (s.deg.toNat + 1)

/-- The derivative of the locator is zero at some listed position (R270). -/
def someDerivativeZero (F : GF) (lam : List Sym) (ps : List Nat) : Bool :=
  ps.any fun p => derivative F lam (rootOf F p) == 0

/-- FORNEY's checks: the counts, then SYN, LAMBDA and LOC, then the derivatives (R270). -/
def State.forneyCheck (s : State) : Option ErrCode :=
  firstFault s.pipelineCheck
    (firstFault (faultIf (decide (s.nr < s.deg.toNat) || decide (s.nr < s.loccnt.toNat)) .count)
      (firstFault
        (faultIf
          (((s.rdList .syn s.nr).any fun v => s.q ≤ v.toNat) || (s.locator.any fun v => s.q ≤ v.toNat) ||
            (s.locations.any fun p => s.n ≤ p))
          .range)
        (faultIf (someDerivativeZero s.gf s.locator s.locations) .zero)))

/-- OMEGA[0..NR-1], MAG[0..LOCCNT-1], and RESULT, the nonzero count (R270). -/
def State.evaluateMagnitudes (s : State) : State :=
  let om := evaluator s.gf s.nr (s.rdList .syn s.nr) s.locator
  let mg := s.locations.map (magnitude s.gf s.fcr om s.locator)
  { (s.store .omega 0 om).store .mag 0 mg with result := BitVec.ofNat 32 (mg.countP fun v => v != 0) }

/-- FORNEY (R270). -/
def execForney (s : State) : Host.Outcome State Fault Refusal := s.finish s.forneyCheck State.evaluateMagnitudes

/-! ## APPLY -/

/-- The corrections (LOC[k], MAG[k]) for k < LOCCNT (R280). -/
def State.corrections (s : State) : List (Nat × Sym) := s.locations.zip (s.rdList .mag s.loccnt.toNat)

/-- APPLY's checks: the count, then LOC[k] before MAG[k] for each k (R280). -/
def State.applyCheck (s : State) : Option ErrCode :=
  firstFault s.pipelineCheck
    (firstFault (faultIf (decide (s.nr < s.loccnt.toNat)) .count)
      (faultIf (s.corrections.any fun c => s.n ≤ c.1 || !s.symbolOk c.2) .range))

/-- CODE[p] <- CODE[p] ⊕ v (R280). -/
def State.correctCell (s : State) (c : Nat × Sym) : State := s.store .code c.1 [s.rd .code c.1 ^^^ c.2]

/-- The number of positions below N whose symbol differs (R280, R298). -/
def changedCount (old new : List Sym) : Nat := (old.zip new).countP fun c => c.1 != c.2

/-- Each magnitude XORed into the codeword, in order; RESULT counts the positions changed (R280). -/
def State.applyCorrections (s : State) : State :=
  let t := s.corrections.foldl State.correctCell s
  { t with result := BitVec.ofNat 32 (changedCount (s.rdList .code s.n) (t.rdList .code s.n)) }

/-- APPLY (R280). -/
def execApply (s : State) : Host.Outcome State Fault Refusal := s.finish s.applyCheck State.applyCorrections

end Sys2Proof.Machine
end

