-- ==== Sys2Proof/Machine/Roots.lean ====
section
/-! DEFINITION. The root finder, ROOTS (45_roots.md). The output is the search's for every degree (R254). -/

namespace Sys2Proof.Machine

/-- The exact degree: d0 lowered past zero coefficients (R252). -/
def trim (lam : Nat → Sym) : Nat → Nat
  | 0 => 0
  | d + 1 => if lam (d + 1) = 0 then trim lam d else d + 1

/-- The positions of the roots of a locator of degree d, ascending, stopping at the d-th (R250, R253); none when
d = 0. `lam` is LAMBDA[0..d]. -/
def rootPositions (F : GF) (lam : List Sym) (d : Nat) : List Nat :=
  ((List.range F.n).filter fun p => peval F lam (F.pe ((p + 1 : Nat) : Int)) == 0).take d

/-- ROOTS' checks: DEG, then LAMBDA[0..DEG] (R250). -/
def State.rootsCheck (s : State) : Option ErrCode :=
  firstFault s.pipelineCheck
    (firstFault (faultIf (decide (s.nr < s.deg.toNat)) .count)
      (faultIf ((s.rdList .lambda (s.deg.toNat + 1)).any fun v => s.q ≤ v.toNat) .range))

/-- LOC, LOCCNT, DEG and RESULT (R250); a constant coefficient other than 1 gives RESULT = -1 (R251). -/
def State.findRoots (s : State) : State :=
  if s.rd .lambda 0 ≠ 1 then { s with loccnt := 0, result := minusOne }
  else
    let d := trim (s.rd .lambda) s.deg.toNat
    let ps := rootPositions s.gf (s.rdList .lambda (d + 1)) d
    { s.store .loc 0 (ps.map (BitVec.ofNat 16)) with
      deg := BitVec.ofNat 16 d, loccnt := BitVec.ofNat 16 ps.length, result := BitVec.ofNat 32 ps.length }

/-- ROOTS (R250). -/
def execRoots (s : State) : Host.Outcome State Fault Refusal := s.finish s.rootsCheck State.findRoots

end Sys2Proof.Machine
end

