-- ==== Sys2Proof/Machine/Syndromes.lean ====
section
/-! DEFINITION. The syndrome computer, SYNDROMES (43_syndromes.md). -/

namespace Sys2Proof.Machine

/-- A word, first symbol the highest coefficient, evaluated at r by Horner's method (R221). -/
def horner (F : GF) (r : Sym) (w : List Sym) : Sym :=
  match w with
  | [] => 0
  | c :: cs => cs.foldl (fun t v => gfma F t r v) c

/-- The NR syndromes of a word (R221). -/
def syndromesOf (F : GF) (nr fcr : Nat) (w : List Sym) : List Sym :=
  (List.range nr).map fun i => horner F (F.pe ((fcr + i : Nat) : Int)) w

/-- The codeword CODE[0..N-1] (R54). -/
def State.codeword (s : State) : List Sym := s.rdList .code s.n

/-- SYNDROMES' checks: every codeword symbol is in range (R220). -/
def State.syndromesCheck (s : State) : Option ErrCode :=
  firstFault s.pipelineCheck (faultIf (!s.codeword.all s.symbolOk) .range)

/-- SYN[0..NR-1] <- the syndromes of CODE; RESULT <- their nonzero count (R220). -/
def State.computeSyndromes (s : State) : State :=
  let syn := syndromesOf s.gf s.nr s.fcr s.codeword
  { s.store .syn 0 syn with result := BitVec.ofNat 32 (syn.countP fun v => v != 0) }

/-- SYNDROMES (R220). -/
def execSyndromes (s : State) : Host.Outcome State Fault Refusal := s.finish s.syndromesCheck State.computeSyndromes

end Sys2Proof.Machine
end

