-- ==== Sys2Proof/Machine/Decoder.lean ====
section
/-! DEFINITION. The decode orchestrator, DECODE (47_decode.md): its stages, each writing what R298's table says. -/

namespace Sys2Proof.Machine

/-- FAILURE: RESULT <- -1, CODE is not written (R298). -/
def State.decodeFailure (s : State) : State := { s with result := minusOne }

/-- SUCCESS: CODE[0..N-1] <- the working copy, RESULT <- the number of symbols changed (R298). -/
def State.decodeSuccess (s : State) (orig w : List Sym) : State :=
  { s.store .code 0 w with result := BitVec.ofNat 32 (changedCount orig w) }

/-- The working copy with each magnitude XORed in at its position (R297). -/
def correctWord (w : List Sym) (cs : List (Nat × Sym)) : List Sym :=
  cs.foldl (fun w c => w.set c.1 (w.getD c.1 0 ^^^ c.2)) w

/-- ApplyCorrections: unless NOVFY, a nonzero syndrome of the corrected word is a failure (R297). -/
def State.decodeApply (s : State) (novfy : Bool) (orig w : List Sym) (cs : List (Nat × Sym)) : State :=
  let w' := correctWord w cs
  if !novfy && (syndromesOf s.gf s.nr s.fcr w').any (fun v => v != 0) then s.decodeFailure
  else s.decodeSuccess orig w'

/-- ComputeMagnitudes: OMEGA and MAG; a zero derivative, or in BCH mode a magnitude above 1, is a failure (R295,
R296). `lam` is the locator, cells 0..d. -/
def State.decodeMagnitudes (s : State) (novfy : Bool) (orig w syn lam : List Sym) (ps : List Nat) : State :=
  if someDerivativeZero s.gf lam ps then s.decodeFailure
  else
    let om := evaluator s.gf s.nr syn lam
    let mg := ps.map (magnitude s.gf s.fcr om lam)
    let t := (s.store .omega 0 om).store .mag 0 mg
    if s.cfgBch && mg.any (fun v => decide (1 < v.toNat)) then t.decodeFailure
    else t.decodeApply novfy orig w (ps.zip mg)

/-- Degree classification and FindRoots: the trimmed DEG, LOC and LOCCNT (R294, R299). `c` and `len` are BM's C and
L. -/
def State.decodeRoots (s : State) (novfy : Bool) (orig w syn c : List Sym) (len : Nat) : State :=
  if c.getD 0 0 ≠ 1 then State.decodeFailure { s with loccnt := 0 }
  else
    let d := trim (fun j => c.getD j 0) len
    let t := { s with deg := BitVec.ofNat 16 d }
    if d = 0 then State.decodeFailure { t with loccnt := 0 }
    else
      let lam := c.take (d + 1)
      let ps := rootPositions s.gf lam d
      let u := { t.store .loc 0 (ps.map (BitVec.ofNat 16)) with loccnt := BitVec.ofNat 16 ps.length }
      if ps.length < d then u.decodeFailure
      else u.decodeMagnitudes novfy orig w syn lam ps

/-- ComputeLocator: LAMBDA[0..NR] and DEG = L; a degree above NR is a failure, never taken (R293). -/
def State.decodeLocate (s : State) (novfy : Bool) (orig w syn : List Sym) : State :=
  let r := bmRun s.gf s.nr syn s.erasures
  let t := { s.store .lambda 0 r.c with deg := BitVec.ofNat 16 r.len }
  if s.nr < r.len then t.decodeFailure
  else t.decodeRoots novfy orig w syn r.c r.len

/-- The working copy: with CLR, every erased position cleared (R291). -/
def workingCopy (clr : Bool) (eras : List Nat) (orig : List Sym) : List Sym :=
  if clr then eras.foldl (fun w p => w.set p 0) orig else orig

/-- DECODE's effect: SYN, and success at once when the working copy's syndromes are all zero (R290, R292). -/
def State.runDecode (clr novfy : Bool) (s : State) : State :=
  let orig := s.codeword
  let w := workingCopy clr s.erasures orig
  let syn := syndromesOf s.gf s.nr s.fcr w
  let t := s.store .syn 0 syn
  if syn.all (fun v => v == 0) then t.decodeSuccess orig w
  else t.decodeLocate novfy orig w syn

/-- DECODE's checks: the erasures, then every codeword symbol (R290). -/
def State.decodeCheck (s : State) : Option ErrCode :=
  firstFault s.pipelineCheck (firstFault s.erasureCheck (faultIf (!s.codeword.all s.symbolOk) .range))

/-- DECODE (R290). -/
def execDecode (clr novfy : Bool) (s : State) : Host.Outcome State Fault Refusal :=
  s.finish s.decodeCheck (State.runDecode clr novfy)

end Sys2Proof.Machine
end

