-- ==== Sys2Proof/Machine/Encoder.lean ====
section
/-! DEFINITION. The systematic encoder, ENCODE (42_encoder.md). -/

namespace Sys2Proof.Machine

/-- One message symbol through the feedback shift register of NP cells; `gen j` is GEN[j]. Zero feedback is a pure
shift (R210, R212). -/
def encodeSymbol (F : GF) (np : Nat) (gen : Nat → Sym) (par : List Sym) (c : Sym) : List Sym :=
  let f := c ^^^ par.getD 0 0
  (List.range np).map fun j =>
    if f = 0 then (if j + 1 < np then par.getD (j + 1) 0 else 0)
    else if j + 1 < np then gfma F f (gen (np - 1 - j)) (par.getD (j + 1) 0)
    else gmul F f (gen 0)

/-- The parity of a message: the register after the last symbol (R210, R211). -/
def parityOf (F : GF) (np : Nat) (gen : Nat → Sym) (msg : List Sym) : List Sym :=
  msg.foldl (encodeSymbol F np gen) (List.replicate np 0)

/-- ENCODE's checks: the message symbols are in range (R210). -/
def State.encodeCheck (s : State) : Option ErrCode :=
  firstFault s.pipelineCheck (faultIf (!(s.rdList .code s.k).all s.symbolOk) .range)

/-- CODE[K..N-1] <- the parity of CODE[0..K-1]; RESULT <- 0 (R210). -/
def State.encode (s : State) : State :=
  { s.store .code s.k (parityOf s.gf s.np (s.rd .gen) (s.rdList .code s.k)) with result := 0 }

/-- ENCODE (R210). -/
def execEncode (s : State) : Host.Outcome State Fault Refusal := s.finish s.encodeCheck State.encode

end Sys2Proof.Machine
end

