-- ==== Sys2Proof/Machine/Flags.lean ====
section
/-! DEFINITION. STATUS and its flags (10_state.md R35, R50, R62), and the interrupt output (60_exceptions.md R330). -/

namespace Sys2Proof.Machine

/-- STATUS.BUSY: 1 while a command is accepted and not completed (R35). -/
def State.isBusy (s : State) : Bool :=
  match s.engine with
  | .idle => false
  | .busy _ => true

/-- STATUS as read: BUSY [0], DONE [1], ERR [2], FIELD_OK [3], GEN_OK [4], zero [7:5], ERRCODE [15:8], zero [31:16]
(R35). -/
def State.statusWord (s : State) : Word :=
  (0 : BitVec 16) ++ s.errcode ++ (0 : BitVec 3) ++ BitVec.ofBool s.genOk ++ BitVec.ofBool s.fieldOk ++
    BitVec.ofBool s.err ++ BitVec.ofBool s.done ++ BitVec.ofBool s.isBusy

/-- A write to STATUS while IDLE: bit 1 written 1 clears DONE, bit 2 written 1 clears ERR and ERRCODE, every other bit
is ignored (R35). -/
def State.writeStatus (s : State) (v : Word) : State :=
  let t := if v.getLsbD 2 then s.clearFault else s
  if v.getLsbD 1 then { t with done := false } else t

/-- A write to CFG_M or CFG_POLY clears FIELD_OK and GEN_OK (R50). -/
def State.invalidateField (s : State) : State := { s with fieldOk := false, genOk := false }

/-- A write to CFG_NR, CFG_FCR, CFG_MODE, CFG_NMP or a MINPOLY cell clears GEN_OK (R50). -/
def State.invalidateGen (s : State) : State := { s with genOk := false }

/-- The interrupt output: irq = STATUS.DONE and CTRL.IE (R330). -/
def State.irq (s : State) : Bool := s.done && s.ie

end Sys2Proof.Machine
end

