-- ==== Sys2Proof/Machine/FieldCommands.lean ====
section
/-! DEFINITION. BUILD_FIELD (40_field.md R141) and the field-arithmetic commands (R155 to R165). -/

namespace Sys2Proof.Machine

/-! ## BUILD_FIELD -/

/-- The cells EXPT[0..N] and LOGT[0..N] take fresh draws: the tables after E_NOT_PRIMITIVE (R141, U6). -/
def State.drawTables (s : State) : State :=
  let cells := List.range (2 ^ s.cfgM.toNat)
  { ((s.store .expt 0 (cells.map (Config.draw s.draws .expt))).store .logt 0
      (cells.map (Config.draw s.draws .logt))) with draws := s.draws + 1 }

/-- The tables of the current CFG_M and CFG_POLY, FIELD_OK and RESULT (R141). -/
def State.installTables (s : State) : State :=
  { ((s.store .expt 0 (expTable s.cfgM.toNat s.cfgPoly)).store .logt 0 (logTable s.cfgM.toNat s.cfgPoly)) with
    fieldOk := true, result := 0 }

/-- BUILD_FIELD (R141): both flags are cleared before any check. -/
def execBuildField (s : State) : Host.Outcome State Fault Refusal :=
  let t := s.invalidateField
  let m := t.cfgM.toNat
  if m < Config.mMin ∨ Config.mMax < m then .next (t.raiseFault .cfgM)
  else if !polyDegreeOk m t.cfgPoly then .next (t.raiseFault .cfgPoly)
  else if !primitive m t.cfgPoly then .next (t.drawTables.raiseFault .notPrimitive)
  else .next t.installTables.complete

/-! ## Field arithmetic -/

/-- OPR and RESULT of a field-arithmetic command (R155). -/
def State.answer (s : State) (opr result : Word) : State := { s with opr := opr, result := result }

/-- GF.ADD (R156). -/
def execGfAdd (s : State) : Host.Outcome State Fault Refusal :=
  s.finish (s.operandCheck [s.opa, s.opb] s.q) fun t => t.answer (wordOf (gadd (symOf t.opa) (symOf t.opb))) 0

/-- GF.MUL (R157). -/
def execGfMul (s : State) : Host.Outcome State Fault Refusal :=
  s.finish (s.operandCheck [s.opa, s.opb] s.q) fun t => t.answer (wordOf (gmul t.gf (symOf t.opa) (symOf t.opb))) 0

/-- GF.DIV: division by zero faults after the range check (R158). -/
def execGfDiv (s : State) : Host.Outcome State Fault Refusal :=
  s.finish (firstFault (s.operandCheck [s.opa, s.opb] s.q) (faultIf (s.opb == 0) .zero)) fun t =>
    t.answer (wordOf (gdiv t.gf (symOf t.opa) (symOf t.opb))) 0

/-- GF.INV (R159). -/
def execGfInv (s : State) : Host.Outcome State Fault Refusal :=
  s.finish (firstFault (s.operandCheck [s.opa] s.q) (faultIf (s.opa == 0) .zero)) fun t =>
    t.answer (wordOf (ginv t.gf (symOf t.opa))) 0

/-- GF.FMA (R160). -/
def execGfFma (s : State) : Host.Outcome State Fault Refusal :=
  s.finish (s.operandCheck [s.opa, s.opb, s.opc] s.q) fun t =>
    t.answer (wordOf (gfma t.gf (symOf t.opa) (symOf t.opb) (symOf t.opc))) 0

/-- GF.EXP: the operand is an index, below N (R161). -/
def execGfExp (s : State) : Host.Outcome State Fault Refusal :=
  s.finish (s.operandCheck [s.opa] s.n) fun t => t.answer (wordOf (gexp t.gf t.opa.toNat)) 0

/-- GF.LOG (R162). -/
def execGfLog (s : State) : Host.Outcome State Fault Refusal :=
  s.finish (firstFault (s.operandCheck [s.opa] s.q) (faultIf (s.opa == 0) .zero)) fun t =>
    t.answer (BitVec.ofNat 32 (glog t.gf (symOf t.opa))) 0

/-- GF.POW: the exponent is signed; a negative power of zero faults (R163). -/
def execGfPow (s : State) : Host.Outcome State Fault Refusal :=
  s.finish
    (firstFault (s.operandCheck [s.opa] s.q) (faultIf (s.opa == 0 && decide (exponentOf s.opb < 0)) .zero)) fun t =>
    t.answer (wordOf (gpow t.gf (symOf t.opa) (exponentOf t.opb))) 0

/-- GF.TRACE (R164). -/
def execGfTrace (s : State) : Host.Outcome State Fault Refusal :=
  s.finish (s.operandCheck [s.opa] s.q) fun t => t.answer (wordOf (gtrace t.gf (symOf t.opa))) 0

/-- GF.QSOLVE: no solution is an ordinary result, OPR = 0 and RESULT = -1 (R165). -/
def execGfQsolve (s : State) : Host.Outcome State Fault Refusal :=
  s.finish (s.operandCheck [s.opa] s.q) fun t =>
    match gqsolve t.gf (symOf t.opa) with
    | none => t.answer 0 minusOne
    | some y => t.answer (wordOf y) 0

end Sys2Proof.Machine
end

