-- ==== Sys2Proof/Machine/Generator.lean ====
section
/-! DEFINITION. The generator polynomial builder, BUILD_GEN (41_generator.md). -/

namespace Sys2Proof.Machine

/-! ## Root-product form -/

/-- G(x)·(x - r), ascending: cell j is G[j-1] ⊕ r·G[j] (R191). -/
def timesRoot (F : GF) (r : Sym) (g : List Sym) : List Sym :=
  List.zipWith (fun a b => a ^^^ b) (0 :: g) (g.map (gmul F r) ++ [0])

/-- The product of (x - pe^(FCR+i)) for i < NR, cells 0..NR (R191). -/
def rsGenerator (F : GF) (nr fcr : Nat) : List Sym :=
  (List.range nr).foldl (fun g i => timesRoot F (F.pe ((fcr + i : Nat) : Int)) g) [1]

/-! ## Minimal-polynomial-product form -/

/-- The index of the highest set bit of m, or -1 if m = 0 (R193). -/
def highestBit (m : Mask) : Int := if m = 0 then -1 else (m.toNat.log2 : Int)

/-- The supplied minimal polynomials MINPOLY[0..NMP-1] (R53). -/
def State.minpolys (s : State) : List Mask := (List.range s.cfgNmp.toNat).map s.mem.rdMinpoly

/-- The degree sum NP (R193). -/
def degreeSum (ms : List Mask) : Nat := (ms.map fun m => (highestBit m).toNat).sum

/-- R193's checks: NMP, then each factor's bits and degree, then the degree sum. -/
def State.minpolyOk (s : State) : Bool :=
  let ms := s.minpolys
  decide (1 ≤ s.cfgNmp.toNat ∧ s.cfgNmp.toNat ≤ Config.nrMax) &&
  ms.all (fun m => m >>> (s.cfgM.toNat + 1) == 0 && decide (1 ≤ highestBit m)) &&
  decide (degreeSum ms ≤ min Config.nrMax (s.n - 1))

/-- G·m over GF(2): H[k] is the sum of G[a]·m[b] over a + b = k (R193). -/
def timesMinpoly (g : List Sym) (m : Mask) : List Sym :=
  (List.range (g.length + (highestBit m).toNat)).map fun k =>
    (numbered 0 g).foldl
      (fun h c => if c.1 ≤ k ∧ c.2 = 1 ∧ m.getLsbD (k - c.1) then h ^^^ 1 else h) 0

/-- The product of the minimal polynomials, cells 0..NP (R193). -/
def bchGenerator (ms : List Mask) : List Sym := ms.foldl timesMinpoly [1]

/-! ## The command -/

/-- The generator of the current configuration, G[0..NP] (R190). -/
def State.generator (s : State) : List Sym :=
  if s.cfgBch then bchGenerator s.minpolys else rsGenerator s.gf s.nr s.fcr

/-- The polynomial vanishes at each of the NR target roots (R195). -/
def vanishesAtRoots (F : GF) (g : List Sym) (nr fcr : Nat) : Bool :=
  (List.range nr).all fun i => peval F g (F.pe ((fcr + i : Nat) : Int)) == 0

/-- BUILD_GEN's checks, in order (R190). -/
def State.generatorCheck (s : State) : Option ErrCode :=
  if !s.fieldOk then some .noField
  else if s.nr < 1 ∨ min Config.nrMax (s.n - 1) < s.nr then some .cfgNr
  else if s.n - 1 < s.fcr then some .cfgFcr
  else if s.cfgBch && !s.minpolyOk then some .cfgMinpoly
  else if !vanishesAtRoots s.gf s.generator s.nr s.fcr then some .genVerify
  else none

/-- GEN[0..NP], GEN_INFO, GEN_OK and RESULT (R190, R197). -/
def State.installGenerator (s : State) : State :=
  let g := s.generator
  { s.store .gen 0 g with
    genNp := BitVec.ofNat 16 (g.length - 1), genK := BitVec.ofNat 16 (s.n - (g.length - 1)), genOk := true, result := 0 }

/-- BUILD_GEN (R190): GEN_OK is cleared before any check. -/
def execBuildGen (s : State) : Host.Outcome State Fault Refusal :=
  s.invalidateGen.finish s.invalidateGen.generatorCheck State.installGenerator

end Sys2Proof.Machine
end

