-- ==== Sys2Proof/Machine/System.lean ====
section
/-! DEFINITION. The system commands (48_system.md). -/

namespace Sys2Proof.Machine

/-- NOP: the command only completes (R310). -/
def execNop (s : State) : Host.Outcome State Fault Refusal := s.finish none fun t => t

/-- SRST: every register takes its reset value, the arrays stay, and the command completes with DONE = 1 (R311). -/
def execSrst (s : State) : Host.Outcome State Fault Refusal := s.finish none State.resetRegisters

end Sys2Proof.Machine
end

