-- ==== Sys2Proof/Machine/Dispatch.lean ====
section
/-! DEFINITION. One arm per command (30_encoding.md R113). -/

namespace Sys2Proof.Machine

def exec (i : Instr) (s : State) : Host.Outcome State Fault Refusal :=
  match i with
  | .nop => Sys2Proof.Machine.execNop s
  | .srst => Sys2Proof.Machine.execSrst s
  | .buildField => Sys2Proof.Machine.execBuildField s
  | .buildGen => Sys2Proof.Machine.execBuildGen s
  | .gfAdd => Sys2Proof.Machine.execGfAdd s
  | .gfMul => Sys2Proof.Machine.execGfMul s
  | .gfDiv => Sys2Proof.Machine.execGfDiv s
  | .gfInv => Sys2Proof.Machine.execGfInv s
  | .gfFma => Sys2Proof.Machine.execGfFma s
  | .gfExp => Sys2Proof.Machine.execGfExp s
  | .gfLog => Sys2Proof.Machine.execGfLog s
  | .gfPow => Sys2Proof.Machine.execGfPow s
  | .gfTrace => Sys2Proof.Machine.execGfTrace s
  | .gfQsolve => Sys2Proof.Machine.execGfQsolve s
  | .encode => Sys2Proof.Machine.execEncode s
  | .syndromes => Sys2Proof.Machine.execSyndromes s
  | .bm => Sys2Proof.Machine.execBm s
  | .roots => Sys2Proof.Machine.execRoots s
  | .forney => Sys2Proof.Machine.execForney s
  | .apply => Sys2Proof.Machine.execApply s
  | .decode clr novfy => Sys2Proof.Machine.execDecode clr novfy s

end Sys2Proof.Machine
end

