-- ==== Sys2Proof/Machine/Port.lean ====
section
/-! DEFINITION. The host port: the address map and the access rules (20_memory.md), and the registers as the host reads
and writes them (10_state.md section 2). -/

namespace Sys2Proof.Machine

/-! ## The address map (R81) -/

/-- The registers, in the order of their offsets. -/
inductive Reg where
  | caps
  | cmd
  | status
  | ctrl
  | result
  | cfgM
  | cfgPoly
  | cfgNr
  | cfgFcr
  | cfgMode
  | cfgNmp
  | genInfo
  | neras
  | deg
  | loccnt
  | opa
  | opb
  | opc
  | opr
deriving DecidableEq, Repr

/-- What a port address selects: a register, a cell of a 16-bit array, or a MINPOLY cell. -/
inductive Target where
  | reg (r : Reg)
  | cell (w : Win) (i : Nat)
  | minpolyCell (i : Nat)
deriving DecidableEq, Repr

/-- Every register. -/
def allRegs : List Reg :=
  [.caps, .cmd, .status, .ctrl, .result, .cfgM, .cfgPoly, .cfgNr, .cfgFcr, .cfgMode, .cfgNmp, .genInfo] ++
  [.neras, .deg, .loccnt, .opa, .opb, .opc, .opr]

/-- Every array of 16-bit cells. -/
def allWins : List Win := [.gen, .syn, .lambda, .omega, .loc, .mag, .eras, .expt, .logt, .code]

/-- The byte offset of a register (R81). -/
def regAddr : Reg → Nat
  | .caps => 0x000
  | .cmd => 0x004
  | .status => 0x008
  | .ctrl => 0x00C
  | .result => 0x010
  | .cfgM => 0x014
  | .cfgPoly => 0x018
  | .cfgNr => 0x01C
  | .cfgFcr => 0x020
  | .cfgMode => 0x024
  | .cfgNmp => 0x028
  | .genInfo => 0x02C
  | .neras => 0x030
  | .deg => 0x034
  | .loccnt => 0x038
  | .opa => 0x03C
  | .opb => 0x040
  | .opc => 0x044
  | .opr => 0x048

/-- The byte address of an array's cell 0 (R81). -/
def winBase : Win → Nat
  | .gen => 0x01000
  | .syn => 0x03000
  | .lambda => 0x04000
  | .omega => 0x05000
  | .loc => 0x06000
  | .mag => 0x07000
  | .eras => 0x08000
  | .expt => 0x40000
  | .logt => 0x80000
  | .code => 0xC0000

/-- The number of cells of an array (R51 to R60, R81). -/
def winSize : Win → Nat
  | .gen => 257
  | .syn => 256
  | .lambda => 257
  | .omega => 256
  | .loc => 256
  | .mag => 256
  | .eras => 256
  | .expt => 65536
  | .logt => 65536
  | .code => 65535

/-- The byte address of MINPOLY[0] (R81). -/
def minpolyBase : Nat := 0x02000

/-- The number of MINPOLY cells (R53, R81). -/
def minpolySize : Nat := 256

/-- The cell index an address has in a window of `size` cells at `base`, if it lies in it. -/
def indexIn (base size a : Nat) : Option Nat :=
  if base ≤ a ∧ a < base + 4 * size then some ((a - base) / 4) else none

/-- What an address selects; none for an unaligned (R87) or a reserved (R90) address. -/
def targetOf (addr : Addr) : Option Target :=
  let a := addr.toNat
  if a % 4 ≠ 0 then none
  else
    match allRegs.find? (fun r => regAddr r == a) with
    | some r => some (.reg r)
    | none =>
      match indexIn minpolyBase minpolySize a with
      | some i => some (.minpolyCell i)
      | none => allWins.findSome? fun w => (indexIn (winBase w) (winSize w) a).map (Target.cell w)

/-! ## Reads (R84) -/

/-- CAPS: NRMAX [31:16] = 256, VER [15:8] = 1, MMAX [4:0] = 16 (R33). -/
def capsWord : Word := 0x01000110

/-- GEN_INFO: K [31:16] and NP [15:0], 0 while GEN_OK = 0 (R44). -/
def State.genInfoWord (s : State) : Word := if s.genOk then s.genK ++ s.genNp else 0

/-- A host read of a register (R84); CMD reads 0 (R34). -/
def State.readReg (s : State) : Reg → Word
  | .caps => capsWord
  | .cmd => 0
  | .status => s.statusWord
  | .ctrl => (BitVec.ofBool s.ie).setWidth 32
  | .result => s.result
  | .cfgM => s.cfgM.setWidth 32
  | .cfgPoly => s.cfgPoly.setWidth 32
  | .cfgNr => s.cfgNr.setWidth 32
  | .cfgFcr => s.cfgFcr.setWidth 32
  | .cfgMode => (BitVec.ofBool s.cfgBch).setWidth 32
  | .cfgNmp => s.cfgNmp.setWidth 32
  | .genInfo => s.genInfoWord
  | .neras => s.neras.setWidth 32
  | .deg => s.deg.setWidth 32
  | .loccnt => s.loccnt.setWidth 32
  | .opa => s.opa
  | .opb => s.opb
  | .opc => s.opc
  | .opr => s.opr

/-- A host read of what an address selects (R84). -/
def State.readTarget (s : State) : Target → Word
  | .reg r => s.readReg r
  | .cell w i => (s.rd w i).setWidth 32
  | .minpolyCell i => (s.mem.rdMinpoly i).setWidth 32

/-! ## Writes (R34, R35, R50, R85, R86, R90); none is a refused write -/

/-- The written value when every bit above the low `w` is 0 (R85, R86). -/
def fieldOf (w : Nat) (v : Word) : Option (BitVec w) := if v >>> w = 0 then some (v.setWidth w) else none

/-- The engine accepts a command word: BUSY(c), DONE <- 0 (R34). -/
def State.accept (s : State) (c : Word) : State := { s with engine := .busy c, done := false }

/-- A host write of a register, the engine IDLE (R34 to R50, R86, R90). -/
def State.writeReg (s : State) (r : Reg) (v : Word) : Option State :=
  match r with
  | .cmd => some (s.accept v)
  | .status => some (s.writeStatus v)
  | .ctrl => (fieldOf 1 v).map fun x => { s with ie := x.getLsbD 0 }
  | .cfgM => (fieldOf 5 v).map fun x => { s with cfgM := x }.invalidateField
  | .cfgPoly => (fieldOf 17 v).map fun x => { s with cfgPoly := x }.invalidateField
  | .cfgNr => (fieldOf 16 v).map fun x => { s with cfgNr := x }.invalidateGen
  | .cfgFcr => (fieldOf 16 v).map fun x => { s with cfgFcr := x }.invalidateGen
  | .cfgMode => (fieldOf 1 v).map fun x => { s with cfgBch := x.getLsbD 0 }.invalidateGen
  | .cfgNmp => (fieldOf 16 v).map fun x => { s with cfgNmp := x }.invalidateGen
  | .neras => (fieldOf 16 v).map fun x => { s with neras := x }
  | .deg => (fieldOf 16 v).map fun x => { s with deg := x }
  | .loccnt => (fieldOf 16 v).map fun x => { s with loccnt := x }
  | .opa => some { s with opa := v }
  | .opb => some { s with opb := v }
  | .opc => some { s with opc := v }
  | .caps | .result | .genInfo | .opr => none

/-- The arrays the host may write (R81, R90). -/
def winWritable : Win → Bool
  | .code | .syn | .lambda | .loc | .mag | .eras => true
  | .gen | .omega | .expt | .logt => false

/-- A host write of what an address selects, the engine IDLE; a MINPOLY write also clears GEN_OK (R50, R85). -/
def State.writeTarget (s : State) (t : Target) (v : Word) : Option State :=
  match t with
  | .reg r => s.writeReg r v
  | .cell w i => if winWritable w then (fieldOf 16 v).map fun x => s.store w i [x] else none
  | .minpolyCell i =>
    (fieldOf 17 v).map fun x => { s with mem := s.mem.writeMinpoly i x }.invalidateGen

/-! ## One access -/

/-- The port's answer, as the block drives it (R80). -/
def State.respond (s : State) (r : Response) : State := { s with response := some r }

/-- A host access the block does not refuse for reset or BUSY (R84 to R87, R90). -/
def State.idleAccess (s : State) (x : Access) : State :=
  match x with
  | .read a =>
    match targetOf a with
    | some t => s.respond (.okayData (s.readTarget t))
    | none => s.respond .error
  | .write a v =>
    match (targetOf a).bind fun t => s.writeTarget t v with
    | some t => t.respond .okay
    | none => s.respond .error
  | .narrow _ _ => s.respond .error

/-- One host access. While reset is asserted every access is refused (R350); while BUSY only a STATUS read is accepted
(R88); a refused access changes nothing but the answer on the port (R89). -/
def State.hostAccess (s : State) (x : Access) : State :=
  if s.inReset then s.respond .error
  else if s.isBusy then
    if x = .read (BitVec.ofNat 20 (regAddr .status)) then s.respond (.okayData s.statusWord) else s.respond .error
  else s.idleAccess x

/-- The read data on the port: 0 with an ERROR response (R89). After an accepted write the spec gives none: 0 is the model's
choice (DESIGN CHOICE, log entry 7). -/
def Response.data : Response → Word
  | .okayData v => v
  | .okay | .error => 0

end Sys2Proof.Machine
end

