-- ==== Sys2Proof/Machine/Engine.lean ====
section
/-! DEFINITION. The engine's turn: the completion step of the accepted command word (10_state.md R31, R32, 30_encoding.md
R112). -/

namespace Sys2Proof.Machine

/-- The completion step of command word c: the decoded command runs; a word that is no command raises E_ILLEGAL
(R112, R115). -/
def runWord (c : Word) (s : State) : Host.Outcome State Fault Refusal :=
  match decode c with
  | .ok i => exec i s
  | .error _ => .next (s.raiseFault .illegal)

/-- The engine's turn: an IDLE engine waits (R337). -/
def engineTurn (s : State) : Host.Outcome State Fault Refusal :=
  match s.engine with
  | .idle => .next s
  | .busy c => runWord c s

end Sys2Proof.Machine
end

