-- ==== Sys2Proof/Machine/Step.lean ====
section
/-! DEFINITION. One step of the machine: the next turn of the agenda, the engine's when none is left (10_state.md R32,
log entry 1). -/

namespace Sys2Proof.Machine

/-- One step. -/
def step (s : State) : Host.Outcome State Fault Refusal :=
  match s.agenda with
  | [] => engineTurn s
  | .engine :: rest => engineTurn { s with agenda := rest }
  | .host x :: rest => .next (State.hostAccess { s with agenda := rest } x)
  | .resetInput asserted :: rest => .next (State.driveReset { s with agenda := rest } asserted)

/-- The state in which the engine has accepted the command word whose low `nbits` bits are w's, the reset input
released, and the next turn is the engine's: the very next step completes that command (log entry 9). -/
def State.withFetchWord (s : State) (nbits w : Nat) : State :=
  { s.accept (BitVec.ofNat 32 (w % 2 ^ nbits)) with inReset := false, agenda := .engine :: s.agenda }

end Sys2Proof.Machine
end

