-- ==== Sys2Proof/Machine/HostProgram.lean ====
section
/-! DEFINITION. Host programs: the syntax and the pseudo-instructions of 30_encoding.md section 4 (R116, R117), as
turns for the agenda. Each command is followed by the engine's turn and a STATUS read, WAIT's last (R116). -/

namespace Sys2Proof.Machine

/-- WR to a register (R116). -/
def wrReg (r : Reg) (v : Word) : Turn := .host (.write (BitVec.ofNat 20 (regAddr r)) v)

/-- WR to cell `i` of a 16-bit array (R116). -/
def wrCell (w : Win) (i : Nat) (v : Word) : Turn := .host (.write (BitVec.ofNat 20 (winBase w + 4 * i)) v)

/-- WR to MINPOLY[i] (R116). -/
def wrMinpoly (i : Nat) (v : Word) : Turn := .host (.write (BitVec.ofNat 20 (minpolyBase + 4 * i)) v)

/-- RD of a register (R116). -/
def rdReg (r : Reg) : Turn := .host (.read (BitVec.ofNat 20 (regAddr r)))

/-- RD of cell `i` of a 16-bit array (R116). -/
def rdCell (w : Win) (i : Nat) : Turn := .host (.read (BitVec.ofNat 20 (winBase w + 4 * i)))

/-- CMD op (R116). -/
def cmd (i : Instr) : Turn := wrReg .cmd (encode i)

/-- WAIT, the engine completing after `polls` STATUS reads that still found it BUSY (R116, R366). -/
def wait (polls : Nat) : List Turn := List.replicate polls (rdReg .status) ++ [.engine, rdReg .status]

/-- ISSUE op (R117), completing before the first poll. -/
def issue (i : Instr) : List Turn := cmd i :: wait 0

/-- WR of consecutive cells. -/
def wrCells (w : Win) (vs : List Word) : List Turn := (numbered 0 vs).map fun c => wrCell w c.1 c.2

/-- CONSTRUCT M, POLY, NR, FCR (R117). -/
def construct (m poly nr fcr : Word) : List Turn :=
  [wrReg .cfgM m, wrReg .cfgPoly poly] ++ issue .buildField ++
  [wrReg .cfgMode 0, wrReg .cfgNr nr, wrReg .cfgFcr fcr] ++ issue .buildGen

/-- CONSTRUCT_BCH M, POLY, NR, FCR, m_0..m_(n-1) (R117). -/
def constructBch (m poly nr fcr : Word) (ms : List Word) : List Turn :=
  [wrReg .cfgM m, wrReg .cfgPoly poly] ++ issue .buildField ++
  [wrReg .cfgMode 1, wrReg .cfgNr nr, wrReg .cfgFcr fcr, wrReg .cfgNmp (BitVec.ofNat 32 ms.length)] ++
  (numbered 0 ms).map (fun c => wrMinpoly c.1 c.2) ++ issue .buildGen

/-- ENCODE_INPLACE: the message, then ENCODE (R117). -/
def encodeInplace (data : List Word) : List Turn := wrCells .code data ++ issue .encode

/-- ENCODE_SEPARATE: the message, ENCODE, then the reads of CODE[K..K+NP-1] (R117, R216). -/
def encodeSeparate (data : List Word) (np : Nat) : List Turn :=
  encodeInplace data ++ (List.range np).map fun j => rdCell .code (data.length + j)

/-- DECODE_CALL: the word, the erasures, their count, DECODE, then RESULT (R117). -/
def decodeCall (clr novfy : Bool) (word eras : List Word) : List Turn :=
  wrCells .code word ++ wrCells .eras eras ++ [wrReg .neras (BitVec.ofNat 32 eras.length)] ++
  issue (.decode clr novfy) ++ [rdReg .result]

/-- SYNDROMES_CALL: the word, SYNDROMES, RESULT, then SYN[0..NR-1] (R117). -/
def syndromesCall (word : List Word) (nr : Nat) : List Turn :=
  wrCells .code word ++ issue .syndromes ++ [rdReg .result] ++ (List.range nr).map (rdCell .syn)

/-- GF.SQR a: GF.MUL of a by itself (R117). -/
def gfSqr (a : Word) : List Turn := [wrReg .opa a, wrReg .opb a] ++ issue .gfMul

/-- GF.SUB: identical to GF.ADD, its operands already in OPA and OPB (R117). -/
def gfSub : List Turn := issue .gfAdd

end Sys2Proof.Machine
end

