-- ==== Sys2Proof/Safety.lean ====
section
/-! DEFINITION. The terms claims use: what it means that the flags tell the truth (10_state.md R62), that STATUS is
legal, that the arrays stay in their windows, and which commands write what (30_encoding.md R113). -/

namespace Sys2Proof.Machine

/-- LOGT[v] as an index. -/
def State.logOf (s : State) (v : Sym) : Nat := (s.rd .logt v.toNat).toNat

/-- next^i(1), the i-th power of the primitive element (R140, R142). -/
def State.power (s : State) (i : Nat) : Sym := (nextPower s.cfgM.toNat s.cfgPoly)^[i] 1

/-- A field BUILD_FIELD accepts: M in range, POLY of degree M, and powers that first return to 1 at step N (R141). -/
structure State.FieldConfigOk (s : State) : Prop where
  m_range : 2 ≤ s.cfgM.toNat ∧ s.cfgM.toNat ≤ 16
  degree : s.cfgPoly.getLsbD s.cfgM.toNat = true ∧ ∀ b, s.cfgM.toNat < b → s.cfgPoly.getLsbD b = false
  first_return : ∀ i, 0 < i → i < s.n → s.power i ≠ 1
  returns : s.power s.n = 1

/-- EXPT[0..N] and LOGT[0..N] are the tables of R142 for the current CFG_M and CFG_POLY. -/
structure State.TablesBuilt (s : State) : Prop where
  config : s.FieldConfigOk
  exp : ∀ i, i < s.n → s.rd .expt i = s.power i
  log : ∀ v : Sym, v ≠ 0 → v.toNat ≤ s.n → s.logOf v < s.n ∧ s.rd .expt (s.logOf v) = v
  exp_marker : s.rd .expt s.n = 0
  log_marker : s.logOf 0 = s.n

/-- GEN[0..NP] is the generator of the current configuration, GEN_INFO holds its NP and K, and it vanishes at the NR
target roots (R62, R190, R195). -/
structure State.GeneratorBuilt (s : State) : Prop where
  nr_range : 1 ≤ s.nr ∧ s.nr ≤ min 256 (s.n - 1)
  fcr_range : s.fcr ≤ s.n - 1
  minpoly_ok : s.cfgBch = true → s.minpolyOk = true
  length : s.generator.length = s.np + 1
  gen : ∀ j, j ≤ s.np → s.rd .gen j = s.generator.getD j 0
  np_range : 1 ≤ s.np ∧ s.np ≤ min 256 (s.n - 1)
  k_eq : s.k = s.n - s.np
  monic : s.rd .gen s.np = 1
  roots : ∀ i, i < s.nr → peval s.gf (s.rdList .gen (s.np + 1)) (s.gf.pe ((s.fcr + i : Nat) : Int)) = 0

/-- The flags tell the truth (R62). -/
structure State.FlagsTruthful (s : State) : Prop where
  field : s.fieldOk = true → s.TablesBuilt
  gen : s.genOk = true → s.fieldOk = true ∧ s.GeneratorBuilt

/-- STATUS is legal: ERRCODE is a code of R321 and 0 exactly when ERR = 0 (R35, U13); BUSY excludes DONE (R34); GEN_OK
implies FIELD_OK (R62); and while reset stays asserted the registers hold their reset values, the model's choice (log
entry 6). -/
structure State.StatusLegal (s : State) : Prop where
  errcode_le : s.errcode.toNat ≤ 0x0E
  errcode_zero : s.errcode = 0 ↔ s.err = false
  busy_not_done : s.isBusy = true → s.done = false
  gen_field : s.genOk = true → s.fieldOk = true
  in_reset : s.inReset = true → s.resetRegisters = s

/-- Every listed cell lies in its array's window (R81). -/
def Memory.InWindows (m : Memory) : Prop :=
  (∀ w, ∀ c ∈ m.cells w, c.1 < winSize w) ∧ ∀ c ∈ m.minpoly, c.1 < minpolySize

/-- The arrays a command may write (R113's "writes" column). -/
def writesWin : Instr → Win → Bool
  | .buildField, w => w == .expt || w == .logt
  | .buildGen, w => w == .gen
  | .encode, w => w == .code
  | .syndromes, w => w == .syn
  | .bm, w => w == .lambda
  | .roots, w => w == .loc
  | .forney, w => w == .omega || w == .mag
  | .apply, w => w == .code
  | .decode _ _, w => w == .code || w == .syn || w == .lambda || w == .loc || w == .omega || w == .mag
  | .nop, _ | .srst, _ | .gfAdd, _ | .gfMul, _ | .gfDiv, _ | .gfInv, _ | .gfFma, _ | .gfExp, _ | .gfLog, _ | .gfPow, _
  | .gfTrace, _ | .gfQsolve, _ => false

/-- The field-arithmetic commands (R155). -/
def isFieldCommand : Instr → Bool
  | .gfAdd | .gfMul | .gfDiv | .gfInv | .gfFma | .gfExp | .gfLog | .gfPow | .gfTrace | .gfQsolve => true
  | .nop | .srst | .buildField | .buildGen | .encode | .syndromes | .bm | .roots | .forney | .apply
  | .decode _ _ => false

/-- The pipeline commands (R200). -/
def isPipelineCommand : Instr → Bool
  | .encode | .syndromes | .bm | .roots | .forney | .apply | .decode _ _ => true
  | .nop | .srst | .buildField | .buildGen | .gfAdd | .gfMul | .gfDiv | .gfInv | .gfFma | .gfExp | .gfLog | .gfPow
  | .gfTrace | .gfQsolve => false

/-- The value operands of a field-arithmetic command, in checking order (R155). -/
def valueOperands (s : State) : Instr → List Word
  | .gfAdd | .gfMul | .gfDiv => [s.opa, s.opb]
  | .gfFma => [s.opa, s.opb, s.opc]
  | .gfInv | .gfLog | .gfPow | .gfTrace | .gfQsolve => [s.opa]
  | .gfExp | .nop | .srst | .buildField | .buildGen | .encode | .syndromes | .bm | .roots | .forney | .apply
  | .decode _ _ => []

/-- A codeword symbol in range: below Q in RS mode, 0 or 1 in BCH mode (R201). -/
def State.InRange (s : State) (v : Sym) : Prop := if s.cfgBch = true then v.toNat ≤ 1 else v.toNat < s.q

/-- The state after a command that faulted with this code: STATUS only (R322). -/
def State.faulted (s : State) (code : BitVec 8) : State :=
  { s with err := true, errcode := code, engine := .idle, done := true }

/-- The arrays of `t` hold what those of `s` held, but for the cells `writes` names. -/
def State.SameCells (s t : State) (writes : Win → Nat → Prop) : Prop :=
  (∀ w i, ¬ writes w i → t.rd w i = s.rd w i) ∧ ∀ i, t.mem.rdMinpoly i = s.mem.rdMinpoly i

/-- The sum (XOR) of f 0, …, f (n-1). -/
def xorSum (n : Nat) (f : Nat → Sym) : Sym := (List.range n).foldl (fun t i => t ^^^ f i) 0

/-- The value at x of the polynomial whose coefficient of x^j is `f j`, j < n (R153). -/
def evalAt (F : GF) (n : Nat) (f : Nat → Sym) (x : Sym) : Sym := xorSum n fun j => gmul F (f j) (gpow F x (j : Int))

/-- The minimal polynomial MINPOLY[k] evaluated at x in the field (R193, R196). -/
def State.minpolyAt (s : State) (k : Nat) (x : Sym) : Sym :=
  evalAt s.gf 17 (fun b => if (s.mem.rdMinpoly k).getLsbD b then 1 else 0) x

/-- The target root pe^(FCR+i) (R190). -/
def State.targetRoot (s : State) (i : Nat) : Sym := s.gf.pe ((s.fcr + i : Nat) : Int)

/-- The code is ready for a pipeline command: both flags set and telling the truth (R62, R324). -/
structure State.CodeReady (s : State) : Prop where
  field_ok : s.fieldOk = true
  gen_ok : s.genOk = true
  truthful : s.FlagsTruthful

end Sys2Proof.Machine
end

