-- ==== Sys2Proof/Certificates/Slice0/Obligations.lean ====
section
/-! DEFINITION. The statements for the provers, each from the rules of spec/ its docstring names. -/

open Sys2Proof Sys2Proof.Machine

/-! ## Encoding and the step -/

/-- R113: the word of every row decodes to its command, DECODE's with its flags. -/
def Obligations.ListedWordsDecode : Prop :=
  decode 0x00000000 = .ok .nop ∧ decode 0x00000001 = .ok .srst ∧ decode 0x00000010 = .ok .buildField ∧
  decode 0x00000011 = .ok .buildGen ∧ decode 0x00000020 = .ok .gfAdd ∧ decode 0x00000021 = .ok .gfMul ∧
  decode 0x00000022 = .ok .gfDiv ∧ decode 0x00000023 = .ok .gfInv ∧ decode 0x00000024 = .ok .gfFma ∧
  decode 0x00000025 = .ok .gfExp ∧ decode 0x00000026 = .ok .gfLog ∧ decode 0x00000027 = .ok .gfPow ∧
  decode 0x00000028 = .ok .gfTrace ∧ decode 0x00000029 = .ok .gfQsolve ∧ decode 0x00000030 = .ok .encode ∧
  decode 0x00000031 = .ok .syndromes ∧ decode 0x00000032 = .ok .bm ∧ decode 0x00000033 = .ok .roots ∧
  decode 0x00000034 = .ok .forney ∧ decode 0x00000035 = .ok .apply ∧
  decode 0x00000036 = .ok (.decode false false) ∧ decode 0x00000136 = .ok (.decode true false) ∧
  decode 0x00000236 = .ok (.decode false true) ∧ decode 0x00000336 = .ok (.decode true true)

/-- R111, R113: decoding a command's word gives the command back. -/
def Obligations.EncodedCommandDecodes : Prop := ∀ i : Instr, decode (encode i) = .ok i

/-- R112, R115: a word that decodes to a command is that command's word; no other word does. -/
def Obligations.DecodedWordIsItsEncoding : Prop := ∀ (c : Word) (i : Instr), decode c = .ok i → c = encode i

/-- R115: every word with an unlisted opcode or a nonzero reserved bit raises E_ILLEGAL with no other effect. -/
def Obligations.IllegalWordFaults : Prop :=
  ∀ (s : State) (c : Word), s.engine = .busy c → s.agenda = [] →
    ((0x02 ≤ c.toNat % 256 ∧ c.toNat % 256 ≤ 0x0F) ∨ (0x12 ≤ c.toNat % 256 ∧ c.toNat % 256 ≤ 0x1F) ∨
      (0x2A ≤ c.toNat % 256 ∧ c.toNat % 256 ≤ 0x2F) ∨ 0x37 ≤ c.toNat % 256 ∨
      (∃ b, 10 ≤ b ∧ c.getLsbD b = true) ∨ (c.toNat % 256 ≠ 0x36 ∧ ∃ b, 8 ≤ b ∧ c.getLsbD b = true)) →
    step s = .next (s.faulted 0x01)

/-- R32, R112, R115, R337: a step is the next turn of the agenda (log entry 1, the model's choice). A host turn is the
access, a reset turn drives the reset input, and the engine's turn, also taken when no turn is left, waits while IDLE,
executes the accepted word that decodes to a command, and faults with E_ILLEGAL on any other word. -/
def Obligations.StepRunsDecodedCommand : Prop :=
  ∀ (s : State) (rest : List Turn),
    (∀ x, s.agenda = .host x :: rest → step s = .next (State.hostAccess { s with agenda := rest } x)) ∧
    (∀ b, s.agenda = .resetInput b :: rest → step s = .next (State.driveReset { s with agenda := rest } b)) ∧
    ∀ u : State, (s.agenda = [] ∧ u = s) ∨ (s.agenda = .engine :: rest ∧ u = { s with agenda := rest }) →
      (s.engine = .idle → step s = .next u) ∧
      (∀ c i, s.engine = .busy c → decode c = .ok i → step s = exec i u) ∧
      (∀ c e, s.engine = .busy c → decode c = .error e → step s = .next (u.faulted 0x01))

/-- Log entry 2, the model's deduction from R14 and R327: a fault, a failure and a refused access are all next states,
and nothing else stops the machine, so every step has a next state. -/
def Obligations.EveryStepHasANextState : Prop := ∀ s : State, ∃ t, step s = .next t

/-! ## System commands -/

/-- R310: NOP only completes, and a word with opcode 0 and any other bit set is not a NOP but raises E_ILLEGAL. -/
def Obligations.NopOnlyCompletes : Prop :=
  ∀ s : State, exec .nop s = .next { s with engine := .idle, done := true } ∧
    ∀ c : Word, c.toNat % 256 = 0 → c ≠ 0 → runWord c s = .next (s.faulted 0x01)

/-- R311: SRST gives every register its reset value and sets DONE; the arrays stay, STATUS reads 2, irq is low, and
BUILD_FIELD then faults with E_CFG_M. -/
def Obligations.SrstResetsTheRegisters : Prop :=
  ∀ s : State, ∃ t, exec .srst s = .next t ∧
    t = { engine := .idle, done := true, err := false, errcode := 0, fieldOk := false, genOk := false, ie := false,
          result := 0, cfgM := 0, cfgPoly := 0, cfgNr := 0, cfgFcr := 0, cfgBch := false, cfgNmp := 0, genNp := 0,
          genK := 0, neras := 0, deg := 0, loccnt := 0, opa := 0, opb := 0, opc := 0, opr := 0, mem := s.mem,
          inReset := s.inReset, response := s.response, agenda := s.agenda, draws := s.draws } ∧
    t.statusWord = 0x00000002 ∧ t.irq = false ∧ exec .buildField t = .next (t.faulted 0x02)

/-! ## The field -/

/-- R142: after a successful BUILD_FIELD, EXPT[i] = next^i(1) for i < N, which are the values 1..N each once, LOGT is
its inverse, and EXPT[N] = 0, LOGT[0] = N are the zero markers; FIELD_OK = 1, GEN_OK = 0, RESULT = 0, and no other
cell or register changes. -/
def Obligations.BuildFieldBuildsTheTables : Prop :=
  ∀ s : State, s.FieldConfigOk → ∃ t, exec .buildField s = .next t ∧
    (∀ i, i < s.n → t.rd .expt i = s.power i ∧ t.rd .expt i ≠ 0 ∧ (t.rd .expt i).toNat ≤ s.n) ∧
    (∀ v : Sym, v ≠ 0 → v.toNat ≤ s.n →
      t.logOf v < s.n ∧ t.rd .expt (t.logOf v) = v ∧ ∀ i, i < s.n → t.rd .expt i = v → i = t.logOf v) ∧
    t.rd .expt s.n = 0 ∧ t.logOf 0 = s.n ∧
    s.SameCells t (fun w i => (w = .expt ∨ w = .logt) ∧ i ≤ s.n) ∧
    t = { s with fieldOk := true, genOk := false, result := 0, engine := .idle, done := true, mem := t.mem }

/-- R141, R321: BUILD_FIELD's faults, in order; each leaves both flags 0, and only E_NOT_PRIMITIVE touches cells,
EXPT[0..N] and LOGT[0..N], whose values stay free. -/
def Obligations.BuildFieldFaults : Prop :=
  ∀ s : State,
    ((s.cfgM.toNat < 2 ∨ 16 < s.cfgM.toNat) →
      exec .buildField s = .next { s.faulted 0x02 with fieldOk := false, genOk := false }) ∧
    (2 ≤ s.cfgM.toNat → s.cfgM.toNat ≤ 16 →
      (s.cfgPoly.getLsbD s.cfgM.toNat = false ∨ ∃ b, s.cfgM.toNat < b ∧ s.cfgPoly.getLsbD b = true) →
      exec .buildField s = .next { s.faulted 0x03 with fieldOk := false, genOk := false }) ∧
    (2 ≤ s.cfgM.toNat → s.cfgM.toNat ≤ 16 → s.cfgPoly.getLsbD s.cfgM.toNat = true →
      (∀ b, s.cfgM.toNat < b → s.cfgPoly.getLsbD b = false) →
      ((∃ i, 0 < i ∧ i < s.n ∧ s.power i = 1) ∨ s.power s.n ≠ 1) →
      ∃ t, exec .buildField s = .next t ∧ s.SameCells t (fun w i => (w = .expt ∨ w = .logt) ∧ i ≤ s.n) ∧
        t = { s.faulted 0x04 with fieldOk := false, genOk := false, mem := t.mem, draws := t.draws })

/-- R155: the checks of the field-arithmetic commands, FIELD_OK before the operands, a value operand below Q and
GF.EXP's index below N. A faulting command changes only STATUS; where the checks pass, GEN_OK and GF.POW's exponent
whatever they are, the command answers in OPR and RESULT, 0 or GF.QSOLVE's -1, unless it then faults with E_ZERO. -/
def Obligations.FieldCommandsCheckTheirOperands : Prop :=
  ∀ (s : State) (i : Instr), isFieldCommand i = true →
    (s.fieldOk = false → exec i s = .next (s.faulted 0x09)) ∧
    (s.fieldOk = true → (∃ x ∈ valueOperands s i, s.q ≤ x.toNat) → exec i s = .next (s.faulted 0x0B)) ∧
    (s.fieldOk = true → i = .gfExp → s.n ≤ s.opa.toNat → exec i s = .next (s.faulted 0x0B)) ∧
    (s.fieldOk = true → (∀ x ∈ valueOperands s i, x.toNat < s.q) → (i = .gfExp → s.opa.toNat < s.n) →
      exec i s = .next (s.faulted 0x0C) ∨
      ∃ opr result, exec i s = .next { s with opr := opr, result := result, engine := .idle, done := true } ∧
        (result = 0 ∨ (i = .gfQsolve ∧ result = 0xFFFFFFFF)))

/-- R143, R144, R147, R156, R157, R160: what GF.ADD, GF.MUL and GF.FMA write to OPR. -/
def Obligations.AddMulFmaAnswer : Prop :=
  ∀ s : State, s.fieldOk = true → s.opa.toNat < s.q → s.opb.toNat < s.q →
    let a : Sym := s.opa.setWidth 16
    let b : Sym := s.opb.setWidth 16
    let c : Sym := s.opc.setWidth 16
    let prod : Sym := if a = 0 ∨ b = 0 then 0 else s.rd .expt ((s.logOf a + s.logOf b) % s.n)
    exec .gfAdd s = .next { s with opr := (a ^^^ b).setWidth 32, result := 0, engine := .idle, done := true } ∧
    exec .gfMul s = .next { s with opr := prod.setWidth 32, result := 0, engine := .idle, done := true } ∧
    (s.opc.toNat < s.q →
      exec .gfFma s = .next { s with opr := (if a = 0 ∨ b = 0 then c else prod ^^^ c).setWidth 32, result := 0,
                                     engine := .idle, done := true })

/-- R145, R146, R158, R159: what GF.DIV and GF.INV write to OPR, and E_ZERO, after the range check, for a zero
divisor. -/
def Obligations.DivInvAnswer : Prop :=
  ∀ s : State, s.fieldOk = true → s.opa.toNat < s.q →
    let a : Sym := s.opa.setWidth 16
    let b : Sym := s.opb.setWidth 16
    (s.opb.toNat < s.q → s.opb ≠ 0 →
      exec .gfDiv s = .next { s with
        opr := (if a = 0 then 0 else s.rd .expt (((s.logOf a : Int) - (s.logOf b : Int)) % (s.n : Int)).toNat).setWidth 32,
        result := 0, engine := .idle, done := true }) ∧
    (s.opb = 0 → exec .gfDiv s = .next (s.faulted 0x0C)) ∧
    (s.opa ≠ 0 →
      exec .gfInv s = .next { s with
        opr := (s.rd .expt (((s.n : Int) - (s.logOf a : Int)) % (s.n : Int)).toNat).setWidth 32,
        result := 0, engine := .idle, done := true }) ∧
    (s.opa = 0 → exec .gfInv s = .next (s.faulted 0x0C))

/-- R148, R161, R162: GF.EXP reads EXPT at an index below N, GF.LOG reads LOGT at a nonzero value, and the log of 0
faults with E_ZERO. -/
def Obligations.ExpLogAnswer : Prop :=
  ∀ s : State, s.fieldOk = true →
    (s.opa.toNat < s.n →
      exec .gfExp s = .next { s with
        opr := (s.rd .expt s.opa.toNat).setWidth 32, result := 0, engine := .idle, done := true }) ∧
    (s.opa ≠ 0 → s.opa.toNat < s.q →
      exec .gfLog s = .next { s with
        opr := (s.rd .logt (s.opa.setWidth 16 : Sym).toNat).setWidth 32, result := 0, engine := .idle, done := true }) ∧
    (s.opa = 0 → exec .gfLog s = .next (s.faulted 0x0C))

/-- R150, R163: GF.POW takes OPB as a two's-complement exponent; 0 to a negative power faults with E_ZERO, 0^0 = 1 and
0^e = 0 for e > 0, and any other power is EXPT[(LOGT[a]·e) mod N]. -/
def Obligations.PowAnswers : Prop :=
  ∀ s : State, s.fieldOk = true → s.FlagsTruthful → s.opa.toNat < s.q →
    (s.opa = 0 → s.opb.toInt < 0 → exec .gfPow s = .next (s.faulted 0x0C)) ∧
    (s.opa = 0 → s.opb = 0 →
      exec .gfPow s = .next { s with opr := 1, result := 0, engine := .idle, done := true }) ∧
    (s.opa = 0 → 0 < s.opb.toInt →
      exec .gfPow s = .next { s with opr := 0, result := 0, engine := .idle, done := true }) ∧
    (s.opa ≠ 0 →
      exec .gfPow s = .next { s with
        opr := (s.rd .expt (((s.logOf (s.opa.setWidth 16) : Int) * s.opb.toInt) % (s.n : Int)).toNat).setWidth 32,
        result := 0, engine := .idle, done := true })

/-- R151, R164: GF.TRACE writes a ⊕ a^2 ⊕ a^4 ⊕ … ⊕ a^(2^(M-1)), the M repeated squares, which is 0 or 1; the trace of 0
is 0 and that of 1 is M mod 2. -/
def Obligations.TraceAnswersABit : Prop :=
  ∀ s : State, s.fieldOk = true → s.FlagsTruthful → s.opa.toNat < s.q →
    ∃ t : Sym,
      exec .gfTrace s = .next { s with opr := t.setWidth 32, result := 0, engine := .idle, done := true } ∧
      t = xorSum s.cfgM.toNat (fun k => (fun x => gmul s.gf x x)^[k] (s.opa.setWidth 16)) ∧ (t = 0 ∨ t = 1) ∧
      (s.opa = 0 → t = 0) ∧ (s.opa = 1 → t = BitVec.ofNat 16 (s.cfgM.toNat % 2))

/-- R152, R165: GF.QSOLVE answers the solution y of y² ⊕ y = c with bit 0 clear and RESULT = 0; when there is no
solution it answers OPR = 0 and RESULT = -1, which is no fault. -/
def Obligations.QsolveAnswersTheSolution : Prop :=
  ∀ s : State, s.fieldOk = true → s.FlagsTruthful → s.opa.toNat < s.q →
    (∀ y : Sym, y.toNat < s.q → y.getLsbD 0 = false → gmul s.gf y y ^^^ y = s.opa.setWidth 16 →
      exec .gfQsolve s = .next { s with opr := y.setWidth 32, result := 0, engine := .idle, done := true }) ∧
    ((∀ y : Sym, y.toNat < s.q → gmul s.gf y y ^^^ y ≠ s.opa.setWidth 16) →
      exec .gfQsolve s = .next { s with opr := 0, result := 0xFFFFFFFF, engine := .idle, done := true })

/-- R152 (K3): y² ⊕ y = c has a solution exactly when the trace of c, as GF.TRACE answers it, is 0, and GF.QSOLVE
answers -1 exactly when that trace is 1. -/
def Obligations.QsolveFailsExactlyOnTraceOne : Prop :=
  ∀ s t u : State, s.fieldOk = true → s.FlagsTruthful → s.opa.toNat < s.q →
    exec .gfTrace s = .next t → exec .gfQsolve s = .next u →
    ((∃ y : Sym, y.toNat < s.q ∧ gmul s.gf y y ^^^ y = s.opa.setWidth 16) ↔ t.opr = 0) ∧
    (u.result = 0xFFFFFFFF ↔ t.opr = 1)

/-- R144 (K1): GF.MUL's answer is the product of the operands as polynomials over GF(2), reduced modulo POLY. -/
def Obligations.MulIsThePolynomialProduct : Prop :=
  ∀ s : State, s.fieldOk = true → s.FlagsTruthful → s.opa.toNat < s.q → s.opb.toNat < s.q →
    let poly : Nat → Polynomial (ZMod 2) := fun v => ∑ i ∈ Finset.range 32, if v.testBit i then Polynomial.X ^ i else 0
    ∃ t, exec .gfMul s = .next t ∧ t.opr.toNat < s.q ∧
      poly t.opr.toNat = (poly s.opa.toNat * poly s.opb.toNat) %ₘ poly s.cfgPoly.toNat

/-! ## The generator -/

/-- R190, R191, R192, R196, R197: in RS mode BUILD_GEN succeeds for every accepted NR and FCR. GEN is the product of the
(x - pe^(FCR+i)), monic of degree NP = NR, GEN_OK = 1, RESULT = 0, and nothing else changes. -/
def Obligations.RsGeneratorIsBuilt : Prop :=
  ∀ s : State, s.fieldOk = true → s.FlagsTruthful → s.cfgBch = false → 1 ≤ s.nr → s.nr ≤ 256 → s.nr ≤ s.n - 1 →
    s.fcr ≤ s.n - 1 → ∃ t, exec .buildGen s = .next t ∧
      (∀ x : Sym, x.toNat < s.q → evalAt s.gf (s.nr + 1) (t.rd .gen) x =
        (List.range s.nr).foldl (fun p i => gmul s.gf p (x ^^^ s.targetRoot i)) 1) ∧
      t.rd .gen s.nr = 1 ∧ t.rd .gen 0 ≠ 0 ∧ (∀ j, j ≤ s.nr → (t.rd .gen j).toNat < s.q) ∧
      s.SameCells t (fun w j => w = .gen ∧ j ≤ s.nr) ∧
      t = { s with genNp := s.cfgNr, genK := BitVec.ofNat 16 (s.n - s.nr), genOk := true, result := 0,
                   engine := .idle, done := true, mem := t.mem }

/-- R193, R196, R197, R198: in BCH mode, when the minimal polynomials pass their checks and every target root is a root
of one of them, BUILD_GEN succeeds. GEN, of 0s and 1s, is their product over GF(2), and NP the sum of their degrees. -/
def Obligations.BchGeneratorIsBuilt : Prop :=
  ∀ s : State, s.fieldOk = true → s.FlagsTruthful → s.cfgBch = true → 1 ≤ s.nr → s.nr ≤ 256 → s.nr ≤ s.n - 1 →
    s.fcr ≤ s.n - 1 → 1 ≤ s.cfgNmp.toNat → s.cfgNmp.toNat ≤ 256 →
    (∀ k, k < s.cfgNmp.toNat → 2 ≤ (s.mem.rdMinpoly k).toNat ∧ (s.mem.rdMinpoly k).toNat < 2 ^ (s.cfgM.toNat + 1)) →
    let np := ∑ k ∈ Finset.range s.cfgNmp.toNat, (s.mem.rdMinpoly k).toNat.log2
    np ≤ 256 → np ≤ s.n - 1 →
    (∀ i, i < s.nr → ∃ k, k < s.cfgNmp.toNat ∧ s.minpolyAt k (s.targetRoot i) = 0) →
    let poly : Nat → Polynomial (ZMod 2) := fun v => ∑ i ∈ Finset.range 17, if v.testBit i then Polynomial.X ^ i else 0
    ∃ t, exec .buildGen s = .next t ∧
      (∀ j, j ≤ np → t.rd .gen j = 0 ∨ t.rd .gen j = 1) ∧ t.rd .gen np = 1 ∧
      (∑ j ∈ Finset.range (np + 1), if t.rd .gen j = 1 then Polynomial.X ^ j else 0) =
        ∏ k ∈ Finset.range s.cfgNmp.toNat, poly (s.mem.rdMinpoly k).toNat ∧
      s.SameCells t (fun w j => w = .gen ∧ j ≤ np) ∧
      t = { s with genNp := BitVec.ofNat 16 np, genK := BitVec.ofNat 16 (s.n - np), genOk := true, result := 0,
                   engine := .idle, done := true, mem := t.mem }

/-- R190, R193, R195, R321: BUILD_GEN's faults, in checking order; each leaves GEN_OK = 0 and every cell, RESULT and the
stored NP and K as they were. -/
def Obligations.BuildGenFaults : Prop :=
  ∀ s : State,
    (s.fieldOk = false → exec .buildGen s = .next { s.faulted 0x09 with genOk := false }) ∧
    (s.fieldOk = true → (s.nr < 1 ∨ 256 < s.nr ∨ s.n - 1 < s.nr) →
      exec .buildGen s = .next { s.faulted 0x05 with genOk := false }) ∧
    (s.fieldOk = true → 1 ≤ s.nr → s.nr ≤ 256 → s.nr ≤ s.n - 1 →
      (s.n - 1 < s.fcr → exec .buildGen s = .next { s.faulted 0x06 with genOk := false }) ∧
      (s.fcr ≤ s.n - 1 → s.cfgBch = true →
        (s.cfgNmp.toNat < 1 ∨ 256 < s.cfgNmp.toNat ∨
          (∃ k, k < s.cfgNmp.toNat ∧
            ((s.mem.rdMinpoly k).toNat < 2 ∨ 2 ^ (s.cfgM.toNat + 1) ≤ (s.mem.rdMinpoly k).toNat)) ∨
          min 256 (s.n - 1) < ∑ k ∈ Finset.range s.cfgNmp.toNat, (s.mem.rdMinpoly k).toNat.log2) →
        exec .buildGen s = .next { s.faulted 0x07 with genOk := false }) ∧
      (s.fcr ≤ s.n - 1 → s.cfgBch = true → s.FlagsTruthful → s.minpolyOk = true →
        (∃ i, i < s.nr ∧ ∀ k, k < s.cfgNmp.toNat → s.minpolyAt k (s.targetRoot i) ≠ 0) →
        exec .buildGen s = .next { s.faulted 0x08 with genOk := false }))

/-! ## The pipeline: checks -/

/-- R200: each pipeline command first checks FIELD_OK, then GEN_OK, and a faulting one changes only STATUS. -/
def Obligations.PipelineCommandsNeedFieldAndGenerator : Prop :=
  ∀ (s : State) (i : Instr), isPipelineCommand i = true →
    (s.fieldOk = false → exec i s = .next (s.faulted 0x09)) ∧
    (s.fieldOk = true → s.genOk = false → exec i s = .next (s.faulted 0x0A)) ∧
    ∀ t, exec i s = .next t → (∃ e, t = s.faulted e) ∨ (t.err = s.err ∧ t.errcode = s.errcode)

/-- R325, R326: the pipeline commands' own checks, with their codes and their order. -/
def Obligations.PipelineChecksFault : Prop :=
  ∀ s : State, s.fieldOk = true → s.genOk = true →
    ((∃ i, i < s.k ∧ ¬ s.InRange (s.rd .code i)) → exec .encode s = .next (s.faulted 0x0B)) ∧
    ((∃ j, j < s.n ∧ ¬ s.InRange (s.rd .code j)) → exec .syndromes s = .next (s.faulted 0x0B)) ∧
    ((s.nr < s.neras.toNat ∨ ∃ e, e < s.neras.toNat ∧ s.n ≤ (s.rd .eras e).toNat) →
      exec .bm s = .next (s.faulted 0x0D) ∧ ∀ clr novfy, exec (.decode clr novfy) s = .next (s.faulted 0x0D)) ∧
    (s.neras.toNat ≤ s.nr → (∀ e, e < s.neras.toNat → (s.rd .eras e).toNat < s.n) →
      ((∃ i, i < s.nr ∧ s.q ≤ (s.rd .syn i).toNat) → exec .bm s = .next (s.faulted 0x0B)) ∧
      ((∃ j, j < s.n ∧ ¬ s.InRange (s.rd .code j)) →
        ∀ clr novfy, exec (.decode clr novfy) s = .next (s.faulted 0x0B))) ∧
    (s.nr < s.deg.toNat → exec .roots s = .next (s.faulted 0x0E)) ∧
    (s.deg.toNat ≤ s.nr → (∃ j, j ≤ s.deg.toNat ∧ s.q ≤ (s.rd .lambda j).toNat) →
      exec .roots s = .next (s.faulted 0x0B)) ∧
    ((s.nr < s.deg.toNat ∨ s.nr < s.loccnt.toNat) → exec .forney s = .next (s.faulted 0x0E)) ∧
    (s.deg.toNat ≤ s.nr → s.loccnt.toNat ≤ s.nr →
      ((∃ i, i < s.nr ∧ s.q ≤ (s.rd .syn i).toNat) ∨ (∃ j, j ≤ s.deg.toNat ∧ s.q ≤ (s.rd .lambda j).toNat) ∨
        (∃ k, k < s.loccnt.toNat ∧ s.n ≤ (s.rd .loc k).toNat)) →
      exec .forney s = .next (s.faulted 0x0B)) ∧
    (s.nr < s.loccnt.toNat → exec .apply s = .next (s.faulted 0x0E)) ∧
    (s.loccnt.toNat ≤ s.nr →
      (∃ k, k < s.loccnt.toNat ∧ (s.n ≤ (s.rd .loc k).toNat ∨ ¬ s.InRange (s.rd .mag k))) →
      exec .apply s = .next (s.faulted 0x0B))

/-! ## The pipeline: effects -/

/-- R210, R213: ENCODE keeps the message and writes the NP parity cells so that the codeword, read as a polynomial, is
divisible by the generator: c(x) = g(x)·f(x) at every field value x, for some f of K coefficients (both sides have
degree below Q). RESULT = 0 and nothing else changes. -/
def Obligations.EncodedWordIsDivisible : Prop :=
  ∀ s : State, s.CodeReady → (∀ i, i < s.k → s.InRange (s.rd .code i)) →
    ∃ t, exec .encode s = .next t ∧
      s.SameCells t (fun w i => w = .code ∧ s.k ≤ i ∧ i < s.n) ∧
      t = { s with result := 0, engine := .idle, done := true, mem := t.mem } ∧
      (∀ j, s.k ≤ j → j < s.n → (t.rd .code j).toNat < s.q) ∧
      ∃ f : Nat → Sym, (∀ j, (f j).toNat < s.q) ∧ ∀ x : Sym, x.toNat < s.q →
        evalAt s.gf s.n (fun j => t.rd .code (s.n - 1 - j)) x =
          gmul s.gf (evalAt s.gf (s.np + 1) (s.rd .gen) x) (evalAt s.gf s.k f x)

/-- R214: SYNDROMES on an encoded CODE gives SYN[i] = 0 for every i < NR and RESULT = 0. -/
def Obligations.EncodedWordHasZeroSyndromes : Prop :=
  ∀ s : State, s.CodeReady → (∀ i, i < s.k → s.InRange (s.rd .code i)) →
    ∃ t u, exec .encode s = .next t ∧ exec .syndromes t = .next u ∧ u.result = 0 ∧ ∀ i, i < s.nr → u.rd .syn i = 0

/-- R215: in BCH mode, with binary message symbols, every parity symbol is 0 or 1, so that no later range check refuses
the codeword. -/
def Obligations.BchParityIsBinary : Prop :=
  ∀ s t : State, s.CodeReady → s.cfgBch = true → (∀ i, i < s.k → (s.rd .code i).toNat ≤ 1) →
    exec .encode s = .next t → ∀ j, j < s.n → (t.rd .code j).toNat ≤ 1

/-- R220, R221: SYNDROMES writes SYN[i] = the sum of CODE[j]·(pe^(FCR+i))^(N-1-j), and RESULT counts the nonzero ones;
nothing else changes. -/
def Obligations.SyndromesEvaluateTheCode : Prop :=
  ∀ s : State, s.CodeReady → (∀ j, j < s.n → s.InRange (s.rd .code j)) →
    ∃ t, exec .syndromes s = .next t ∧
      (∀ i, i < s.nr → t.rd .syn i =
        xorSum s.n fun j => gmul s.gf (s.rd .code j) (gpow s.gf (s.targetRoot i) ((s.n - 1 - j : Nat) : Int))) ∧
      t.result.toNat = (List.range s.nr).countP (fun i => t.rd .syn i != 0) ∧
      s.SameCells t (fun w i => w = .syn ∧ i < s.nr) ∧
      t = { s with result := t.result, engine := .idle, done := true, mem := t.mem }

/-- R222: syndromes are linear, position by position, and a single error v at position p has syndromes
v·X_p^(FCR+i) with X_p = pe^(N-1-p). -/
def Obligations.SyndromesAreLinear : Prop :=
  ∀ s : State, s.TablesBuilt → ∀ w e : List Sym, w.length = s.n → e.length = s.n →
    (∀ v ∈ w, v.toNat < s.q) → (∀ v ∈ e, v.toNat < s.q) →
    syndromesOf s.gf s.nr s.fcr (List.zipWith (fun a b => a ^^^ b) w e) =
      List.zipWith (fun a b => a ^^^ b) (syndromesOf s.gf s.nr s.fcr w) (syndromesOf s.gf s.nr s.fcr e) ∧
    (∀ (p : Nat) (v : Sym), p < s.n → v.toNat < s.q → e = (List.replicate s.n 0).set p v →
      ∀ i, i < s.nr → (syndromesOf s.gf s.nr s.fcr e).getD i 0 =
        gmul s.gf v (gpow s.gf (s.gf.pe ((s.n : Int) - 1 - (p : Int))) ((s.fcr + i : Nat) : Int)))

/-- R230, R232, R233: BM writes LAMBDA[0..NR] and DEG, with NERAS ≤ DEG ≤ NR and LAMBDA[0] = 1; RESULT is DEG; the
locator is the iteration's C and DEG its L; nothing else changes. -/
def Obligations.BmAnswersALocator : Prop :=
  ∀ s : State, s.CodeReady → s.neras.toNat ≤ s.nr → (∀ e, e < s.neras.toNat → (s.rd .eras e).toNat < s.n) →
    (∀ i, i < s.nr → (s.rd .syn i).toNat < s.q) →
    let r := bmRun s.gf s.nr (s.rdList .syn s.nr) s.erasures
    ∃ t, exec .bm s = .next t ∧
      s.neras.toNat ≤ t.deg.toNat ∧ t.deg.toNat ≤ s.nr ∧ t.result.toNat = t.deg.toNat ∧ t.rd .lambda 0 = 1 ∧
      (∀ j, j ≤ s.nr → (t.rd .lambda j).toNat < s.q ∧ t.rd .lambda j = r.c.getD j 0) ∧ t.deg.toNat = r.len ∧
      s.SameCells t (fun w j => w = .lambda ∧ j ≤ s.nr) ∧
      t = { s with deg := t.deg, result := t.result, engine := .idle, done := true, mem := t.mem }

/-- R230, R231: with NERAS = NR erasures there is no iteration: LAMBDA is the erasure locator, the product of the
(1 ⊕ X_e·x) with X_e = pe^(N-1-ERAS[e]), and DEG = RESULT = NR. -/
def Obligations.FullErasureListGivesTheErasureLocator : Prop :=
  ∀ s : State, s.CodeReady → s.neras = s.cfgNr → (∀ e, e < s.nr → (s.rd .eras e).toNat < s.n) →
    (∀ i, i < s.nr → (s.rd .syn i).toNat < s.q) →
    ∃ t, exec .bm s = .next t ∧ t.deg.toNat = s.nr ∧ t.result.toNat = s.nr ∧
      ∀ x : Sym, x.toNat < s.q → evalAt s.gf (s.nr + 1) (t.rd .lambda) x =
        (List.range s.nr).foldl (fun p e => gmul s.gf p
          (1 ^^^ gmul s.gf (s.gf.pe ((s.n : Int) - 1 - ((s.rd .eras e).toNat : Int))) x)) 1

/-- R250, R252, R253, R257: with LAMBDA[0] = 1, ROOTS writes the exact degree d to DEG, and to LOC, strictly ascending,
the positions p with Λ(pe^(p+1)) = 0, stopping at the d-th; LOCCNT and RESULT count them; nothing else changes. -/
def Obligations.RootsFindsThePositions : Prop :=
  ∀ s : State, s.CodeReady → s.deg.toNat ≤ s.nr → (∀ j, j ≤ s.deg.toNat → (s.rd .lambda j).toNat < s.q) →
    s.rd .lambda 0 = 1 → ∃ t, exec .roots s = .next t ∧
      let d := t.deg.toNat
      let c := t.loccnt.toNat
      let isRoot : Nat → Prop := fun p => evalAt s.gf (d + 1) (s.rd .lambda) (s.gf.pe ((p + 1 : Nat) : Int)) = 0
      d ≤ s.deg.toNat ∧ (d = 0 ∨ s.rd .lambda d ≠ 0) ∧ (∀ j, d < j → j ≤ s.deg.toNat → s.rd .lambda j = 0) ∧
      c ≤ d ∧ t.result.toNat = c ∧
      (∀ k, k < c → (t.rd .loc k).toNat < s.n ∧ isRoot (t.rd .loc k).toNat) ∧
      (∀ k k', k < k' → k' < c → (t.rd .loc k).toNat < (t.rd .loc k').toNat) ∧
      (∀ p, p < s.n → 1 ≤ d → isRoot p → (∃ k, k < c ∧ (t.rd .loc k).toNat = p) ∨
        (c = d ∧ (t.rd .loc (c - 1)).toNat < p)) ∧
      s.SameCells t (fun w k => w = .loc ∧ k < c) ∧
      t = { s with deg := t.deg, loccnt := t.loccnt, result := t.result, engine := .idle, done := true, mem := t.mem }

/-- R251: a locator whose constant coefficient is not 1 gives RESULT = -1 and LOCCNT = 0, no fault, and changes neither
DEG nor any cell. -/
def Obligations.RootsAnswersMinusOneOnABadConstant : Prop :=
  ∀ s : State, s.fieldOk = true → s.genOk = true → s.deg.toNat ≤ s.nr →
    (∀ j, j ≤ s.deg.toNat → (s.rd .lambda j).toNat < s.q) → s.rd .lambda 0 ≠ 1 →
    exec .roots s = .next { s with loccnt := 0, result := 0xFFFFFFFF, engine := .idle, done := true }

/-- R255: the closed form of degree 1, one root, at (N - 1 - glog(Λ1)) mod N. -/
def Obligations.RootsOfDegreeOneInClosedForm : Prop :=
  ∀ s : State, s.CodeReady → s.deg = 1 → s.rd .lambda 0 = 1 → s.rd .lambda 1 ≠ 0 → (s.rd .lambda 1).toNat < s.q →
    ∃ t, exec .roots s = .next t ∧ t.loccnt = 1 ∧ t.deg = 1 ∧ t.result = 1 ∧
      (t.rd .loc 0).toNat = (s.n - 1 - s.logOf (s.rd .lambda 1)) % s.n ∧
      (((s.logOf (ginv s.gf (s.rd .lambda 1)) : Int) - 1) % (s.n : Int)).toNat = (t.rd .loc 0).toNat

/-- R256: the closed form of degree 2 gives what the search gives: a double root when Λ1 = 0, and otherwise, with
c = Λ2/Λ1² and k = Λ1/Λ2, the positions of k·y and k·(y ⊕ 1) in ascending order, or none when gqsolve(c) is NONE. -/
def Obligations.RootsOfDegreeTwoInClosedForm : Prop :=
  ∀ s : State, s.CodeReady → s.deg = 2 → 2 ≤ s.nr → s.rd .lambda 0 = 1 → (s.rd .lambda 1).toNat < s.q →
    (s.rd .lambda 2).toNat < s.q → s.rd .lambda 2 ≠ 0 →
    let l1 := s.rd .lambda 1
    let l2 := s.rd .lambda 2
    let pos : Sym → Nat := fun x => (((s.logOf x : Int) - 1) % (s.n : Int)).toNat
    ∃ t, exec .roots s = .next t ∧ t.deg = 2 ∧ t.result = t.loccnt.setWidth 32 ∧
      (l1 = 0 → t.loccnt = 1 ∧ (t.rd .loc 0).toNat = pos (gsqrt s.gf (ginv s.gf l2))) ∧
      (l1 ≠ 0 →
        match gqsolve s.gf (gdiv s.gf l2 (gmul s.gf l1 l1)) with
        | none => t.loccnt = 0
        | some y =>
          t.loccnt = 2 ∧
          (t.rd .loc 0).toNat =
            min (pos (gmul s.gf (gdiv s.gf l1 l2) y)) (pos (gmul s.gf (gdiv s.gf l1 l2) (y ^^^ 1))) ∧
          (t.rd .loc 1).toNat =
            max (pos (gmul s.gf (gdiv s.gf l1 l2) y)) (pos (gmul s.gf (gdiv s.gf l1 l2) (y ^^^ 1))))

/-- R270 to R273: FORNEY writes Ω, the product of the syndromes and the locator modulo x^NR, and for each listed
position with x = pe^(LOC[k]+1) the magnitude x^(FCR-1)·Ω(x)/Λ'(x), Λ' summing the odd coefficients; RESULT counts the
nonzero ones. Where some Λ'(x) is 0 it faults with E_ZERO and leaves OMEGA and MAG alone. -/
def Obligations.ForneyWritesTheMagnitudes : Prop :=
  ∀ s : State, s.CodeReady → s.deg.toNat ≤ s.nr → s.loccnt.toNat ≤ s.nr →
    (∀ i, i < s.nr → (s.rd .syn i).toNat < s.q) → (∀ j, j ≤ s.deg.toNat → (s.rd .lambda j).toNat < s.q) →
    (∀ k, k < s.loccnt.toNat → (s.rd .loc k).toNat < s.n) →
    let root : Nat → Sym := fun k => s.gf.pe (((s.rd .loc k).toNat + 1 : Nat) : Int)
    let deriv : Sym → Sym := fun x => xorSum (s.deg.toNat + 1) fun j =>
      if j % 2 = 1 then gmul s.gf (s.rd .lambda j) (gpow s.gf x ((j - 1 : Nat) : Int)) else 0
    ((∃ k, k < s.loccnt.toNat ∧ deriv (root k) = 0) → exec .forney s = .next (s.faulted 0x0C)) ∧
    ((∀ k, k < s.loccnt.toNat → deriv (root k) ≠ 0) → ∃ t, exec .forney s = .next t ∧
      (∀ i, i < s.nr → t.rd .omega i =
        xorSum (min i s.deg.toNat + 1) fun j => gmul s.gf (s.rd .syn (i - j)) (s.rd .lambda j)) ∧
      (∀ k, k < s.loccnt.toNat → t.rd .mag k =
        gmul s.gf (gpow s.gf (root k) ((s.fcr : Int) - 1))
          (gdiv s.gf (evalAt s.gf s.nr (t.rd .omega) (root k)) (deriv (root k)))) ∧
      t.result.toNat = (List.range s.loccnt.toNat).countP (fun k => t.rd .mag k != 0) ∧
      s.SameCells t (fun w i => (w = .omega ∧ i < s.nr) ∨ (w = .mag ∧ i < s.loccnt.toNat)) ∧
      t = { s with result := t.result, engine := .idle, done := true, mem := t.mem })

/-- R280: APPLY XORs each magnitude into the codeword at its position, a position listed twice receiving both; RESULT
counts the positions whose cell differs; nothing else changes. -/
def Obligations.ApplyXorsTheMagnitudes : Prop :=
  ∀ s : State, s.fieldOk = true → s.genOk = true → s.loccnt.toNat ≤ s.nr →
    (∀ k, k < s.loccnt.toNat → (s.rd .loc k).toNat < s.n ∧ s.InRange (s.rd .mag k)) →
    ∃ t, exec .apply s = .next t ∧
      (∀ p, p < s.n → t.rd .code p = s.rd .code p ^^^
        xorSum s.loccnt.toNat (fun k => if (s.rd .loc k).toNat = p then s.rd .mag k else 0)) ∧
      t.result = BitVec.ofNat 32 ((List.range s.n).countP (fun p => t.rd .code p != s.rd .code p)) ∧
      s.SameCells t (fun w i => w = .code ∧ ∃ k, k < s.loccnt.toNat ∧ (s.rd .loc k).toNat = i) ∧
      t = { s with result := t.result, engine := .idle, done := true, mem := t.mem }

/-! ## DECODE -/

/-- R290 to R299: a DECODE that does not fault answers RESULT = -1 with CODE exactly as it was, or the number of
positions changed. It sets no fault code, writes only CODE[0..N-1], SYN[0..NR-1], LAMBDA[0..NR], OMEGA[0..NR-1] and LOC
and MAG below NR, DEG, LOCCNT and RESULT, and SYN holds the syndromes of the working copy (CLR zeroes the erased
positions). Then R298's table, with the stage commands run on the working copy from ERR = 0: DEG, LOCCNT and every array
but CODE are left as the last stage the exit's row lists as written leaves them. An early success leaves them as
SYNDROMES does; a trimmed degree of 0, a root count short of the degree, and a zero derivative (FORNEY faults) fail and
leave them as ROOTS does; in BCH mode a magnitude above 1 fails and leaves them as FORNEY does, and so does, unless
NOVFY, a nonzero syndrome after APPLY; otherwise CODE becomes what APPLY makes of the working copy. The zero derivative
is a guard only (R274, R295). -/
def Obligations.DecodeOutcomes : Prop :=
  ∀ (s : State) (clr novfy : Bool), s.CodeReady → s.neras.toNat ≤ s.nr →
    (∀ e, e < s.neras.toNat → (s.rd .eras e).toNat < s.n) → (∀ p, p < s.n → s.InRange (s.rd .code p)) →
    let w : Nat → Sym := fun p =>
      if clr = true ∧ ∃ e, e < s.neras.toNat ∧ (s.rd .eras e).toNat = p then 0 else s.rd .code p
    let s0 : State := { s.store .code 0 ((List.range s.n).map w) with err := false }
    ∃ t a, exec (.decode clr novfy) s = .next t ∧
      ((t.result = 0xFFFFFFFF ∧ ∀ p, t.rd .code p = s.rd .code p) ∨
        (t.result.toNat = (List.range s.n).countP (fun p => t.rd .code p != s.rd .code p))) ∧
      (∀ i, i < s.nr → t.rd .syn i = (syndromesOf s.gf s.nr s.fcr ((List.range s.n).map w)).getD i 0) ∧
      s.SameCells t (fun w i => (w = .code ∧ i < s.n) ∨ (w = .syn ∧ i < s.nr) ∨ (w = .lambda ∧ i ≤ s.nr) ∨
        (w = .omega ∧ i < s.nr) ∨ ((w = .loc ∨ w = .mag) ∧ i < s.nr)) ∧
      t = { s with deg := t.deg, loccnt := t.loccnt, result := t.result, engine := .idle, done := true, mem := t.mem } ∧
      let leaves : State → Prop := fun x =>
        (∀ v i, v ≠ .code → t.rd v i = x.rd v i) ∧ t.deg = x.deg ∧ t.loccnt = x.loccnt
      let fails : Prop := t.result = 0xFFFFFFFF ∧ ∀ p, t.rd .code p = s.rd .code p
      let succeeds : State → Prop := fun x => (∀ p, t.rd .code p = x.rd .code p) ∧
        t.result.toNat = (List.range s.n).countP (fun p => x.rd .code p != s.rd .code p)
      exec .syndromes s0 = .next a ∧
      (a.result = 0 → leaves a ∧ succeeds a) ∧
      (a.result ≠ 0 → ∃ b c, exec .bm a = .next b ∧ exec .roots b = .next c ∧
        (c.deg = 0 ∨ c.loccnt ≠ c.deg → leaves c ∧ fails) ∧
        (c.deg ≠ 0 → c.loccnt = c.deg → ∃ d, exec .forney c = .next d ∧
          let tooLarge : Prop := s.cfgBch = true ∧ ∃ k, k < d.loccnt.toNat ∧ 1 < (d.rd .mag k).toNat
          (d.err = true → leaves c ∧ fails) ∧
          (d.err = false → tooLarge → leaves d ∧ fails) ∧
          (d.err = false → ¬ tooLarge → ∃ e, exec .apply d = .next e ∧
            let valid : Prop := ∀ i, i < s.nr → (syndromesOf s.gf s.nr s.fcr (e.rdList .code s.n)).getD i 0 = 0
            (novfy = false → ¬ valid → leaves d ∧ fails) ∧
            (novfy = true ∨ valid → leaves d ∧ succeeds e))))

/-- R292: when the syndromes of the working copy are all zero, DECODE succeeds at once: CODE becomes the working copy,
SYN the zero syndromes, RESULT the number of positions where the working copy differs from CODE (0 when CLR = 0), and
LAMBDA, DEG, LOC, LOCCNT, OMEGA and MAG keep their contents. -/
def Obligations.DecodeExitsEarlyOnZeroSyndromes : Prop :=
  ∀ (s : State) (clr novfy : Bool), s.CodeReady → s.neras.toNat ≤ s.nr →
    (∀ e, e < s.neras.toNat → (s.rd .eras e).toNat < s.n) → (∀ p, p < s.n → s.InRange (s.rd .code p)) →
    let w : Nat → Sym := fun p =>
      if clr = true ∧ ∃ e, e < s.neras.toNat ∧ (s.rd .eras e).toNat = p then 0 else s.rd .code p
    (∀ i, i < s.nr → (syndromesOf s.gf s.nr s.fcr ((List.range s.n).map w)).getD i 0 = 0) →
    ∃ t, exec (.decode clr novfy) s = .next t ∧
      (∀ p, p < s.n → t.rd .code p = w p) ∧ (∀ i, i < s.nr → t.rd .syn i = 0) ∧
      t.result.toNat = (List.range s.n).countP (fun p => w p != s.rd .code p) ∧ (clr = false → t.result = 0) ∧
      s.SameCells t (fun v i => (v = .code ∧ i < s.n) ∨ (v = .syn ∧ i < s.nr)) ∧
      t = { s with result := t.result, engine := .idle, done := true, mem := t.mem }

/-- R300 item 1: decoding an encoded word with no erasures returns 0 and leaves CODE unchanged. -/
def Obligations.DecodeOfAnEncodedWordReturnsZero : Prop :=
  ∀ (s : State) (novfy : Bool), s.CodeReady → s.neras = 0 → (∀ i, i < s.k → s.InRange (s.rd .code i)) →
    ∃ t u, exec .encode s = .next t ∧ exec (.decode false novfy) t = .next u ∧ u.result = 0 ∧
      ∀ p, u.rd .code p = t.rd .code p

/-- R300 item 4: with NOVFY = 0, a DECODE that succeeds leaves a word that a second DECODE with NERAS = 0 answers 0
for. -/
def Obligations.DecodedWordRedecodesToZero : Prop :=
  ∀ (s t : State) (clr : Bool), s.CodeReady → s.neras.toNat ≤ s.nr →
    (∀ e, e < s.neras.toNat → (s.rd .eras e).toNat < s.n) → (∀ p, p < s.n → s.InRange (s.rd .code p)) →
    exec (.decode clr false) s = .next t → t.result ≠ 0xFFFFFFFF →
    ∃ u, exec (.decode false false) { t with neras := 0 } = .next u ∧ u.result = 0 ∧ ∀ p, u.rd .code p = t.rd .code p

/-- R300 item 2, for one error: a word one symbol away from a codeword, NR ≥ 2 and NERAS = 0, is restored exactly and
RESULT = 1. -/
def Obligations.DecodeCorrectsOneError : Prop :=
  ∀ (s : State) (c : Nat → Sym) (p : Nat) (v : Sym), s.CodeReady → 2 ≤ s.nr → s.neras = 0 →
    (∀ j, j < s.n → s.InRange (c j)) →
    (∀ i, i < s.nr → (syndromesOf s.gf s.nr s.fcr ((List.range s.n).map c)).getD i 0 = 0) →
    p < s.n → v ≠ 0 → s.InRange v →
    (∀ j, j < s.n → s.rd .code j = if j = p then c j ^^^ v else c j) →
    ∃ t, exec (.decode false false) s = .next t ∧ t.result = 1 ∧ ∀ j, j < s.n → t.rd .code j = c j

/-- R290, R362: with CLR = 0, a DECODE that corrects gives CODE, the intermediate arrays, DEG and LOCCNT exactly as
SYNDROMES, BM, ROOTS, FORNEY and APPLY run one after another. -/
def Obligations.DecodeMatchesItsStages : Prop :=
  ∀ (s t : State) (novfy : Bool), s.CodeReady → s.neras.toNat ≤ s.nr →
    (∀ e, e < s.neras.toNat → (s.rd .eras e).toNat < s.n) → (∀ p, p < s.n → s.InRange (s.rd .code p)) →
    (∃ i, i < s.nr ∧ (syndromesOf s.gf s.nr s.fcr (s.rdList .code s.n)).getD i 0 ≠ 0) →
    exec (.decode false novfy) s = .next t → t.result ≠ 0xFFFFFFFF →
    ∃ a b c d e, exec .syndromes s = .next a ∧ exec .bm a = .next b ∧ exec .roots b = .next c ∧
      exec .forney c = .next d ∧ exec .apply d = .next e ∧
      (∀ w i, e.rd w i = t.rd w i) ∧ e.deg = t.deg ∧ e.loccnt = t.loccnt ∧ e.result = t.result

/-! ## The host port -/

/-- R88: while BUSY the port accepts only reads of STATUS (0x00008), which return BUSY = 1; every other access is
refused. -/
def Obligations.BusyPortAcceptsOnlyStatusReads : Prop :=
  ∀ (s : State) (x : Access), s.isBusy = true → s.inReset = false →
    (x = .read 0x00008 →
      s.hostAccess x = { s with response := some (.okayData s.statusWord) } ∧ s.statusWord.getLsbD 0 = true) ∧
    (x ≠ .read 0x00008 → s.hostAccess x = { s with response := some .error })

/-- R89: a refused access returns ERROR with read data 0 and changes no state at all. -/
def Obligations.RefusedAccessChangesNothing : Prop :=
  ∀ (s : State) (x : Access), (s.hostAccess x).response = some .error →
    s.hostAccess x = { s with response := some .error } ∧ (Response.error).data = 0

/-- R84, at R81's addresses: a host read of a cell returns it zero-extended, a read of a register its value with every zero field 0, a read
of CMD 0; no read has a side effect. -/
def Obligations.ReadsReturnWhatTheyAddress : Prop :=
  ∀ s : State, s.isBusy = false → s.inReset = false →
    let reads : Nat → Word → Prop := fun a v =>
      s.hostAccess (.read (BitVec.ofNat 20 a)) = { s with response := some (.okayData v) }
    (∀ i, i ≤ 256 → reads (0x01000 + 4 * i) ((s.rd .gen i).setWidth 32)) ∧
    (∀ i, i ≤ 255 → reads (0x03000 + 4 * i) ((s.rd .syn i).setWidth 32)) ∧
    (∀ i, i ≤ 256 → reads (0x04000 + 4 * i) ((s.rd .lambda i).setWidth 32)) ∧
    (∀ i, i ≤ 255 → reads (0x05000 + 4 * i) ((s.rd .omega i).setWidth 32)) ∧
    (∀ i, i ≤ 255 → reads (0x06000 + 4 * i) ((s.rd .loc i).setWidth 32)) ∧
    (∀ i, i ≤ 255 → reads (0x07000 + 4 * i) ((s.rd .mag i).setWidth 32)) ∧
    (∀ i, i ≤ 255 → reads (0x08000 + 4 * i) ((s.rd .eras i).setWidth 32)) ∧
    (∀ i, i ≤ 65535 → reads (0x40000 + 4 * i) ((s.rd .expt i).setWidth 32)) ∧
    (∀ i, i ≤ 65535 → reads (0x80000 + 4 * i) ((s.rd .logt i).setWidth 32)) ∧
    (∀ i, i ≤ 65534 → reads (0xC0000 + 4 * i) ((s.rd .code i).setWidth 32)) ∧
    (∀ i, i ≤ 255 → reads (0x02000 + 4 * i) ((s.mem.rdMinpoly i).setWidth 32)) ∧
    reads 0x000 0x01000110 ∧ reads 0x004 0 ∧
    reads 0x008 (0x100 * s.errcode.setWidth 32 + (if s.genOk then 16 else 0) + (if s.fieldOk then 8 else 0) +
      (if s.err then 4 else 0) + (if s.done then 2 else 0)) ∧
    reads 0x00C (if s.ie then 1 else 0) ∧ reads 0x010 s.result ∧ reads 0x014 (s.cfgM.setWidth 32) ∧
    reads 0x018 (s.cfgPoly.setWidth 32) ∧ reads 0x01C (s.cfgNr.setWidth 32) ∧ reads 0x020 (s.cfgFcr.setWidth 32) ∧
    reads 0x024 (if s.cfgBch then 1 else 0) ∧ reads 0x028 (s.cfgNmp.setWidth 32) ∧
    reads 0x02C (if s.genOk then 0x10000 * s.genK.setWidth 32 + s.genNp.setWidth 32 else 0) ∧
    reads 0x030 (s.neras.setWidth 32) ∧ reads 0x034 (s.deg.setWidth 32) ∧ reads 0x038 (s.loccnt.setWidth 32) ∧
    reads 0x03C s.opa ∧ reads 0x040 s.opb ∧ reads 0x044 s.opc ∧ reads 0x048 s.opr

/-- R86, for the registers that are not configuration: a write with every zero field 0 stores the field, any other is
refused; OPA, OPB and OPC have no zero field. -/
def Obligations.RegisterWritesStoreOrAreRefused : Prop :=
  ∀ (s : State) (v : Word), s.isBusy = false → s.inReset = false →
    let writes : Nat → State → Prop := fun a t =>
      s.hostAccess (.write (BitVec.ofNat 20 a) v) = { t with response := some .okay }
    let refuses : Nat → Prop := fun a =>
      s.hostAccess (.write (BitVec.ofNat 20 a) v) = { s with response := some .error }
    (v.toNat < 2 → writes 0x00C { s with ie := v.getLsbD 0 }) ∧ (2 ≤ v.toNat → refuses 0x00C) ∧
    (v.toNat < 65536 →
      writes 0x030 { s with neras := v.setWidth 16 } ∧ writes 0x034 { s with deg := v.setWidth 16 } ∧
      writes 0x038 { s with loccnt := v.setWidth 16 }) ∧
    (65536 ≤ v.toNat → refuses 0x030 ∧ refuses 0x034 ∧ refuses 0x038) ∧
    writes 0x03C { s with opa := v } ∧ writes 0x040 { s with opb := v } ∧ writes 0x044 { s with opc := v }

/-- R50, R86: a write to CFG_M or CFG_POLY clears FIELD_OK and GEN_OK, one to CFG_NR, CFG_FCR, CFG_MODE, CFG_NMP or a
MINPOLY cell clears GEN_OK, even when the value is the old one; GEN_INFO then reads 0 and no other state changes. -/
def Obligations.ConfigurationWritesInvalidate : Prop :=
  ∀ (s : State) (v : Word), s.isBusy = false → s.inReset = false →
    let writes : Nat → State → Prop := fun a t =>
      s.hostAccess (.write (BitVec.ofNat 20 a) v) = { t with response := some .okay } ∧ t.genInfoWord = 0
    let refuses : Nat → Prop := fun a =>
      s.hostAccess (.write (BitVec.ofNat 20 a) v) = { s with response := some .error }
    (v.toNat < 2 ^ 5 → writes 0x014 { s with cfgM := v.setWidth 5, fieldOk := false, genOk := false }) ∧
    (2 ^ 5 ≤ v.toNat → refuses 0x014) ∧
    (v.toNat < 2 ^ 17 → writes 0x018 { s with cfgPoly := v.setWidth 17, fieldOk := false, genOk := false }) ∧
    (2 ^ 17 ≤ v.toNat → refuses 0x018) ∧
    (v.toNat < 2 ^ 16 → writes 0x01C { s with cfgNr := v.setWidth 16, genOk := false } ∧
      writes 0x020 { s with cfgFcr := v.setWidth 16, genOk := false } ∧
      writes 0x028 { s with cfgNmp := v.setWidth 16, genOk := false }) ∧
    (2 ^ 16 ≤ v.toNat → refuses 0x01C ∧ refuses 0x020 ∧ refuses 0x028) ∧
    (v.toNat < 2 → writes 0x024 { s with cfgBch := v.getLsbD 0, genOk := false }) ∧ (2 ≤ v.toNat → refuses 0x024) ∧
    (∀ i, i < 256 →
      (v.toNat < 2 ^ 17 →
        writes (0x02000 + 4 * i) { s with mem := s.mem.writeMinpoly i (v.setWidth 17), genOk := false } ∧
        (∀ j, (s.mem.writeMinpoly i (v.setWidth 17)).rdMinpoly j =
          if j = i then v.setWidth 17 else s.mem.rdMinpoly j) ∧
        ∀ w j, (s.mem.writeMinpoly i (v.setWidth 17)).rd w j = s.rd w j) ∧
      (2 ^ 17 ≤ v.toNat → refuses (0x02000 + 4 * i)))

/-- R85, at R81's addresses: a host write to a read-write cell stores the value when every bit above the cell's width is 0, and every other
cell and every register stays; otherwise it is refused. MINPOLY's cells have 17 bits (their write also clears GEN_OK,
R50), the others 16. -/
def Obligations.CellWritesStoreOrAreRefused : Prop :=
  ∀ (s : State) (v : Word), s.isBusy = false → s.inReset = false →
    (∀ (w : Win) (base last i : Nat),
      (w = .syn ∧ base = 0x03000 ∧ last = 255) ∨ (w = .lambda ∧ base = 0x04000 ∧ last = 256) ∨
        (w = .loc ∧ base = 0x06000 ∧ last = 255) ∨ (w = .mag ∧ base = 0x07000 ∧ last = 255) ∨
        (w = .eras ∧ base = 0x08000 ∧ last = 255) ∨ (w = .code ∧ base = 0xC0000 ∧ last = 65534) →
      i ≤ last →
      let t := s.hostAccess (.write (BitVec.ofNat 20 (base + 4 * i)) v)
      (v.toNat < 65536 → t = { s with response := some .okay, mem := t.mem } ∧ t.rd w i = v.setWidth 16 ∧
        s.SameCells t (fun u j => u = w ∧ j = i)) ∧
      (65536 ≤ v.toNat → t = { s with response := some .error })) ∧
    ∀ i, i < 256 →
      let t := s.hostAccess (.write (BitVec.ofNat 20 (0x02000 + 4 * i)) v)
      (v.toNat < 131072 → t = { s with response := some .okay, genOk := false, mem := t.mem } ∧
        (∀ j, t.mem.rdMinpoly j = if j = i then v.setWidth 17 else s.mem.rdMinpoly j) ∧ ∀ w j, t.rd w j = s.rd w j) ∧
      (131072 ≤ v.toNat → t = { s with response := some .error })

/-- R87, R90: an unaligned access, a request narrower than 32 bits, an access to a reserved address, and a write to a
read-only register or window are refused; a STATUS write and a read of CMD, which returns 0, are not. -/
def Obligations.ForbiddenAccessesAreRefused : Prop :=
  ∀ (s : State) (a : Addr) (v : Word) (d : Dir), s.isBusy = false → s.inReset = false →
    let refused : Access → Prop := fun x => s.hostAccess x = { s with response := some .error }
    let n := a.toNat
    refused (.narrow d a) ∧
    ((n % 4 ≠ 0 ∨ (0x0004C ≤ n ∧ n ≤ 0x00FFF) ∨ (0x01404 ≤ n ∧ n ≤ 0x01FFF) ∨ (0x02400 ≤ n ∧ n ≤ 0x02FFF) ∨
      (0x03400 ≤ n ∧ n ≤ 0x03FFF) ∨ (0x04404 ≤ n ∧ n ≤ 0x04FFF) ∨ (0x05400 ≤ n ∧ n ≤ 0x05FFF) ∨
      (0x06400 ≤ n ∧ n ≤ 0x06FFF) ∨ (0x07400 ≤ n ∧ n ≤ 0x07FFF) ∨ (0x08400 ≤ n ∧ n ≤ 0x3FFFF) ∨ 0xFFFFC ≤ n) →
      refused (.read a) ∧ refused (.write a v)) ∧
    ((n = 0x00000 ∨ n = 0x00010 ∨ n = 0x0002C ∨ n = 0x00048 ∨ (0x01000 ≤ n ∧ n ≤ 0x01400) ∨
      (0x05000 ≤ n ∧ n ≤ 0x053FC) ∨ (0x40000 ≤ n ∧ n ≤ 0xBFFFC)) → refused (.write a v)) ∧
    (s.hostAccess (.write 0x00008 v)).response = some .okay ∧
    s.hostAccess (.read 0x00004) = { s with response := some (.okayData 0) }

/-- R34, R35: a CMD write while IDLE is accepted whatever the word: BUSY(c), DONE = 0. A STATUS write while IDLE is never
refused: bit 1 clears DONE, bit 2 clears ERR and ERRCODE, every other bit is ignored. -/
def Obligations.CommandAndStatusWrites : Prop :=
  ∀ (s : State) (v : Word), s.isBusy = false → s.inReset = false →
    s.hostAccess (.write 0x00004 v) = { s with engine := .busy v, done := false, response := some .okay } ∧
    s.hostAccess (.write 0x00008 v) =
      { s with done := s.done && !v.getLsbD 1, err := s.err && !v.getLsbD 2,
               errcode := if v.getLsbD 2 then 0 else s.errcode, response := some .okay }

/-- R330: irq = DONE and IE. Its only source is command completion, whatever the outcome and whatever the word: after it
irq equals IE; no host access and no change of the reset input sets DONE. A CMD write, a write of 1 to STATUS.DONE and a
CTRL write of IE = 0 make irq low, the last without clearing DONE. -/
def Obligations.IrqFollowsDoneAndEnable : Prop :=
  (∀ s : State, s.irq = (s.done && s.ie)) ∧
  (∀ (s t : State) (c : Word), runWord c s = .next t → t.irq = t.ie ∧ t.done = true ∧ t.isBusy = false) ∧
  (∀ (s : State) (x : Access), (s.hostAccess x).done = true → s.done = true) ∧
  (∀ (s : State) (b : Bool), (s.driveReset b).done = true → s.done = true) ∧
  (∀ (s : State) (v : Word), s.isBusy = false → s.inReset = false →
    (s.hostAccess (.write 0x00004 v)).irq = false ∧
    (v.getLsbD 1 = true → (s.hostAccess (.write 0x00008 v)).irq = false) ∧
    (s.hostAccess (.write 0x0000C 0)).irq = false ∧ (s.hostAccess (.write 0x0000C 0)).done = s.done)

/-- R350, R351, R63: while reset is asserted every access is refused; when it is released the block is IDLE with every
register and flag at its reset value, irq low, and every array cell drawn anew, whatever it was doing before: no cell is
listed, and the draw behind them all is the next unused one (log entries 3 and 6). -/
def Obligations.ResetInputGivesTheResetState : Prop :=
  ∀ (s : State) (xs : List Access),
    let held := s.driveReset true
    let t := xs.foldl State.hostAccess held
    let u := t.driveReset false
    (∀ x, (t.hostAccess x).response = some .error) ∧
    u = { engine := .idle, done := false, err := false, errcode := 0, fieldOk := false, genOk := false, ie := false,
          result := 0, cfgM := 0, cfgPoly := 0, cfgNr := 0, cfgFcr := 0, cfgBch := false, cfgNmp := 0, genNp := 0,
          genK := 0, neras := 0, deg := 0, loccnt := 0, opa := 0, opb := 0, opc := 0, opr := 0, mem := u.mem,
          inReset := false, response := t.response, agenda := s.agenda, draws := u.draws } ∧
    u.irq = false ∧ (∀ w, u.mem.cells w = []) ∧ u.mem.minpoly = [] ∧
    s.draws < t.draws ∧ u.mem.epoch = t.draws ∧ u.draws = t.draws + 1

/-! ## Invariants and frames -/

/-- R63, R350: the reset state holds the reset values, and meets every invariant below (those of log entries 3, 5 and 6
are the model's choice). -/
def Obligations.ResetStateMeetsTheInvariants : Prop :=
  State.reset =
    { engine := .idle, done := false, err := false, errcode := 0, fieldOk := false, genOk := false, ie := false,
      result := 0, cfgM := 0, cfgPoly := 0, cfgNr := 0, cfgFcr := 0, cfgBch := false, cfgNmp := 0, genNp := 0,
      genK := 0, neras := 0, deg := 0, loccnt := 0, opa := 0, opb := 0, opc := 0, opr := 0, mem := State.reset.mem,
      inReset := false, response := none, agenda := [], draws := State.reset.draws } ∧
  State.reset.statusWord = 0 ∧ State.reset.genInfoWord = 0 ∧
  State.reset.FlagsTruthful ∧ State.reset.StatusLegal ∧ State.reset.mem.wf = true ∧
  State.reset.mem.epoch < State.reset.draws ∧ State.reset.mem.InWindows

/-- R62: every step keeps the flags truthful: FIELD_OK = 1 implies the tables of the current CFG_M and CFG_POLY, GEN_OK =
1 implies FIELD_OK and the generator, NP and K of the current configuration. -/
def Obligations.StepKeepsTheFlagsTruthful : Prop :=
  ∀ s t : State, s.FlagsTruthful → step s = .next t → t.FlagsTruthful

/-- R34, R35, R62, R321 (U13): every step keeps STATUS legal. StatusLegal's last clause, that the registers hold their
reset values while reset stays asserted, is the model's choice (log entry 6). -/
def Obligations.StepKeepsStatusLegal : Prop :=
  ∀ s t : State, s.StatusLegal → step s = .next t → t.StatusLegal

/-- The model's own conventions for the arrays: every step keeps their canonical form (log entry 5), and keeps the draw
behind the unlisted cells a used one, so that the next draw is new (log entry 3). -/
def Obligations.StepKeepsTheArraysCanonical : Prop :=
  ∀ s t : State, step s = .next t →
    (s.mem.wf = true → t.mem.wf = true) ∧ (s.mem.epoch < s.draws → t.mem.epoch < t.draws)

/-- R81: no step ever writes a cell outside its array's window. -/
def Obligations.StepKeepsTheCellsInTheirWindows : Prop :=
  ∀ s t : State, s.FlagsTruthful → s.mem.InWindows → step s = .next t → t.mem.InWindows

/-- R113's "writes" column, R51 to R60: a command changes no array but those it may write, and never MINPOLY or ERAS. -/
def Obligations.CommandsWriteOnlyTheirArrays : Prop :=
  ∀ (s t : State) (i : Instr), exec i s = .next t →
    (∀ w j, writesWin i w = false → t.rd w j = s.rd w j) ∧ ∀ j, t.mem.rdMinpoly j = s.mem.rdMinpoly j

/-- R113's "writes" column, R46 to R49, R62: a command changes no register but those it may write. No command but SRST
changes the configuration, the operands, CTRL or NERAS; OPR is the field commands', DEG BM's, ROOTS' and DECODE's,
LOCCNT ROOTS' and DECODE's, GEN_INFO BUILD_GEN's; only BUILD_FIELD sets FIELD_OK and only BUILD_GEN sets GEN_OK. -/
def Obligations.CommandsWriteOnlyTheirRegisters : Prop :=
  ∀ (s t : State) (i : Instr), exec i s = .next t → i ≠ .srst →
    (t.cfgM = s.cfgM ∧ t.cfgPoly = s.cfgPoly ∧ t.cfgNr = s.cfgNr ∧ t.cfgFcr = s.cfgFcr ∧ t.cfgBch = s.cfgBch ∧
      t.cfgNmp = s.cfgNmp ∧ t.opa = s.opa ∧ t.opb = s.opb ∧ t.opc = s.opc ∧ t.ie = s.ie ∧ t.neras = s.neras ∧
      t.inReset = s.inReset ∧ t.response = s.response ∧ t.agenda = s.agenda) ∧
    (isFieldCommand i = false → t.opr = s.opr) ∧
    ((∀ clr novfy, i ≠ .decode clr novfy) → i ≠ .roots →
      t.loccnt = s.loccnt ∧ (i ≠ .bm → t.deg = s.deg)) ∧
    (i ≠ .buildGen → t.genNp = s.genNp ∧ t.genK = s.genK ∧ (t.genOk = true → s.genOk = true)) ∧
    (i ≠ .buildField → t.draws = s.draws ∧ t.fieldOk = s.fieldOk) ∧
    (i = .nop → t.result = s.result)
end

