-- ==== Sys2Proof/Laws/Cells.lean ====
section
/-! SUPPORT. Everything a read and a write of an array's cells can do, and the canonical form a write keeps. -/

namespace Sys2Proof.Machine

variable {α : Type} {w : Nat}

/-! ## Numbered lists -/

@[simp] theorem length_numbered (i : Nat) (vs : List α) : (numbered i vs).length = vs.length := by
  induction vs generalizing i with
  | nil => rfl
  | cons v vs ih => simp [numbered, ih]

theorem mem_numbered {i : Nat} {vs : List α} {c : Nat × α} :
    c ∈ numbered i vs ↔ i ≤ c.1 ∧ vs[c.1 - i]? = some c.2 := by
  induction vs generalizing i with
  | nil => simp [numbered]
  | cons v vs ih =>
    obtain ⟨k, x⟩ := c
    simp only [numbered, List.mem_cons, Prod.mk.injEq, ih]
    constructor
    · rintro (⟨rfl, rfl⟩ | ⟨h, hx⟩)
      · simp
      · refine ⟨by omega, ?_⟩
        rw [show k - i = (k - (i + 1)) + 1 by omega]
        simpa using hx
    · rintro ⟨h, hx⟩
      by_cases hk : k = i
      · subst hk; left; simpa [eq_comm] using hx
      · right
        refine ⟨by omega, ?_⟩
        rw [show k - i = (k - (i + 1)) + 1 by omega] at hx
        simpa using hx

/-- A numbered list is the list with its indices. -/
theorem getElem?_numbered (i k : Nat) (vs : List α) :
    (numbered i vs)[k]? = vs[k]?.map fun v => (i + k, v) := by
  induction vs generalizing i k with
  | nil => simp [numbered]
  | cons v vs ih =>
    cases k with
    | zero => simp [numbered]
    | succ k => simp [numbered, ih, Nat.add_comm 1 k, Nat.add_assoc]

theorem lookup_numbered (i j : Nat) (vs : List α) :
    (numbered i vs).lookup j = if i ≤ j then vs[j - i]? else none := by
  induction vs generalizing i with
  | nil => simp [numbered]
  | cons v vs ih =>
    simp only [numbered, List.lookup_cons]
    by_cases h : j = i
    · subst h; simp
    · have hb : (j == i) = false := by simpa using h
      simp only [hb, ih]
      by_cases hi : i + 1 ≤ j
      · rw [if_pos hi, if_pos (by omega), show j - i = (j - (i + 1)) + 1 by omega]
        simp
      · rw [if_neg hi, if_neg (by omega)]

theorem lookup_filter (p : Nat → Bool) (l : List (Nat × α)) (j : Nat) :
    (l.filter fun c => p c.1).lookup j = if p j then l.lookup j else none := by
  induction l with
  | nil => simp
  | cons c l ih =>
    obtain ⟨k, x⟩ := c
    by_cases hk : j = k
    · subst hk
      by_cases hp : p j
      · simp [hp]
      · simp [hp, ih]
    · have hb : (j == k) = false := by simpa using hk
      by_cases hp : p k
      · simp [hp, List.lookup_cons, hb, ih]
      · simp [hp, List.lookup_cons, hb, ih]

/-! ## One array -/

/-- Read after write: a written cell holds the value written, every other cell what it held. -/
theorem Cells.get_write (l : Cells w) (d : Nat → BitVec w) (i j : Nat) (vs : List (BitVec w)) :
    Cells.get (Cells.write l i vs) d j =
      if h : i ≤ j ∧ j < i + vs.length then vs[j - i]'(by omega) else Cells.get l d j := by
  unfold Cells.get Cells.write
  rw [List.lookup_append, List.lookup_append, lookup_filter (fun k => decide (k < i)), lookup_numbered,
    lookup_filter (fun k => decide (i + vs.length ≤ k))]
  by_cases h1 : j < i
  · have h2 : ¬ i ≤ j := by omega
    have h3 : ¬ i + vs.length ≤ j := by omega
    simp [h1, h2, h3]
  · by_cases h2 : i + vs.length ≤ j
    · have h3 : i ≤ j := by omega
      have h4 : vs.length ≤ j - i := by omega
      simp [h1, h2, h3, List.getElem?_eq_none h4, Nat.not_lt.mpr h2]
    · have h3 : i ≤ j := by omega
      have h4 : j - i < vs.length := by omega
      have h5 : j < i + vs.length := by omega
      simp [h1, h2, h3, h4, h5]

theorem Cells.get_write_inside (l : Cells w) (d : Nat → BitVec w) (i k : Nat) (vs : List (BitVec w))
    (h : k < vs.length) : Cells.get (Cells.write l i vs) d (i + k) = vs[k] := by
  simp [Cells.get_write, h]

theorem Cells.get_write_outside (l : Cells w) (d : Nat → BitVec w) (i j : Nat) (vs : List (BitVec w))
    (h : j < i ∨ i + vs.length ≤ j) : Cells.get (Cells.write l i vs) d j = Cells.get l d j := by
  rw [Cells.get_write, dif_neg (by omega)]

/-! ## The canonical form -/

/-- Rising indices, as a chain. -/
theorem Cells.rising_iff (l : Cells w) : Cells.rising l = true ↔ l.Pairwise fun c c' => c.1 < c'.1 := by
  induction l with
  | nil => simp [Cells.rising]
  | cons c l ih =>
    cases l with
    | nil => simp [Cells.rising]
    | cons c' l =>
      rw [Cells.rising, Bool.and_eq_true, ih, decide_eq_true_eq, List.pairwise_cons (l := c' :: l)]
      refine and_congr_left fun h => ⟨fun hc x hx => ?_, fun hx => hx c' (by simp)⟩
      rcases List.mem_cons.mp hx with rfl | hx
      · exact hc
      · exact Nat.lt_trans hc (List.rel_of_pairwise_cons h hx)

theorem pairwise_numbered (i : Nat) (vs : List α) : (numbered i vs).Pairwise fun c c' => c.1 < c'.1 := by
  induction vs generalizing i with
  | nil => simp [numbered]
  | cons v vs ih =>
    refine List.pairwise_cons.mpr ⟨fun c hc => ?_, ih (i + 1)⟩
    have := (mem_numbered.mp hc).1
    exact this

/-- A write keeps the canonical form. -/
theorem Cells.rising_write (l : Cells w) (i : Nat) (vs : List (BitVec w)) (h : Cells.rising l = true) :
    Cells.rising (Cells.write l i vs) = true := by
  rw [Cells.rising_iff] at h ⊢
  unfold Cells.write
  rw [List.append_assoc, List.pairwise_append, List.pairwise_append]
  have hlt : ∀ c ∈ numbered i vs, c.1 < i + vs.length := by
    intro c hc
    obtain ⟨h1, h2⟩ := mem_numbered.mp hc
    have := (List.getElem?_eq_some_iff.mp h2).1
    omega
  refine ⟨h.filter _, ⟨pairwise_numbered i vs, h.filter _, ?_⟩, ?_⟩
  · intro a ha b hb
    have := hlt a ha
    have hb := (List.mem_filter.mp hb).2
    simp only [decide_eq_true_eq] at hb
    omega
  · intro a ha b hb
    have ha := (List.mem_filter.mp ha).2
    simp only [decide_eq_true_eq] at ha
    rcases List.mem_append.mp hb with hb | hb
    · have := (mem_numbered.mp hb).1
      omega
    · have hb := (List.mem_filter.mp hb).2
      simp only [decide_eq_true_eq] at hb
      omega

/-- Two arrays in canonical form that list the same cells are the same data. -/
theorem Cells.ext_of_rising {l l' : Cells w} (h : Cells.rising l = true) (h' : Cells.rising l' = true)
    (hl : ∀ c, c ∈ l ↔ c ∈ l') : l = l' := by
  rw [Cells.rising_iff] at h h'
  have nd : ∀ {l : Cells w}, (l.Pairwise fun c c' => c.1 < c'.1) → l.Nodup := fun h =>
    h.imp fun hlt he => by subst he; omega
  refine ((List.perm_ext_iff_of_nodup (nd h) (nd h')).mpr hl).eq_of_pairwise ?_ h h'
  intro a b _ _ hab hba
  omega

/-! ## The arrays -/

@[simp] theorem Memory.cells_setCells_same (m : Memory) (v : Win) (l : Cells 16) : (m.setCells v l).cells v = l := by
  cases v <;> rfl

theorem Memory.cells_setCells_other (m : Memory) {v u : Win} (l : Cells 16) (h : u ≠ v) :
    (m.setCells v l).cells u = m.cells u := by
  cases v <;> cases u <;> first | rfl | exact absurd rfl h

@[simp] theorem Memory.epoch_setCells (m : Memory) (v : Win) (l : Cells 16) : (m.setCells v l).epoch = m.epoch := by
  cases v <;> rfl

@[simp] theorem Memory.minpoly_setCells (m : Memory) (v : Win) (l : Cells 16) :
    (m.setCells v l).minpoly = m.minpoly := by
  cases v <;> rfl

/-- What a write of an array does to a read of it. -/
theorem Memory.rd_write_same (m : Memory) (v : Win) (i j : Nat) (vs : List Sym) :
    (m.write v i vs).rd v j = if h : i ≤ j ∧ j < i + vs.length then vs[j - i]'(by omega) else m.rd v j := by
  simp only [Memory.rd, Memory.write, Memory.cells_setCells_same, Memory.epoch_setCells]
  exact Cells.get_write _ _ _ _ _

/-- A write of one array leaves every other array alone. -/
theorem Memory.rd_write_other (m : Memory) {v u : Win} (i j : Nat) (vs : List Sym) (h : u ≠ v) :
    (m.write v i vs).rd u j = m.rd u j := by
  simp only [Memory.rd, Memory.write, Memory.cells_setCells_other m _ h, Memory.epoch_setCells]

@[simp] theorem Memory.rdMinpoly_write (m : Memory) (v : Win) (i j : Nat) (vs : List Sym) :
    (m.write v i vs).rdMinpoly j = m.rdMinpoly j := by
  simp [Memory.rdMinpoly, Memory.write]

@[simp] theorem Memory.rd_writeMinpoly (m : Memory) (i j : Nat) (v : Mask) (u : Win) :
    (m.writeMinpoly i v).rd u j = m.rd u j := by
  cases u <;> rfl

theorem Memory.rdMinpoly_writeMinpoly (m : Memory) (i j : Nat) (v : Mask) :
    (m.writeMinpoly i v).rdMinpoly j = if j = i then v else m.rdMinpoly j := by
  simp only [Memory.rdMinpoly, Memory.writeMinpoly, Cells.get_write, List.length_singleton]
  by_cases h : j = i
  · subst h; simp
  · rw [dif_neg (by omega), if_neg h]

@[simp] theorem Memory.epoch_write (m : Memory) (v : Win) (i : Nat) (vs : List Sym) :
    (m.write v i vs).epoch = m.epoch := by
  simp [Memory.write]

@[simp] theorem Memory.length_rdList (m : Memory) (v : Win) (n : Nat) : (m.rdList v n).length = n := by
  simp [Memory.rdList]

theorem Memory.getElem_rdList (m : Memory) (v : Win) (n i : Nat) (h : i < (m.rdList v n).length) :
    (m.rdList v n)[i] = m.rd v i := by
  simp [Memory.rdList]

theorem Memory.getD_rdList (m : Memory) (v : Win) {n i : Nat} (h : i < n) : (m.rdList v n).getD i 0 = m.rd v i := by
  simp [Memory.rdList, h]

/-! ## The canonical form of the arrays -/

theorem Memory.wf_iff (m : Memory) :
    m.wf = true ↔ (∀ v, Cells.rising (m.cells v) = true) ∧ Cells.rising m.minpoly = true := by
  simp only [Memory.wf, Bool.and_eq_true]
  constructor
  · rintro ⟨⟨⟨⟨⟨⟨⟨⟨⟨⟨h1, h2⟩, h3⟩, h4⟩, h5⟩, h6⟩, h7⟩, h8⟩, h9⟩, h10⟩, h11⟩
    refine ⟨fun v => ?_, h11⟩
    cases v <;> assumption
  · rintro ⟨h, h'⟩
    exact ⟨⟨⟨⟨⟨⟨⟨⟨⟨⟨h .expt, h .logt⟩, h .gen⟩, h .code⟩, h .syn⟩, h .lambda⟩, h .omega⟩, h .loc⟩, h .mag⟩,
      h .eras⟩, h'⟩

/-- A write keeps the canonical form. -/
theorem Memory.wf_write (m : Memory) (v : Win) (i : Nat) (vs : List Sym) (h : m.wf = true) :
    (m.write v i vs).wf = true := by
  rw [Memory.wf_iff] at h ⊢
  refine ⟨fun u => ?_, by simpa [Memory.write] using h.2⟩
  by_cases hu : u = v
  · subst hu
    simpa [Memory.write] using Cells.rising_write _ i vs (h.1 u)
  · simpa [Memory.write, Memory.cells_setCells_other m _ hu] using h.1 u

/-- A MINPOLY write keeps the canonical form. -/
theorem Memory.wf_writeMinpoly (m : Memory) (i : Nat) (v : Mask) (h : m.wf = true) :
    (m.writeMinpoly i v).wf = true := by
  rw [Memory.wf_iff] at h ⊢
  exact ⟨fun u => by have hu := h.1 u; cases u <;> exact hu, Cells.rising_write _ i [v] h.2⟩

/-- Arrays just drawn are in canonical form. -/
theorem Memory.wf_drawn (k : Nat) : (Memory.drawn k).wf = true := rfl

end Sys2Proof.Machine
end

