-- ==== Sys2Proof/Laws/State.lean ====
section
/-! SUPPORT. What each named update of the state does to each field, and to each view of the state the commands
read. -/

namespace Sys2Proof.Machine

variable (s : State)

/-! ## complete -/

@[simp] theorem State.complete_engine : (s.complete).engine = .idle := rfl
@[simp] theorem State.complete_done : (s.complete).done = true := rfl
@[simp] theorem State.complete_err : (s.complete).err = s.err := rfl
@[simp] theorem State.complete_errcode : (s.complete).errcode = s.errcode := rfl
@[simp] theorem State.complete_fieldOk : (s.complete).fieldOk = s.fieldOk := rfl
@[simp] theorem State.complete_genOk : (s.complete).genOk = s.genOk := rfl
@[simp] theorem State.complete_ie : (s.complete).ie = s.ie := rfl
@[simp] theorem State.complete_result : (s.complete).result = s.result := rfl
@[simp] theorem State.complete_cfgM : (s.complete).cfgM = s.cfgM := rfl
@[simp] theorem State.complete_cfgPoly : (s.complete).cfgPoly = s.cfgPoly := rfl
@[simp] theorem State.complete_cfgNr : (s.complete).cfgNr = s.cfgNr := rfl
@[simp] theorem State.complete_cfgFcr : (s.complete).cfgFcr = s.cfgFcr := rfl
@[simp] theorem State.complete_cfgBch : (s.complete).cfgBch = s.cfgBch := rfl
@[simp] theorem State.complete_cfgNmp : (s.complete).cfgNmp = s.cfgNmp := rfl
@[simp] theorem State.complete_genNp : (s.complete).genNp = s.genNp := rfl
@[simp] theorem State.complete_genK : (s.complete).genK = s.genK := rfl
@[simp] theorem State.complete_neras : (s.complete).neras = s.neras := rfl
@[simp] theorem State.complete_deg : (s.complete).deg = s.deg := rfl
@[simp] theorem State.complete_loccnt : (s.complete).loccnt = s.loccnt := rfl
@[simp] theorem State.complete_opa : (s.complete).opa = s.opa := rfl
@[simp] theorem State.complete_opb : (s.complete).opb = s.opb := rfl
@[simp] theorem State.complete_opc : (s.complete).opc = s.opc := rfl
@[simp] theorem State.complete_opr : (s.complete).opr = s.opr := rfl
@[simp] theorem State.complete_mem : (s.complete).mem = s.mem := rfl
@[simp] theorem State.complete_inReset : (s.complete).inReset = s.inReset := rfl
@[simp] theorem State.complete_response : (s.complete).response = s.response := rfl
@[simp] theorem State.complete_agenda : (s.complete).agenda = s.agenda := rfl
@[simp] theorem State.complete_draws : (s.complete).draws = s.draws := rfl

/-! ## raiseFault -/

@[simp] theorem State.raiseFault_engine (e : ErrCode) : (s.raiseFault e).engine = .idle := rfl
@[simp] theorem State.raiseFault_done (e : ErrCode) : (s.raiseFault e).done = true := rfl
@[simp] theorem State.raiseFault_err (e : ErrCode) : (s.raiseFault e).err = true := rfl
@[simp] theorem State.raiseFault_errcode (e : ErrCode) : (s.raiseFault e).errcode = e.code := rfl
@[simp] theorem State.raiseFault_fieldOk (e : ErrCode) : (s.raiseFault e).fieldOk = s.fieldOk := rfl
@[simp] theorem State.raiseFault_genOk (e : ErrCode) : (s.raiseFault e).genOk = s.genOk := rfl
@[simp] theorem State.raiseFault_ie (e : ErrCode) : (s.raiseFault e).ie = s.ie := rfl
@[simp] theorem State.raiseFault_result (e : ErrCode) : (s.raiseFault e).result = s.result := rfl
@[simp] theorem State.raiseFault_cfgM (e : ErrCode) : (s.raiseFault e).cfgM = s.cfgM := rfl
@[simp] theorem State.raiseFault_cfgPoly (e : ErrCode) : (s.raiseFault e).cfgPoly = s.cfgPoly := rfl
@[simp] theorem State.raiseFault_cfgNr (e : ErrCode) : (s.raiseFault e).cfgNr = s.cfgNr := rfl
@[simp] theorem State.raiseFault_cfgFcr (e : ErrCode) : (s.raiseFault e).cfgFcr = s.cfgFcr := rfl
@[simp] theorem State.raiseFault_cfgBch (e : ErrCode) : (s.raiseFault e).cfgBch = s.cfgBch := rfl
@[simp] theorem State.raiseFault_cfgNmp (e : ErrCode) : (s.raiseFault e).cfgNmp = s.cfgNmp := rfl
@[simp] theorem State.raiseFault_genNp (e : ErrCode) : (s.raiseFault e).genNp = s.genNp := rfl
@[simp] theorem State.raiseFault_genK (e : ErrCode) : (s.raiseFault e).genK = s.genK := rfl
@[simp] theorem State.raiseFault_neras (e : ErrCode) : (s.raiseFault e).neras = s.neras := rfl
@[simp] theorem State.raiseFault_deg (e : ErrCode) : (s.raiseFault e).deg = s.deg := rfl
@[simp] theorem State.raiseFault_loccnt (e : ErrCode) : (s.raiseFault e).loccnt = s.loccnt := rfl
@[simp] theorem State.raiseFault_opa (e : ErrCode) : (s.raiseFault e).opa = s.opa := rfl
@[simp] theorem State.raiseFault_opb (e : ErrCode) : (s.raiseFault e).opb = s.opb := rfl
@[simp] theorem State.raiseFault_opc (e : ErrCode) : (s.raiseFault e).opc = s.opc := rfl
@[simp] theorem State.raiseFault_opr (e : ErrCode) : (s.raiseFault e).opr = s.opr := rfl
@[simp] theorem State.raiseFault_mem (e : ErrCode) : (s.raiseFault e).mem = s.mem := rfl
@[simp] theorem State.raiseFault_inReset (e : ErrCode) : (s.raiseFault e).inReset = s.inReset := rfl
@[simp] theorem State.raiseFault_response (e : ErrCode) : (s.raiseFault e).response = s.response := rfl
@[simp] theorem State.raiseFault_agenda (e : ErrCode) : (s.raiseFault e).agenda = s.agenda := rfl
@[simp] theorem State.raiseFault_draws (e : ErrCode) : (s.raiseFault e).draws = s.draws := rfl

/-! ## clearFault -/

@[simp] theorem State.clearFault_engine : (s.clearFault).engine = s.engine := rfl
@[simp] theorem State.clearFault_done : (s.clearFault).done = s.done := rfl
@[simp] theorem State.clearFault_err : (s.clearFault).err = false := rfl
@[simp] theorem State.clearFault_errcode : (s.clearFault).errcode = 0 := rfl
@[simp] theorem State.clearFault_fieldOk : (s.clearFault).fieldOk = s.fieldOk := rfl
@[simp] theorem State.clearFault_genOk : (s.clearFault).genOk = s.genOk := rfl
@[simp] theorem State.clearFault_ie : (s.clearFault).ie = s.ie := rfl
@[simp] theorem State.clearFault_result : (s.clearFault).result = s.result := rfl
@[simp] theorem State.clearFault_cfgM : (s.clearFault).cfgM = s.cfgM := rfl
@[simp] theorem State.clearFault_cfgPoly : (s.clearFault).cfgPoly = s.cfgPoly := rfl
@[simp] theorem State.clearFault_cfgNr : (s.clearFault).cfgNr = s.cfgNr := rfl
@[simp] theorem State.clearFault_cfgFcr : (s.clearFault).cfgFcr = s.cfgFcr := rfl
@[simp] theorem State.clearFault_cfgBch : (s.clearFault).cfgBch = s.cfgBch := rfl
@[simp] theorem State.clearFault_cfgNmp : (s.clearFault).cfgNmp = s.cfgNmp := rfl
@[simp] theorem State.clearFault_genNp : (s.clearFault).genNp = s.genNp := rfl
@[simp] theorem State.clearFault_genK : (s.clearFault).genK = s.genK := rfl
@[simp] theorem State.clearFault_neras : (s.clearFault).neras = s.neras := rfl
@[simp] theorem State.clearFault_deg : (s.clearFault).deg = s.deg := rfl
@[simp] theorem State.clearFault_loccnt : (s.clearFault).loccnt = s.loccnt := rfl
@[simp] theorem State.clearFault_opa : (s.clearFault).opa = s.opa := rfl
@[simp] theorem State.clearFault_opb : (s.clearFault).opb = s.opb := rfl
@[simp] theorem State.clearFault_opc : (s.clearFault).opc = s.opc := rfl
@[simp] theorem State.clearFault_opr : (s.clearFault).opr = s.opr := rfl
@[simp] theorem State.clearFault_mem : (s.clearFault).mem = s.mem := rfl
@[simp] theorem State.clearFault_inReset : (s.clearFault).inReset = s.inReset := rfl
@[simp] theorem State.clearFault_response : (s.clearFault).response = s.response := rfl
@[simp] theorem State.clearFault_agenda : (s.clearFault).agenda = s.agenda := rfl
@[simp] theorem State.clearFault_draws : (s.clearFault).draws = s.draws := rfl

/-! ## store -/

@[simp] theorem State.store_engine (w : Win) (i : Nat) (vs : List Sym) : (s.store w i vs).engine = s.engine := rfl
@[simp] theorem State.store_done (w : Win) (i : Nat) (vs : List Sym) : (s.store w i vs).done = s.done := rfl
@[simp] theorem State.store_err (w : Win) (i : Nat) (vs : List Sym) : (s.store w i vs).err = s.err := rfl
@[simp] theorem State.store_errcode (w : Win) (i : Nat) (vs : List Sym) : (s.store w i vs).errcode = s.errcode := rfl
@[simp] theorem State.store_fieldOk (w : Win) (i : Nat) (vs : List Sym) : (s.store w i vs).fieldOk = s.fieldOk := rfl
@[simp] theorem State.store_genOk (w : Win) (i : Nat) (vs : List Sym) : (s.store w i vs).genOk = s.genOk := rfl
@[simp] theorem State.store_ie (w : Win) (i : Nat) (vs : List Sym) : (s.store w i vs).ie = s.ie := rfl
@[simp] theorem State.store_result (w : Win) (i : Nat) (vs : List Sym) : (s.store w i vs).result = s.result := rfl
@[simp] theorem State.store_cfgM (w : Win) (i : Nat) (vs : List Sym) : (s.store w i vs).cfgM = s.cfgM := rfl
@[simp] theorem State.store_cfgPoly (w : Win) (i : Nat) (vs : List Sym) : (s.store w i vs).cfgPoly = s.cfgPoly := rfl
@[simp] theorem State.store_cfgNr (w : Win) (i : Nat) (vs : List Sym) : (s.store w i vs).cfgNr = s.cfgNr := rfl
@[simp] theorem State.store_cfgFcr (w : Win) (i : Nat) (vs : List Sym) : (s.store w i vs).cfgFcr = s.cfgFcr := rfl
@[simp] theorem State.store_cfgBch (w : Win) (i : Nat) (vs : List Sym) : (s.store w i vs).cfgBch = s.cfgBch := rfl
@[simp] theorem State.store_cfgNmp (w : Win) (i : Nat) (vs : List Sym) : (s.store w i vs).cfgNmp = s.cfgNmp := rfl
@[simp] theorem State.store_genNp (w : Win) (i : Nat) (vs : List Sym) : (s.store w i vs).genNp = s.genNp := rfl
@[simp] theorem State.store_genK (w : Win) (i : Nat) (vs : List Sym) : (s.store w i vs).genK = s.genK := rfl
@[simp] theorem State.store_neras (w : Win) (i : Nat) (vs : List Sym) : (s.store w i vs).neras = s.neras := rfl
@[simp] theorem State.store_deg (w : Win) (i : Nat) (vs : List Sym) : (s.store w i vs).deg = s.deg := rfl
@[simp] theorem State.store_loccnt (w : Win) (i : Nat) (vs : List Sym) : (s.store w i vs).loccnt = s.loccnt := rfl
@[simp] theorem State.store_opa (w : Win) (i : Nat) (vs : List Sym) : (s.store w i vs).opa = s.opa := rfl
@[simp] theorem State.store_opb (w : Win) (i : Nat) (vs : List Sym) : (s.store w i vs).opb = s.opb := rfl
@[simp] theorem State.store_opc (w : Win) (i : Nat) (vs : List Sym) : (s.store w i vs).opc = s.opc := rfl
@[simp] theorem State.store_opr (w : Win) (i : Nat) (vs : List Sym) : (s.store w i vs).opr = s.opr := rfl
@[simp] theorem State.store_mem (w : Win) (i : Nat) (vs : List Sym) : (s.store w i vs).mem = s.mem.write w i vs := rfl
@[simp] theorem State.store_inReset (w : Win) (i : Nat) (vs : List Sym) : (s.store w i vs).inReset = s.inReset := rfl
@[simp] theorem State.store_response (w : Win) (i : Nat) (vs : List Sym) : (s.store w i vs).response = s.response := rfl
@[simp] theorem State.store_agenda (w : Win) (i : Nat) (vs : List Sym) : (s.store w i vs).agenda = s.agenda := rfl
@[simp] theorem State.store_draws (w : Win) (i : Nat) (vs : List Sym) : (s.store w i vs).draws = s.draws := rfl

/-! ## answer -/

@[simp] theorem State.answer_engine (o r : Word) : (s.answer o r).engine = s.engine := rfl
@[simp] theorem State.answer_done (o r : Word) : (s.answer o r).done = s.done := rfl
@[simp] theorem State.answer_err (o r : Word) : (s.answer o r).err = s.err := rfl
@[simp] theorem State.answer_errcode (o r : Word) : (s.answer o r).errcode = s.errcode := rfl
@[simp] theorem State.answer_fieldOk (o r : Word) : (s.answer o r).fieldOk = s.fieldOk := rfl
@[simp] theorem State.answer_genOk (o r : Word) : (s.answer o r).genOk = s.genOk := rfl
@[simp] theorem State.answer_ie (o r : Word) : (s.answer o r).ie = s.ie := rfl
@[simp] theorem State.answer_result (o r : Word) : (s.answer o r).result = r := rfl
@[simp] theorem State.answer_cfgM (o r : Word) : (s.answer o r).cfgM = s.cfgM := rfl
@[simp] theorem State.answer_cfgPoly (o r : Word) : (s.answer o r).cfgPoly = s.cfgPoly := rfl
@[simp] theorem State.answer_cfgNr (o r : Word) : (s.answer o r).cfgNr = s.cfgNr := rfl
@[simp] theorem State.answer_cfgFcr (o r : Word) : (s.answer o r).cfgFcr = s.cfgFcr := rfl
@[simp] theorem State.answer_cfgBch (o r : Word) : (s.answer o r).cfgBch = s.cfgBch := rfl
@[simp] theorem State.answer_cfgNmp (o r : Word) : (s.answer o r).cfgNmp = s.cfgNmp := rfl
@[simp] theorem State.answer_genNp (o r : Word) : (s.answer o r).genNp = s.genNp := rfl
@[simp] theorem State.answer_genK (o r : Word) : (s.answer o r).genK = s.genK := rfl
@[simp] theorem State.answer_neras (o r : Word) : (s.answer o r).neras = s.neras := rfl
@[simp] theorem State.answer_deg (o r : Word) : (s.answer o r).deg = s.deg := rfl
@[simp] theorem State.answer_loccnt (o r : Word) : (s.answer o r).loccnt = s.loccnt := rfl
@[simp] theorem State.answer_opa (o r : Word) : (s.answer o r).opa = s.opa := rfl
@[simp] theorem State.answer_opb (o r : Word) : (s.answer o r).opb = s.opb := rfl
@[simp] theorem State.answer_opc (o r : Word) : (s.answer o r).opc = s.opc := rfl
@[simp] theorem State.answer_opr (o r : Word) : (s.answer o r).opr = o := rfl
@[simp] theorem State.answer_mem (o r : Word) : (s.answer o r).mem = s.mem := rfl
@[simp] theorem State.answer_inReset (o r : Word) : (s.answer o r).inReset = s.inReset := rfl
@[simp] theorem State.answer_response (o r : Word) : (s.answer o r).response = s.response := rfl
@[simp] theorem State.answer_agenda (o r : Word) : (s.answer o r).agenda = s.agenda := rfl
@[simp] theorem State.answer_draws (o r : Word) : (s.answer o r).draws = s.draws := rfl

/-! ## decodeFailure -/

@[simp] theorem State.decodeFailure_engine : (s.decodeFailure).engine = s.engine := rfl
@[simp] theorem State.decodeFailure_done : (s.decodeFailure).done = s.done := rfl
@[simp] theorem State.decodeFailure_err : (s.decodeFailure).err = s.err := rfl
@[simp] theorem State.decodeFailure_errcode : (s.decodeFailure).errcode = s.errcode := rfl
@[simp] theorem State.decodeFailure_fieldOk : (s.decodeFailure).fieldOk = s.fieldOk := rfl
@[simp] theorem State.decodeFailure_genOk : (s.decodeFailure).genOk = s.genOk := rfl
@[simp] theorem State.decodeFailure_ie : (s.decodeFailure).ie = s.ie := rfl
@[simp] theorem State.decodeFailure_result : (s.decodeFailure).result = minusOne := rfl
@[simp] theorem State.decodeFailure_cfgM : (s.decodeFailure).cfgM = s.cfgM := rfl
@[simp] theorem State.decodeFailure_cfgPoly : (s.decodeFailure).cfgPoly = s.cfgPoly := rfl
@[simp] theorem State.decodeFailure_cfgNr : (s.decodeFailure).cfgNr = s.cfgNr := rfl
@[simp] theorem State.decodeFailure_cfgFcr : (s.decodeFailure).cfgFcr = s.cfgFcr := rfl
@[simp] theorem State.decodeFailure_cfgBch : (s.decodeFailure).cfgBch = s.cfgBch := rfl
@[simp] theorem State.decodeFailure_cfgNmp : (s.decodeFailure).cfgNmp = s.cfgNmp := rfl
@[simp] theorem State.decodeFailure_genNp : (s.decodeFailure).genNp = s.genNp := rfl
@[simp] theorem State.decodeFailure_genK : (s.decodeFailure).genK = s.genK := rfl
@[simp] theorem State.decodeFailure_neras : (s.decodeFailure).neras = s.neras := rfl
@[simp] theorem State.decodeFailure_deg : (s.decodeFailure).deg = s.deg := rfl
@[simp] theorem State.decodeFailure_loccnt : (s.decodeFailure).loccnt = s.loccnt := rfl
@[simp] theorem State.decodeFailure_opa : (s.decodeFailure).opa = s.opa := rfl
@[simp] theorem State.decodeFailure_opb : (s.decodeFailure).opb = s.opb := rfl
@[simp] theorem State.decodeFailure_opc : (s.decodeFailure).opc = s.opc := rfl
@[simp] theorem State.decodeFailure_opr : (s.decodeFailure).opr = s.opr := rfl
@[simp] theorem State.decodeFailure_mem : (s.decodeFailure).mem = s.mem := rfl
@[simp] theorem State.decodeFailure_inReset : (s.decodeFailure).inReset = s.inReset := rfl
@[simp] theorem State.decodeFailure_response : (s.decodeFailure).response = s.response := rfl
@[simp] theorem State.decodeFailure_agenda : (s.decodeFailure).agenda = s.agenda := rfl
@[simp] theorem State.decodeFailure_draws : (s.decodeFailure).draws = s.draws := rfl

/-! ## invalidateField -/

@[simp] theorem State.invalidateField_engine : (s.invalidateField).engine = s.engine := rfl
@[simp] theorem State.invalidateField_done : (s.invalidateField).done = s.done := rfl
@[simp] theorem State.invalidateField_err : (s.invalidateField).err = s.err := rfl
@[simp] theorem State.invalidateField_errcode : (s.invalidateField).errcode = s.errcode := rfl
@[simp] theorem State.invalidateField_fieldOk : (s.invalidateField).fieldOk = false := rfl
@[simp] theorem State.invalidateField_genOk : (s.invalidateField).genOk = false := rfl
@[simp] theorem State.invalidateField_ie : (s.invalidateField).ie = s.ie := rfl
@[simp] theorem State.invalidateField_result : (s.invalidateField).result = s.result := rfl
@[simp] theorem State.invalidateField_cfgM : (s.invalidateField).cfgM = s.cfgM := rfl
@[simp] theorem State.invalidateField_cfgPoly : (s.invalidateField).cfgPoly = s.cfgPoly := rfl
@[simp] theorem State.invalidateField_cfgNr : (s.invalidateField).cfgNr = s.cfgNr := rfl
@[simp] theorem State.invalidateField_cfgFcr : (s.invalidateField).cfgFcr = s.cfgFcr := rfl
@[simp] theorem State.invalidateField_cfgBch : (s.invalidateField).cfgBch = s.cfgBch := rfl
@[simp] theorem State.invalidateField_cfgNmp : (s.invalidateField).cfgNmp = s.cfgNmp := rfl
@[simp] theorem State.invalidateField_genNp : (s.invalidateField).genNp = s.genNp := rfl
@[simp] theorem State.invalidateField_genK : (s.invalidateField).genK = s.genK := rfl
@[simp] theorem State.invalidateField_neras : (s.invalidateField).neras = s.neras := rfl
@[simp] theorem State.invalidateField_deg : (s.invalidateField).deg = s.deg := rfl
@[simp] theorem State.invalidateField_loccnt : (s.invalidateField).loccnt = s.loccnt := rfl
@[simp] theorem State.invalidateField_opa : (s.invalidateField).opa = s.opa := rfl
@[simp] theorem State.invalidateField_opb : (s.invalidateField).opb = s.opb := rfl
@[simp] theorem State.invalidateField_opc : (s.invalidateField).opc = s.opc := rfl
@[simp] theorem State.invalidateField_opr : (s.invalidateField).opr = s.opr := rfl
@[simp] theorem State.invalidateField_mem : (s.invalidateField).mem = s.mem := rfl
@[simp] theorem State.invalidateField_inReset : (s.invalidateField).inReset = s.inReset := rfl
@[simp] theorem State.invalidateField_response : (s.invalidateField).response = s.response := rfl
@[simp] theorem State.invalidateField_agenda : (s.invalidateField).agenda = s.agenda := rfl
@[simp] theorem State.invalidateField_draws : (s.invalidateField).draws = s.draws := rfl

/-! ## invalidateGen -/

@[simp] theorem State.invalidateGen_engine : (s.invalidateGen).engine = s.engine := rfl
@[simp] theorem State.invalidateGen_done : (s.invalidateGen).done = s.done := rfl
@[simp] theorem State.invalidateGen_err : (s.invalidateGen).err = s.err := rfl
@[simp] theorem State.invalidateGen_errcode : (s.invalidateGen).errcode = s.errcode := rfl
@[simp] theorem State.invalidateGen_fieldOk : (s.invalidateGen).fieldOk = s.fieldOk := rfl
@[simp] theorem State.invalidateGen_genOk : (s.invalidateGen).genOk = false := rfl
@[simp] theorem State.invalidateGen_ie : (s.invalidateGen).ie = s.ie := rfl
@[simp] theorem State.invalidateGen_result : (s.invalidateGen).result = s.result := rfl
@[simp] theorem State.invalidateGen_cfgM : (s.invalidateGen).cfgM = s.cfgM := rfl
@[simp] theorem State.invalidateGen_cfgPoly : (s.invalidateGen).cfgPoly = s.cfgPoly := rfl
@[simp] theorem State.invalidateGen_cfgNr : (s.invalidateGen).cfgNr = s.cfgNr := rfl
@[simp] theorem State.invalidateGen_cfgFcr : (s.invalidateGen).cfgFcr = s.cfgFcr := rfl
@[simp] theorem State.invalidateGen_cfgBch : (s.invalidateGen).cfgBch = s.cfgBch := rfl
@[simp] theorem State.invalidateGen_cfgNmp : (s.invalidateGen).cfgNmp = s.cfgNmp := rfl
@[simp] theorem State.invalidateGen_genNp : (s.invalidateGen).genNp = s.genNp := rfl
@[simp] theorem State.invalidateGen_genK : (s.invalidateGen).genK = s.genK := rfl
@[simp] theorem State.invalidateGen_neras : (s.invalidateGen).neras = s.neras := rfl
@[simp] theorem State.invalidateGen_deg : (s.invalidateGen).deg = s.deg := rfl
@[simp] theorem State.invalidateGen_loccnt : (s.invalidateGen).loccnt = s.loccnt := rfl
@[simp] theorem State.invalidateGen_opa : (s.invalidateGen).opa = s.opa := rfl
@[simp] theorem State.invalidateGen_opb : (s.invalidateGen).opb = s.opb := rfl
@[simp] theorem State.invalidateGen_opc : (s.invalidateGen).opc = s.opc := rfl
@[simp] theorem State.invalidateGen_opr : (s.invalidateGen).opr = s.opr := rfl
@[simp] theorem State.invalidateGen_mem : (s.invalidateGen).mem = s.mem := rfl
@[simp] theorem State.invalidateGen_inReset : (s.invalidateGen).inReset = s.inReset := rfl
@[simp] theorem State.invalidateGen_response : (s.invalidateGen).response = s.response := rfl
@[simp] theorem State.invalidateGen_agenda : (s.invalidateGen).agenda = s.agenda := rfl
@[simp] theorem State.invalidateGen_draws : (s.invalidateGen).draws = s.draws := rfl

/-! ## accept -/

@[simp] theorem State.accept_engine (c : Word) : (s.accept c).engine = .busy c := rfl
@[simp] theorem State.accept_done (c : Word) : (s.accept c).done = false := rfl
@[simp] theorem State.accept_err (c : Word) : (s.accept c).err = s.err := rfl
@[simp] theorem State.accept_errcode (c : Word) : (s.accept c).errcode = s.errcode := rfl
@[simp] theorem State.accept_fieldOk (c : Word) : (s.accept c).fieldOk = s.fieldOk := rfl
@[simp] theorem State.accept_genOk (c : Word) : (s.accept c).genOk = s.genOk := rfl
@[simp] theorem State.accept_ie (c : Word) : (s.accept c).ie = s.ie := rfl
@[simp] theorem State.accept_result (c : Word) : (s.accept c).result = s.result := rfl
@[simp] theorem State.accept_cfgM (c : Word) : (s.accept c).cfgM = s.cfgM := rfl
@[simp] theorem State.accept_cfgPoly (c : Word) : (s.accept c).cfgPoly = s.cfgPoly := rfl
@[simp] theorem State.accept_cfgNr (c : Word) : (s.accept c).cfgNr = s.cfgNr := rfl
@[simp] theorem State.accept_cfgFcr (c : Word) : (s.accept c).cfgFcr = s.cfgFcr := rfl
@[simp] theorem State.accept_cfgBch (c : Word) : (s.accept c).cfgBch = s.cfgBch := rfl
@[simp] theorem State.accept_cfgNmp (c : Word) : (s.accept c).cfgNmp = s.cfgNmp := rfl
@[simp] theorem State.accept_genNp (c : Word) : (s.accept c).genNp = s.genNp := rfl
@[simp] theorem State.accept_genK (c : Word) : (s.accept c).genK = s.genK := rfl
@[simp] theorem State.accept_neras (c : Word) : (s.accept c).neras = s.neras := rfl
@[simp] theorem State.accept_deg (c : Word) : (s.accept c).deg = s.deg := rfl
@[simp] theorem State.accept_loccnt (c : Word) : (s.accept c).loccnt = s.loccnt := rfl
@[simp] theorem State.accept_opa (c : Word) : (s.accept c).opa = s.opa := rfl
@[simp] theorem State.accept_opb (c : Word) : (s.accept c).opb = s.opb := rfl
@[simp] theorem State.accept_opc (c : Word) : (s.accept c).opc = s.opc := rfl
@[simp] theorem State.accept_opr (c : Word) : (s.accept c).opr = s.opr := rfl
@[simp] theorem State.accept_mem (c : Word) : (s.accept c).mem = s.mem := rfl
@[simp] theorem State.accept_inReset (c : Word) : (s.accept c).inReset = s.inReset := rfl
@[simp] theorem State.accept_response (c : Word) : (s.accept c).response = s.response := rfl
@[simp] theorem State.accept_agenda (c : Word) : (s.accept c).agenda = s.agenda := rfl
@[simp] theorem State.accept_draws (c : Word) : (s.accept c).draws = s.draws := rfl

/-! ## respond -/

@[simp] theorem State.respond_engine (r : Response) : (s.respond r).engine = s.engine := rfl
@[simp] theorem State.respond_done (r : Response) : (s.respond r).done = s.done := rfl
@[simp] theorem State.respond_err (r : Response) : (s.respond r).err = s.err := rfl
@[simp] theorem State.respond_errcode (r : Response) : (s.respond r).errcode = s.errcode := rfl
@[simp] theorem State.respond_fieldOk (r : Response) : (s.respond r).fieldOk = s.fieldOk := rfl
@[simp] theorem State.respond_genOk (r : Response) : (s.respond r).genOk = s.genOk := rfl
@[simp] theorem State.respond_ie (r : Response) : (s.respond r).ie = s.ie := rfl
@[simp] theorem State.respond_result (r : Response) : (s.respond r).result = s.result := rfl
@[simp] theorem State.respond_cfgM (r : Response) : (s.respond r).cfgM = s.cfgM := rfl
@[simp] theorem State.respond_cfgPoly (r : Response) : (s.respond r).cfgPoly = s.cfgPoly := rfl
@[simp] theorem State.respond_cfgNr (r : Response) : (s.respond r).cfgNr = s.cfgNr := rfl
@[simp] theorem State.respond_cfgFcr (r : Response) : (s.respond r).cfgFcr = s.cfgFcr := rfl
@[simp] theorem State.respond_cfgBch (r : Response) : (s.respond r).cfgBch = s.cfgBch := rfl
@[simp] theorem State.respond_cfgNmp (r : Response) : (s.respond r).cfgNmp = s.cfgNmp := rfl
@[simp] theorem State.respond_genNp (r : Response) : (s.respond r).genNp = s.genNp := rfl
@[simp] theorem State.respond_genK (r : Response) : (s.respond r).genK = s.genK := rfl
@[simp] theorem State.respond_neras (r : Response) : (s.respond r).neras = s.neras := rfl
@[simp] theorem State.respond_deg (r : Response) : (s.respond r).deg = s.deg := rfl
@[simp] theorem State.respond_loccnt (r : Response) : (s.respond r).loccnt = s.loccnt := rfl
@[simp] theorem State.respond_opa (r : Response) : (s.respond r).opa = s.opa := rfl
@[simp] theorem State.respond_opb (r : Response) : (s.respond r).opb = s.opb := rfl
@[simp] theorem State.respond_opc (r : Response) : (s.respond r).opc = s.opc := rfl
@[simp] theorem State.respond_opr (r : Response) : (s.respond r).opr = s.opr := rfl
@[simp] theorem State.respond_mem (r : Response) : (s.respond r).mem = s.mem := rfl
@[simp] theorem State.respond_inReset (r : Response) : (s.respond r).inReset = s.inReset := rfl
@[simp] theorem State.respond_response (r : Response) : (s.respond r).response = some r := rfl
@[simp] theorem State.respond_agenda (r : Response) : (s.respond r).agenda = s.agenda := rfl
@[simp] theorem State.respond_draws (r : Response) : (s.respond r).draws = s.draws := rfl

/-! ## redraw -/

@[simp] theorem State.redraw_engine : (s.redraw).engine = s.engine := rfl
@[simp] theorem State.redraw_done : (s.redraw).done = s.done := rfl
@[simp] theorem State.redraw_err : (s.redraw).err = s.err := rfl
@[simp] theorem State.redraw_errcode : (s.redraw).errcode = s.errcode := rfl
@[simp] theorem State.redraw_fieldOk : (s.redraw).fieldOk = s.fieldOk := rfl
@[simp] theorem State.redraw_genOk : (s.redraw).genOk = s.genOk := rfl
@[simp] theorem State.redraw_ie : (s.redraw).ie = s.ie := rfl
@[simp] theorem State.redraw_result : (s.redraw).result = s.result := rfl
@[simp] theorem State.redraw_cfgM : (s.redraw).cfgM = s.cfgM := rfl
@[simp] theorem State.redraw_cfgPoly : (s.redraw).cfgPoly = s.cfgPoly := rfl
@[simp] theorem State.redraw_cfgNr : (s.redraw).cfgNr = s.cfgNr := rfl
@[simp] theorem State.redraw_cfgFcr : (s.redraw).cfgFcr = s.cfgFcr := rfl
@[simp] theorem State.redraw_cfgBch : (s.redraw).cfgBch = s.cfgBch := rfl
@[simp] theorem State.redraw_cfgNmp : (s.redraw).cfgNmp = s.cfgNmp := rfl
@[simp] theorem State.redraw_genNp : (s.redraw).genNp = s.genNp := rfl
@[simp] theorem State.redraw_genK : (s.redraw).genK = s.genK := rfl
@[simp] theorem State.redraw_neras : (s.redraw).neras = s.neras := rfl
@[simp] theorem State.redraw_deg : (s.redraw).deg = s.deg := rfl
@[simp] theorem State.redraw_loccnt : (s.redraw).loccnt = s.loccnt := rfl
@[simp] theorem State.redraw_opa : (s.redraw).opa = s.opa := rfl
@[simp] theorem State.redraw_opb : (s.redraw).opb = s.opb := rfl
@[simp] theorem State.redraw_opc : (s.redraw).opc = s.opc := rfl
@[simp] theorem State.redraw_opr : (s.redraw).opr = s.opr := rfl
@[simp] theorem State.redraw_mem : (s.redraw).mem = Memory.drawn s.draws := rfl
@[simp] theorem State.redraw_inReset : (s.redraw).inReset = s.inReset := rfl
@[simp] theorem State.redraw_response : (s.redraw).response = s.response := rfl
@[simp] theorem State.redraw_agenda : (s.redraw).agenda = s.agenda := rfl
@[simp] theorem State.redraw_draws : (s.redraw).draws = s.draws + 1 := rfl

/-! ## resetRegisters -/

@[simp] theorem State.resetRegisters_engine : (s.resetRegisters).engine = .idle := rfl
@[simp] theorem State.resetRegisters_done : (s.resetRegisters).done = false := rfl
@[simp] theorem State.resetRegisters_err : (s.resetRegisters).err = false := rfl
@[simp] theorem State.resetRegisters_errcode : (s.resetRegisters).errcode = 0 := rfl
@[simp] theorem State.resetRegisters_fieldOk : (s.resetRegisters).fieldOk = false := rfl
@[simp] theorem State.resetRegisters_genOk : (s.resetRegisters).genOk = false := rfl
@[simp] theorem State.resetRegisters_ie : (s.resetRegisters).ie = false := rfl
@[simp] theorem State.resetRegisters_result : (s.resetRegisters).result = 0 := rfl
@[simp] theorem State.resetRegisters_cfgM : (s.resetRegisters).cfgM = 0 := rfl
@[simp] theorem State.resetRegisters_cfgPoly : (s.resetRegisters).cfgPoly = 0 := rfl
@[simp] theorem State.resetRegisters_cfgNr : (s.resetRegisters).cfgNr = 0 := rfl
@[simp] theorem State.resetRegisters_cfgFcr : (s.resetRegisters).cfgFcr = 0 := rfl
@[simp] theorem State.resetRegisters_cfgBch : (s.resetRegisters).cfgBch = false := rfl
@[simp] theorem State.resetRegisters_cfgNmp : (s.resetRegisters).cfgNmp = 0 := rfl
@[simp] theorem State.resetRegisters_genNp : (s.resetRegisters).genNp = 0 := rfl
@[simp] theorem State.resetRegisters_genK : (s.resetRegisters).genK = 0 := rfl
@[simp] theorem State.resetRegisters_neras : (s.resetRegisters).neras = 0 := rfl
@[simp] theorem State.resetRegisters_deg : (s.resetRegisters).deg = 0 := rfl
@[simp] theorem State.resetRegisters_loccnt : (s.resetRegisters).loccnt = 0 := rfl
@[simp] theorem State.resetRegisters_opa : (s.resetRegisters).opa = 0 := rfl
@[simp] theorem State.resetRegisters_opb : (s.resetRegisters).opb = 0 := rfl
@[simp] theorem State.resetRegisters_opc : (s.resetRegisters).opc = 0 := rfl
@[simp] theorem State.resetRegisters_opr : (s.resetRegisters).opr = 0 := rfl
@[simp] theorem State.resetRegisters_mem : (s.resetRegisters).mem = s.mem := rfl
@[simp] theorem State.resetRegisters_inReset : (s.resetRegisters).inReset = s.inReset := rfl
@[simp] theorem State.resetRegisters_response : (s.resetRegisters).response = s.response := rfl
@[simp] theorem State.resetRegisters_agenda : (s.resetRegisters).agenda = s.agenda := rfl
@[simp] theorem State.resetRegisters_draws : (s.resetRegisters).draws = s.draws := rfl

/-! ## The views of the state under the updates that leave the arrays and the configuration alone -/

@[simp] theorem State.complete_rd (v : Win) (j : Nat) : (s.complete).rd v j = s.rd v j := rfl
@[simp] theorem State.complete_rdList (v : Win) (k : Nat) : (s.complete).rdList v k = s.rdList v k := rfl
@[simp] theorem State.complete_gf : (s.complete).gf = s.gf := rfl
@[simp] theorem State.complete_q : (s.complete).q = s.q := rfl
@[simp] theorem State.complete_n : (s.complete).n = s.n := rfl
@[simp] theorem State.complete_nr : (s.complete).nr = s.nr := rfl
@[simp] theorem State.complete_fcr : (s.complete).fcr = s.fcr := rfl
@[simp] theorem State.complete_np : (s.complete).np = s.np := rfl
@[simp] theorem State.complete_k : (s.complete).k = s.k := rfl
@[simp] theorem State.complete_erasures : (s.complete).erasures = s.erasures := rfl
@[simp] theorem State.complete_locations : (s.complete).locations = s.locations := rfl
@[simp] theorem State.complete_codeword : (s.complete).codeword = s.codeword := rfl
@[simp] theorem State.complete_minpolys : (s.complete).minpolys = s.minpolys := rfl
@[simp] theorem State.complete_locator : (s.complete).locator = s.locator := rfl
@[simp] theorem State.complete_corrections : (s.complete).corrections = s.corrections := rfl
@[simp] theorem State.complete_generator : (s.complete).generator = s.generator := rfl

@[simp] theorem State.raiseFault_rd (e : ErrCode) (v : Win) (j : Nat) : (s.raiseFault e).rd v j = s.rd v j := rfl
@[simp] theorem State.raiseFault_rdList (e : ErrCode) (v : Win) (k : Nat) : (s.raiseFault e).rdList v k = s.rdList v k := rfl
@[simp] theorem State.raiseFault_gf (e : ErrCode) : (s.raiseFault e).gf = s.gf := rfl
@[simp] theorem State.raiseFault_q (e : ErrCode) : (s.raiseFault e).q = s.q := rfl
@[simp] theorem State.raiseFault_n (e : ErrCode) : (s.raiseFault e).n = s.n := rfl
@[simp] theorem State.raiseFault_nr (e : ErrCode) : (s.raiseFault e).nr = s.nr := rfl
@[simp] theorem State.raiseFault_fcr (e : ErrCode) : (s.raiseFault e).fcr = s.fcr := rfl
@[simp] theorem State.raiseFault_np (e : ErrCode) : (s.raiseFault e).np = s.np := rfl
@[simp] theorem State.raiseFault_k (e : ErrCode) : (s.raiseFault e).k = s.k := rfl
@[simp] theorem State.raiseFault_erasures (e : ErrCode) : (s.raiseFault e).erasures = s.erasures := rfl
@[simp] theorem State.raiseFault_locations (e : ErrCode) : (s.raiseFault e).locations = s.locations := rfl
@[simp] theorem State.raiseFault_codeword (e : ErrCode) : (s.raiseFault e).codeword = s.codeword := rfl
@[simp] theorem State.raiseFault_minpolys (e : ErrCode) : (s.raiseFault e).minpolys = s.minpolys := rfl
@[simp] theorem State.raiseFault_locator (e : ErrCode) : (s.raiseFault e).locator = s.locator := rfl
@[simp] theorem State.raiseFault_corrections (e : ErrCode) : (s.raiseFault e).corrections = s.corrections := rfl
@[simp] theorem State.raiseFault_generator (e : ErrCode) : (s.raiseFault e).generator = s.generator := rfl

@[simp] theorem State.answer_rd (o r : Word) (v : Win) (j : Nat) : (s.answer o r).rd v j = s.rd v j := rfl
@[simp] theorem State.answer_rdList (o r : Word) (v : Win) (k : Nat) : (s.answer o r).rdList v k = s.rdList v k := rfl
@[simp] theorem State.answer_gf (o r : Word) : (s.answer o r).gf = s.gf := rfl
@[simp] theorem State.answer_q (o r : Word) : (s.answer o r).q = s.q := rfl
@[simp] theorem State.answer_n (o r : Word) : (s.answer o r).n = s.n := rfl
@[simp] theorem State.answer_nr (o r : Word) : (s.answer o r).nr = s.nr := rfl
@[simp] theorem State.answer_fcr (o r : Word) : (s.answer o r).fcr = s.fcr := rfl
@[simp] theorem State.answer_np (o r : Word) : (s.answer o r).np = s.np := rfl
@[simp] theorem State.answer_k (o r : Word) : (s.answer o r).k = s.k := rfl
@[simp] theorem State.answer_erasures (o r : Word) : (s.answer o r).erasures = s.erasures := rfl
@[simp] theorem State.answer_locations (o r : Word) : (s.answer o r).locations = s.locations := rfl
@[simp] theorem State.answer_codeword (o r : Word) : (s.answer o r).codeword = s.codeword := rfl
@[simp] theorem State.answer_minpolys (o r : Word) : (s.answer o r).minpolys = s.minpolys := rfl
@[simp] theorem State.answer_locator (o r : Word) : (s.answer o r).locator = s.locator := rfl
@[simp] theorem State.answer_corrections (o r : Word) : (s.answer o r).corrections = s.corrections := rfl
@[simp] theorem State.answer_generator (o r : Word) : (s.answer o r).generator = s.generator := rfl

@[simp] theorem State.decodeFailure_rd (v : Win) (j : Nat) : (s.decodeFailure).rd v j = s.rd v j := rfl
@[simp] theorem State.decodeFailure_rdList (v : Win) (k : Nat) : (s.decodeFailure).rdList v k = s.rdList v k := rfl
@[simp] theorem State.decodeFailure_gf : (s.decodeFailure).gf = s.gf := rfl
@[simp] theorem State.decodeFailure_q : (s.decodeFailure).q = s.q := rfl
@[simp] theorem State.decodeFailure_n : (s.decodeFailure).n = s.n := rfl
@[simp] theorem State.decodeFailure_nr : (s.decodeFailure).nr = s.nr := rfl
@[simp] theorem State.decodeFailure_fcr : (s.decodeFailure).fcr = s.fcr := rfl
@[simp] theorem State.decodeFailure_np : (s.decodeFailure).np = s.np := rfl
@[simp] theorem State.decodeFailure_k : (s.decodeFailure).k = s.k := rfl
@[simp] theorem State.decodeFailure_erasures : (s.decodeFailure).erasures = s.erasures := rfl
@[simp] theorem State.decodeFailure_locations : (s.decodeFailure).locations = s.locations := rfl
@[simp] theorem State.decodeFailure_codeword : (s.decodeFailure).codeword = s.codeword := rfl
@[simp] theorem State.decodeFailure_minpolys : (s.decodeFailure).minpolys = s.minpolys := rfl
@[simp] theorem State.decodeFailure_locator : (s.decodeFailure).locator = s.locator := rfl
@[simp] theorem State.decodeFailure_corrections : (s.decodeFailure).corrections = s.corrections := rfl
@[simp] theorem State.decodeFailure_generator : (s.decodeFailure).generator = s.generator := rfl

@[simp] theorem State.invalidateField_rd (v : Win) (j : Nat) : (s.invalidateField).rd v j = s.rd v j := rfl
@[simp] theorem State.invalidateField_rdList (v : Win) (k : Nat) : (s.invalidateField).rdList v k = s.rdList v k := rfl
@[simp] theorem State.invalidateField_gf : (s.invalidateField).gf = s.gf := rfl
@[simp] theorem State.invalidateField_q : (s.invalidateField).q = s.q := rfl
@[simp] theorem State.invalidateField_n : (s.invalidateField).n = s.n := rfl
@[simp] theorem State.invalidateField_nr : (s.invalidateField).nr = s.nr := rfl
@[simp] theorem State.invalidateField_fcr : (s.invalidateField).fcr = s.fcr := rfl
@[simp] theorem State.invalidateField_np : (s.invalidateField).np = s.np := rfl
@[simp] theorem State.invalidateField_k : (s.invalidateField).k = s.k := rfl
@[simp] theorem State.invalidateField_erasures : (s.invalidateField).erasures = s.erasures := rfl
@[simp] theorem State.invalidateField_locations : (s.invalidateField).locations = s.locations := rfl
@[simp] theorem State.invalidateField_codeword : (s.invalidateField).codeword = s.codeword := rfl
@[simp] theorem State.invalidateField_minpolys : (s.invalidateField).minpolys = s.minpolys := rfl
@[simp] theorem State.invalidateField_locator : (s.invalidateField).locator = s.locator := rfl
@[simp] theorem State.invalidateField_corrections : (s.invalidateField).corrections = s.corrections := rfl
@[simp] theorem State.invalidateField_generator : (s.invalidateField).generator = s.generator := rfl

@[simp] theorem State.invalidateGen_rd (v : Win) (j : Nat) : (s.invalidateGen).rd v j = s.rd v j := rfl
@[simp] theorem State.invalidateGen_rdList (v : Win) (k : Nat) : (s.invalidateGen).rdList v k = s.rdList v k := rfl
@[simp] theorem State.invalidateGen_gf : (s.invalidateGen).gf = s.gf := rfl
@[simp] theorem State.invalidateGen_q : (s.invalidateGen).q = s.q := rfl
@[simp] theorem State.invalidateGen_n : (s.invalidateGen).n = s.n := rfl
@[simp] theorem State.invalidateGen_nr : (s.invalidateGen).nr = s.nr := rfl
@[simp] theorem State.invalidateGen_fcr : (s.invalidateGen).fcr = s.fcr := rfl
@[simp] theorem State.invalidateGen_np : (s.invalidateGen).np = s.np := rfl
@[simp] theorem State.invalidateGen_k : (s.invalidateGen).k = s.k := rfl
@[simp] theorem State.invalidateGen_erasures : (s.invalidateGen).erasures = s.erasures := rfl
@[simp] theorem State.invalidateGen_locations : (s.invalidateGen).locations = s.locations := rfl
@[simp] theorem State.invalidateGen_codeword : (s.invalidateGen).codeword = s.codeword := rfl
@[simp] theorem State.invalidateGen_minpolys : (s.invalidateGen).minpolys = s.minpolys := rfl
@[simp] theorem State.invalidateGen_locator : (s.invalidateGen).locator = s.locator := rfl
@[simp] theorem State.invalidateGen_corrections : (s.invalidateGen).corrections = s.corrections := rfl
@[simp] theorem State.invalidateGen_generator : (s.invalidateGen).generator = s.generator := rfl

@[simp] theorem State.accept_rd (c : Word) (v : Win) (j : Nat) : (s.accept c).rd v j = s.rd v j := rfl
@[simp] theorem State.accept_rdList (c : Word) (v : Win) (k : Nat) : (s.accept c).rdList v k = s.rdList v k := rfl
@[simp] theorem State.accept_gf (c : Word) : (s.accept c).gf = s.gf := rfl
@[simp] theorem State.accept_q (c : Word) : (s.accept c).q = s.q := rfl
@[simp] theorem State.accept_n (c : Word) : (s.accept c).n = s.n := rfl
@[simp] theorem State.accept_nr (c : Word) : (s.accept c).nr = s.nr := rfl
@[simp] theorem State.accept_fcr (c : Word) : (s.accept c).fcr = s.fcr := rfl
@[simp] theorem State.accept_np (c : Word) : (s.accept c).np = s.np := rfl
@[simp] theorem State.accept_k (c : Word) : (s.accept c).k = s.k := rfl
@[simp] theorem State.accept_erasures (c : Word) : (s.accept c).erasures = s.erasures := rfl
@[simp] theorem State.accept_locations (c : Word) : (s.accept c).locations = s.locations := rfl
@[simp] theorem State.accept_codeword (c : Word) : (s.accept c).codeword = s.codeword := rfl
@[simp] theorem State.accept_minpolys (c : Word) : (s.accept c).minpolys = s.minpolys := rfl
@[simp] theorem State.accept_locator (c : Word) : (s.accept c).locator = s.locator := rfl
@[simp] theorem State.accept_corrections (c : Word) : (s.accept c).corrections = s.corrections := rfl
@[simp] theorem State.accept_generator (c : Word) : (s.accept c).generator = s.generator := rfl

@[simp] theorem State.respond_rd (r : Response) (v : Win) (j : Nat) : (s.respond r).rd v j = s.rd v j := rfl
@[simp] theorem State.respond_rdList (r : Response) (v : Win) (k : Nat) : (s.respond r).rdList v k = s.rdList v k := rfl
@[simp] theorem State.respond_gf (r : Response) : (s.respond r).gf = s.gf := rfl
@[simp] theorem State.respond_q (r : Response) : (s.respond r).q = s.q := rfl
@[simp] theorem State.respond_n (r : Response) : (s.respond r).n = s.n := rfl
@[simp] theorem State.respond_nr (r : Response) : (s.respond r).nr = s.nr := rfl
@[simp] theorem State.respond_fcr (r : Response) : (s.respond r).fcr = s.fcr := rfl
@[simp] theorem State.respond_np (r : Response) : (s.respond r).np = s.np := rfl
@[simp] theorem State.respond_k (r : Response) : (s.respond r).k = s.k := rfl
@[simp] theorem State.respond_erasures (r : Response) : (s.respond r).erasures = s.erasures := rfl
@[simp] theorem State.respond_locations (r : Response) : (s.respond r).locations = s.locations := rfl
@[simp] theorem State.respond_codeword (r : Response) : (s.respond r).codeword = s.codeword := rfl
@[simp] theorem State.respond_minpolys (r : Response) : (s.respond r).minpolys = s.minpolys := rfl
@[simp] theorem State.respond_locator (r : Response) : (s.respond r).locator = s.locator := rfl
@[simp] theorem State.respond_corrections (r : Response) : (s.respond r).corrections = s.corrections := rfl
@[simp] theorem State.respond_generator (r : Response) : (s.respond r).generator = s.generator := rfl

/-! ## The views under a store -/

section store

variable {s} {v : Win} {i : Nat} {vs : List Sym}

@[simp] theorem State.store_q : (s.store v i vs).q = s.q := rfl
@[simp] theorem State.store_n : (s.store v i vs).n = s.n := rfl
@[simp] theorem State.store_nr : (s.store v i vs).nr = s.nr := rfl
@[simp] theorem State.store_fcr : (s.store v i vs).fcr = s.fcr := rfl
@[simp] theorem State.store_np : (s.store v i vs).np = s.np := rfl
@[simp] theorem State.store_k : (s.store v i vs).k = s.k := rfl

@[simp] theorem State.store_minpolys : (s.store v i vs).minpolys = s.minpolys := by
  simp [State.minpolys]

/-- Read after write, in the array written. -/
theorem State.store_rd_same (j : Nat) :
    (s.store v i vs).rd v j = if h : i ≤ j ∧ j < i + vs.length then vs[j - i]'(by omega) else s.rd v j :=
  Memory.rd_write_same _ _ _ _ _

/-- A store leaves every other array alone. -/
theorem State.store_rd_other {u : Win} (j : Nat) (h : u ≠ v) : (s.store v i vs).rd u j = s.rd u j :=
  Memory.rd_write_other _ _ _ _ h

theorem State.store_rdList_other {u : Win} (k : Nat) (h : u ≠ v) : (s.store v i vs).rdList u k = s.rdList u k := by
  simp [State.rdList, Memory.rdList, Memory.rd_write_other _ _ _ _ h]

/-- The list stored reads back. -/
theorem State.store_rdList_same : (s.store v 0 vs).rdList v vs.length = vs := by
  apply List.ext_getElem
  · simp [State.rdList]
  · intro j h1 h2
    simp only [State.rdList, Memory.getElem_rdList, State.store_mem, Memory.rd_write_same]
    rw [dif_pos (by omega)]
    simp

/-- A store outside the tables leaves the field alone. -/
theorem State.store_gf (h : v ≠ .expt) (h' : v ≠ .logt) : (s.store v i vs).gf = s.gf := by
  simp [State.gf, State.store_rd_other _ (Ne.symm h), State.store_rd_other _ (Ne.symm h')]

theorem State.store_erasures (h : v ≠ .eras) : (s.store v i vs).erasures = s.erasures := by
  simp [State.erasures, State.store_rdList_other _ (Ne.symm h)]

end store

end Sys2Proof.Machine
end

