-- ==== Sys2Proof/Laws/Field.lean ====
section
/-! SUPPORT. The field: next is linear, the tables hold its powers, and with built tables the field functions obey the
laws of a field (40_field.md R140 to R150). -/

namespace Sys2Proof.Machine

/-! ## next -/

@[simp] theorem nextPower_zero (m : Nat) (poly : Mask) : nextPower m poly 0 = 0 := by
  simp [nextPower]

/-- next is linear over XOR. -/
theorem nextPower_xor (m : Nat) (poly : Mask) (a b : Sym) :
    nextPower m poly (a ^^^ b) = nextPower m poly a ^^^ nextPower m poly b := by
  have hxor : ∀ x y p : Sym, x ^^^ y = x ^^^ p ^^^ (y ^^^ p) := fun x y p => by
    rw [BitVec.xor_comm y p, BitVec.xor_assoc, ← BitVec.xor_assoc p p y, BitVec.xor_self, BitVec.zero_xor]
  unfold nextPower
  simp only [BitVec.getLsbD_xor, BitVec.setWidth_xor, BitVec.shiftLeft_xor_distrib]
  cases a.getLsbD (m - 1) <;> cases b.getLsbD (m - 1) <;>
    simp only [Bool.xor_false, Bool.xor_true, Bool.not_true, Bool.not_false, if_true, if_false, Bool.false_eq_true,
      BitVec.setWidth_xor]
  · ac_rfl
  · ac_rfl
  · exact hxor _ _ _

/-- next^i is linear over XOR. -/
theorem nextIter_xor (m : Nat) (poly : Mask) (i : Nat) (a b : Sym) :
    (nextPower m poly)^[i] (a ^^^ b) = (nextPower m poly)^[i] a ^^^ (nextPower m poly)^[i] b := by
  induction i generalizing a b with
  | zero => rfl
  | succ i ih => simp only [Function.iterate_succ, Function.comp_apply, nextPower_xor, ih]

@[simp] theorem nextIter_zero (m : Nat) (poly : Mask) (i : Nat) : (nextPower m poly)^[i] 0 = 0 := by
  induction i with
  | zero => rfl
  | succ i ih => simp only [Function.iterate_succ, Function.comp_apply, nextPower_zero, ih]

/-- A 16-bit value below 2^M has no bit from M up. -/
theorem lt_two_pow_iff (a : BitVec w) (m : Nat) : a.toNat < 2 ^ m ↔ ∀ i, m ≤ i → a.getLsbD i = false := by
  constructor
  · intro h i hi
    rw [BitVec.getLsbD]
    exact Nat.testBit_lt_two_pow (Nat.lt_of_lt_of_le h (Nat.pow_le_pow_right (by omega) hi))
  · intro h
    apply Nat.lt_pow_two_of_testBit
    intro i hi
    simpa [BitVec.getLsbD] using h i hi

/-- next keeps values below Q (R140). -/
theorem nextPower_lt {m : Nat} {poly : Mask} (hm : 1 ≤ m) (hp : poly.getLsbD m = true)
    (hz : ∀ b, m < b → poly.getLsbD b = false) {a : Sym} (ha : a.toNat < 2 ^ m) :
    (nextPower m poly a).toNat < 2 ^ m := by
  rw [lt_two_pow_iff] at ha ⊢
  intro i hi
  unfold nextPower
  by_cases h16 : i < 16
  · have hi0 : ¬ i < 1 := by omega
    cases hb : a.getLsbD (m - 1)
    · simp only [Bool.false_eq_true, if_false, BitVec.getLsbD_setWidth, BitVec.getLsbD_shiftLeft]
      by_cases hi' : i = m
      · subst hi'; simp [hb]
      · simp [ha (i - 1) (by omega)]
    · simp only [if_true, BitVec.getLsbD_setWidth, BitVec.getLsbD_shiftLeft, BitVec.getLsbD_xor]
      by_cases hi' : i = m
      · subst hi'
        have : (i - 1 < 17) = True := by simp; omega
        simp [hb, hp, hi0, this]
        omega
      · simp [hz i (by omega), ha (i - 1) (by omega)]
  · exact BitVec.getLsbD_of_ge _ _ (by omega)

theorem nextIter_lt {m : Nat} {poly : Mask} (hm : 1 ≤ m) (hp : poly.getLsbD m = true)
    (hz : ∀ b, m < b → poly.getLsbD b = false) (i : Nat) {a : Sym} (ha : a.toNat < 2 ^ m) :
    ((nextPower m poly)^[i] a).toNat < 2 ^ m := by
  induction i generalizing a with
  | zero => exact ha
  | succ i ih =>
    rw [Function.iterate_succ, Function.comp_apply]
    exact ih (nextPower_lt hm hp hz ha)

/-! ## Products and sums in any view -/

theorem zero_gmul (F : GF) (a : Sym) : gmul F 0 a = 0 := by simp [gmul]

theorem gmul_zero (F : GF) (a : Sym) : gmul F a 0 = 0 := by simp [gmul]

theorem gmul_comm (F : GF) (a b : Sym) : gmul F a b = gmul F b a := by
  unfold gmul
  simp only [or_comm, Nat.add_comm]

/-- Fused multiply-add is a product and a sum (R147). -/
theorem gfma_eq (F : GF) (a b c : Sym) : gfma F a b c = gmul F a b ^^^ c := by
  unfold gfma
  split
  · rename_i h0
    rcases h0 with rfl | rfl
    · rw [zero_gmul]; simp
    · rw [gmul_zero]; simp
  · rfl

/-! ## The powers of the primitive element -/

namespace State.TablesBuilt

variable {s : State} (h : s.TablesBuilt)
include h

theorem one_lt_q : 4 ≤ s.q := by
  have h2 := h.config.m_range.1
  calc 4 = 2 ^ 2 := rfl
    _ ≤ 2 ^ s.cfgM.toNat := Nat.pow_le_pow_right (by omega) h2

theorem q_eq : s.q = s.n + 1 := by
  have := h.one_lt_q
  simp only [State.q, State.n] at *
  omega

theorem three_le_n : 3 ≤ s.n := by
  have := h.one_lt_q
  have := h.q_eq
  omega

theorem q_le : s.q ≤ 65536 := by
  calc s.q = 2 ^ s.cfgM.toNat := rfl
    _ ≤ 2 ^ 16 := Nat.pow_le_pow_right (by omega) h.config.m_range.2

theorem iterate_lt (i : Nat) {a : Sym} (ha : a.toNat < s.q) :
    ((nextPower s.cfgM.toNat s.cfgPoly)^[i] a).toNat < s.q :=
  nextIter_lt (by have := h.config.m_range.1; omega) h.config.degree.1 h.config.degree.2 i ha

theorem one_lt : (1 : Sym).toNat < s.q := by
  have := h.one_lt_q
  simp; omega

theorem power_lt (i : Nat) : (s.power i).toNat < s.q := h.iterate_lt i h.one_lt

omit h in
@[simp] theorem power_zero : s.power 0 = 1 := rfl

omit h in
theorem iterate_power (i j : Nat) : (nextPower s.cfgM.toNat s.cfgPoly)^[i] (s.power j) = s.power (i + j) := by
  simp only [State.power, ← Function.iterate_add_apply]

theorem power_add_n (i : Nat) : s.power (i + s.n) = s.power i := by
  rw [← iterate_power i s.n, h.config.returns]; rfl

theorem power_mod (i : Nat) : s.power (i % s.n) = s.power i := by
  have hk : ∀ k r, s.power (r + s.n * k) = s.power r := by
    intro k
    induction k with
    | zero => simp
    | succ k ih => intro r; rw [Nat.mul_succ, ← Nat.add_assoc, h.power_add_n, ih]
  conv => rhs; rw [← Nat.mod_add_div i s.n]
  exact (hk _ _).symm

theorem power_ne_zero (i : Nat) : s.power i ≠ 0 := by
  intro h0
  have h3 := h.three_le_n
  have : s.power ((s.n - i % s.n) + i % s.n) = 0 := by
    rw [← iterate_power, h.power_mod, h0, nextIter_zero]
  rw [Nat.sub_add_cancel (Nat.mod_lt _ (by omega)).le, h.config.returns] at this
  exact absurd this (by decide)

/-- The powers below N are distinct (R142). -/
theorem power_inj {i j : Nat} (hi : i < s.n) (hj : j < s.n) (he : s.power i = s.power j) : i = j := by
  have key : ∀ {i j : Nat}, i < j → j < s.n → s.power i ≠ s.power j := by
    intro i j hij hj he
    have : s.power ((s.n - j) + i) = s.power ((s.n - j) + j) := by
      rw [← iterate_power, ← iterate_power, he]
    rw [Nat.sub_add_cancel hj.le, h.config.returns] at this
    exact h.config.first_return _ (by omega) (by omega) this
  rcases Nat.lt_trichotomy i j with hlt | rfl | hlt
  · exact absurd he (key hlt hj)
  · rfl
  · exact absurd he.symm (key hlt hi)

/-! ## The tables -/

theorem pe_eq (k : Int) : s.gf.pe k = s.power (k % (s.n : Int)).toNat := by
  have h3 := h.three_le_n
  have h1 : 0 ≤ k % (s.n : Int) := Int.emod_nonneg _ (by omega)
  have h2 : k % (s.n : Int) < s.n := Int.emod_lt_of_pos _ (by omega)
  have hn : s.gf.n = s.n := rfl
  rw [GF.pe, hn]
  exact h.exp _ (by omega)

theorem pe_natCast (k : Nat) : s.gf.pe (k : Int) = s.power k := by
  rw [h.pe_eq, ← Int.natCast_emod, Int.toNat_natCast, h.power_mod]

theorem pe_lt (k : Int) : (s.gf.pe k).toNat < s.q := by rw [h.pe_eq]; exact h.power_lt _

theorem pe_ne_zero (k : Int) : s.gf.pe k ≠ 0 := by rw [h.pe_eq]; exact h.power_ne_zero _

theorem logOf_lt {v : Sym} (hv : v ≠ 0) (hq : v.toNat < s.q) : s.logOf v < s.n :=
  (h.log v hv (by have := h.q_eq; omega)).1

theorem power_logOf {v : Sym} (hv : v ≠ 0) (hq : v.toNat < s.q) : s.power (s.logOf v) = v := by
  obtain ⟨h1, h2⟩ := h.log v hv (by have := h.q_eq; omega)
  rw [← h.exp _ h1, h2]

theorem logOf_power (i : Nat) : s.logOf (s.power i) = i % s.n := by
  have h3 := h.three_le_n
  refine h.power_inj (h.logOf_lt (h.power_ne_zero i) (h.power_lt i)) (Nat.mod_lt _ (by omega)) ?_
  rw [h.power_logOf (h.power_ne_zero i) (h.power_lt i), h.power_mod]

/-- Every nonzero value is a power. -/
theorem exists_power {v : Sym} (hv : v ≠ 0) (hq : v.toNat < s.q) : ∃ i, i < s.n ∧ v = s.power i :=
  ⟨s.logOf v, h.logOf_lt hv hq, (h.power_logOf hv hq).symm⟩

/-! ## Multiplication -/

theorem gmul_power_power (i j : Nat) : gmul s.gf (s.power i) (s.power j) = s.power (i + j) := by
  have h3 := h.three_le_n
  have hlog : ∀ k, s.gf.log (s.power k) = k % s.n := h.logOf_power
  have hn : s.gf.n = s.n := rfl
  rw [gmul, if_neg (not_or.mpr ⟨h.power_ne_zero i, h.power_ne_zero j⟩)]
  rw [hlog, hlog, hn, ← Nat.add_mod]
  rw [← h.power_mod]
  exact h.exp _ (Nat.mod_lt _ (by omega))

/-- A product by a power of the primitive element is a shift of the linear recurrence. -/
theorem gmul_power (i : Nat) {b : Sym} (hb : b.toNat < s.q) :
    gmul s.gf (s.power i) b = (nextPower s.cfgM.toNat s.cfgPoly)^[i] b := by
  by_cases h0 : b = 0
  · subst h0; rw [gmul_zero, nextIter_zero]
  · obtain ⟨j, -, rfl⟩ := h.exists_power h0 hb
    rw [h.gmul_power_power, iterate_power]

theorem gmul_lt {a b : Sym} (ha : a.toNat < s.q) (hb : b.toNat < s.q) : (gmul s.gf a b).toNat < s.q := by
  by_cases h0 : a = 0
  · subst h0; rw [zero_gmul]; have := h.one_lt_q; simp; omega
  · obtain ⟨i, -, rfl⟩ := h.exists_power h0 ha
    rw [h.gmul_power i hb]; exact h.iterate_lt i hb

theorem gmul_assoc {a b c : Sym} (ha : a.toNat < s.q) (hb : b.toNat < s.q) (hc : c.toNat < s.q) :
    gmul s.gf (gmul s.gf a b) c = gmul s.gf a (gmul s.gf b c) := by
  by_cases h0 : a = 0
  · subst h0; simp only [zero_gmul]
  by_cases h1 : b = 0
  · subst h1; simp only [zero_gmul, gmul_zero]
  by_cases h2 : c = 0
  · subst h2; simp only [gmul_zero]
  obtain ⟨i, -, rfl⟩ := h.exists_power h0 ha
  obtain ⟨j, -, rfl⟩ := h.exists_power h1 hb
  obtain ⟨k, -, rfl⟩ := h.exists_power h2 hc
  simp only [h.gmul_power_power, Nat.add_assoc]

theorem one_gmul {a : Sym} (ha : a.toNat < s.q) : gmul s.gf 1 a = a := by
  rw [← power_zero (s := s), h.gmul_power 0 ha]; rfl

theorem gmul_one {a : Sym} (ha : a.toNat < s.q) : gmul s.gf a 1 = a := by
  rw [gmul_comm, h.one_gmul ha]

omit h in
/-- A sum of values is a value (R143). -/
theorem xor_lt {a b : Sym} (ha : a.toNat < s.q) (hb : b.toNat < s.q) : (a ^^^ b).toNat < s.q := by
  rw [BitVec.toNat_xor]; exact Nat.xor_lt_two_pow ha hb

/-- Multiplication distributes over addition (R144). -/
theorem gmul_xor {a b c : Sym} (ha : a.toNat < s.q) (hb : b.toNat < s.q) (hc : c.toNat < s.q) :
    gmul s.gf a (b ^^^ c) = gmul s.gf a b ^^^ gmul s.gf a c := by
  by_cases h0 : a = 0
  · subst h0; simp only [zero_gmul, BitVec.xor_self]; rfl
  obtain ⟨i, -, rfl⟩ := h.exists_power h0 ha
  rw [h.gmul_power i (xor_lt hb hc), h.gmul_power i hb, h.gmul_power i hc, nextIter_xor]

theorem xor_gmul {a b c : Sym} (ha : a.toNat < s.q) (hb : b.toNat < s.q) (hc : c.toNat < s.q) :
    gmul s.gf (a ^^^ b) c = gmul s.gf a c ^^^ gmul s.gf b c := by
  rw [gmul_comm, h.gmul_xor hc ha hb, gmul_comm s.gf c a, gmul_comm s.gf c b]

/-- There are no zero divisors. -/
theorem gmul_eq_zero {a b : Sym} (ha : a.toNat < s.q) (hb : b.toNat < s.q) :
    gmul s.gf a b = 0 ↔ a = 0 ∨ b = 0 := by
  constructor
  · intro h0
    by_contra hne
    push Not at hne
    obtain ⟨i, -, rfl⟩ := h.exists_power hne.1 ha
    obtain ⟨j, -, rfl⟩ := h.exists_power hne.2 hb
    rw [h.gmul_power_power] at h0
    exact h.power_ne_zero _ h0
  · rintro (rfl | rfl)
    · exact zero_gmul _ _
    · exact gmul_zero _ _

/-! ## Powers, reciprocals and quotients -/

theorem pe_zero : s.gf.pe 0 = 1 := by
  rw [h.pe_eq]; simp

theorem pe_add (i j : Int) : gmul s.gf (s.gf.pe i) (s.gf.pe j) = s.gf.pe (i + j) := by
  have h3 := h.three_le_n
  rw [h.pe_eq i, h.pe_eq j, h.gmul_power_power, ← h.pe_natCast, h.pe_eq, h.pe_eq]
  have hi : 0 ≤ i % (s.n : Int) := Int.emod_nonneg _ (by omega)
  have hj : 0 ≤ j % (s.n : Int) := Int.emod_nonneg _ (by omega)
  rw [Nat.cast_add, Int.toNat_of_nonneg hi, Int.toNat_of_nonneg hj, ← Int.add_emod]

theorem pe_logOf {v : Sym} (hv : v ≠ 0) (hq : v.toNat < s.q) : s.gf.pe (s.logOf v : Int) = v := by
  rw [h.pe_natCast, h.power_logOf hv hq]

/-- A reciprocal times its value is 1 (R146). -/
theorem ginv_gmul {a : Sym} (ha : a ≠ 0) (hq : a.toNat < s.q) : gmul s.gf (ginv s.gf a) a = 1 := by
  have h3 := h.three_le_n
  have hl : gmul s.gf (ginv s.gf a) a =
      gmul s.gf (s.gf.pe ((s.n : Int) - (s.logOf a : Int))) (s.gf.pe (s.logOf a : Int)) := by
    rw [h.pe_logOf ha hq]; rfl
  rw [hl, h.pe_add, Int.sub_add_cancel, h.pe_eq, Int.emod_self]
  rfl

/-- A quotient times its divisor is the dividend (R145). -/
theorem gdiv_gmul {a b : Sym} (ha : a.toNat < s.q) (hb : b ≠ 0) (hq : b.toNat < s.q) :
    gmul s.gf (gdiv s.gf a b) b = a := by
  by_cases h0 : a = 0
  · subst h0; simp only [gdiv, if_true, zero_gmul]
  · have hl : gmul s.gf (gdiv s.gf a b) b =
        gmul s.gf (s.gf.pe ((s.logOf a : Int) - (s.logOf b : Int))) (s.gf.pe (s.logOf b : Int)) := by
      rw [h.pe_logOf hb hq, gdiv, if_neg h0]; rfl
    rw [hl, h.pe_add, Int.sub_add_cancel, h.pe_logOf h0 ha]

theorem ginv_lt {a : Sym} : (ginv s.gf a).toNat < s.q := h.pe_lt _

theorem gdiv_lt {a b : Sym} : (gdiv s.gf a b).toNat < s.q := by
  unfold gdiv
  split
  · have := h.one_lt_q; simp; omega
  · exact h.pe_lt _

/-- Multiplication by a nonzero value is injective. -/
theorem gmul_right_cancel {a b c : Sym} (ha : a.toNat < s.q) (hb : b.toNat < s.q) (hc : c ≠ 0) (hq : c.toNat < s.q)
    (he : gmul s.gf a c = gmul s.gf b c) : a = b := by
  have hz : gmul s.gf (a ^^^ b) c = 0 := by rw [h.xor_gmul ha hb hq, he, BitVec.xor_self]; rfl
  rcases (h.gmul_eq_zero (xor_lt ha hb) hq).mp hz with h0 | h0
  · exact BitVec.xor_eq_zero_iff.mp h0
  · exact absurd h0 hc

omit h in
/-- Any power of a nonzero value, by its logarithm (R150). -/
theorem gpow_eq {a : Sym} (ha : a ≠ 0) (e : Int) : gpow s.gf a e = s.gf.pe ((s.logOf a : Int) * e) := by
  rw [gpow, if_neg (fun hc => ha hc.1)]; rfl

theorem gpow_lt {a : Sym} (e : Int) : (gpow s.gf a e).toNat < s.q := by
  unfold gpow
  split
  · split
    · exact h.one_lt
    · have := h.one_lt_q; simp; omega
  · exact h.pe_lt _

@[simp] theorem gpow_zero (a : Sym) : gpow s.gf a 0 = 1 := by
  unfold gpow
  split
  · rfl
  · rw [Int.mul_zero, h.pe_zero]

theorem gpow_add {a : Sym} (ha : a ≠ 0) (d e : Int) :
    gpow s.gf a (d + e) = gmul s.gf (gpow s.gf a d) (gpow s.gf a e) := by
  rw [gpow_eq ha, gpow_eq ha, gpow_eq ha, h.pe_add, Int.mul_add]

theorem gpow_one {a : Sym} (hq : a.toNat < s.q) : gpow s.gf a 1 = a := by
  by_cases h0 : a = 0
  · subst h0; rfl
  · rw [gpow_eq h0, Int.mul_one, h.pe_logOf h0 hq]

/-- One more factor (R150). -/
theorem gpow_succ {a : Sym} (hq : a.toNat < s.q) (k : Nat) :
    gpow s.gf a ((k + 1 : Nat) : Int) = gmul s.gf (gpow s.gf a (k : Int)) a := by
  by_cases h0 : a = 0
  · subst h0
    rw [gmul_zero, gpow, if_pos ⟨rfl, by omega⟩, if_neg (by omega)]
  · rw [Nat.cast_add, h.gpow_add h0, Nat.cast_one, h.gpow_one hq]

theorem gpow_ne_zero {a : Sym} (ha : a ≠ 0) (e : Int) : gpow s.gf a e ≠ 0 := by
  rw [gpow_eq ha]; exact h.pe_ne_zero _

/-- A power of a power of the primitive element. -/
theorem gpow_pe (k e : Int) : gpow s.gf (s.gf.pe k) e = s.gf.pe (k * e) := by
  have h3 := h.three_le_n
  rw [gpow_eq (h.pe_ne_zero k), h.pe_eq k, h.logOf_power, h.pe_eq, h.pe_eq]
  have hk : 0 ≤ k % (s.n : Int) := Int.emod_nonneg _ (by omega)
  rw [Int.natCast_emod, Int.toNat_of_nonneg hk, Int.emod_emod, Int.mul_emod, Int.emod_emod, ← Int.mul_emod]

end State.TablesBuilt

end Sys2Proof.Machine
end

