-- ==== Sys2Proof/Laws/Ops.lean ====
section
/-! SUPPORT. What the shared operations can do, said once: completing a command, the checks, the port's address map,
one host access, one step. -/

namespace Sys2Proof.Machine

variable {s t : State}

/-! ## Completing a command -/

@[simp] theorem raiseFault_eq_faulted (s : State) (e : ErrCode) : s.raiseFault e = s.faulted e.code := rfl

@[simp] theorem finish_some (s : State) (e : ErrCode) (f : State → State) :
    s.finish (some e) f = .next (s.raiseFault e) := rfl

@[simp] theorem finish_none (s : State) (f : State → State) : s.finish none f = .next (f s).complete := rfl

/-- A completion step either takes the first fault or has its whole effect. -/
theorem finish_eq_next (s t : State) (check : Option ErrCode) (f : State → State) :
    s.finish check f = .next t ↔
      (∃ e, check = some e ∧ t = s.raiseFault e) ∨ (check = none ∧ t = (f s).complete) := by
  cases check <;> simp [eq_comm]

/-- A completion step never stops the machine. -/
theorem finish_isNext (s : State) (check : Option ErrCode) (f : State → State) : ∃ t, s.finish check f = .next t := by
  cases check <;> simp

/-! ## The checks -/

@[simp] theorem firstFault_none (b : Option ErrCode) : firstFault none b = b := rfl

@[simp] theorem firstFault_some (e : ErrCode) (b : Option ErrCode) : firstFault (some e) b = some e := rfl

theorem firstFault_eq_none (a b : Option ErrCode) : firstFault a b = none ↔ a = none ∧ b = none := by
  cases a <;> simp

@[simp] theorem faultIf_true (e : ErrCode) : faultIf true e = some e := rfl

@[simp] theorem faultIf_false (e : ErrCode) : faultIf false e = none := rfl

theorem faultIf_eq_none (b : Bool) (e : ErrCode) : faultIf b e = none ↔ b = false := by cases b <;> simp

theorem operandCheck_noField (xs : List Word) (bound : Nat) (h : s.fieldOk = false) :
    s.operandCheck xs bound = some .noField := by simp [State.operandCheck, h]

theorem operandCheck_range {xs : List Word} {bound : Nat} (h : s.fieldOk = true) (hx : ∃ x ∈ xs, bound ≤ x.toNat) :
    s.operandCheck xs bound = some .range := by
  have : (xs.any fun x => decide (bound ≤ x.toNat)) = true := by simpa using hx
  simp [State.operandCheck, h, this]

theorem operandCheck_eq_none (xs : List Word) (bound : Nat) :
    s.operandCheck xs bound = none ↔ s.fieldOk = true ∧ ∀ x ∈ xs, x.toNat < bound := by
  cases hf : s.fieldOk <;> simp [State.operandCheck, hf]

theorem pipelineCheck_noField (h : s.fieldOk = false) : s.pipelineCheck = some .noField := by
  simp [State.pipelineCheck, h]

theorem pipelineCheck_noGen (h : s.fieldOk = true) (hg : s.genOk = false) : s.pipelineCheck = some .noGen := by
  simp [State.pipelineCheck, h, hg]

theorem pipelineCheck_eq_none : s.pipelineCheck = none ↔ s.fieldOk = true ∧ s.genOk = true := by
  cases hf : s.fieldOk <;> cases hg : s.genOk <;> simp [State.pipelineCheck, hf, hg]

theorem symbolOk_iff (v : Sym) : s.symbolOk v = true ↔ s.InRange v := by
  unfold State.symbolOk State.InRange
  cases s.cfgBch <;> simp

theorem mem_erasures {p : Nat} : p ∈ s.erasures ↔ ∃ e, e < s.neras.toNat ∧ (s.rd .eras e).toNat = p := by
  simp [State.erasures, State.rdList, Memory.rdList, State.rd]

theorem mem_locations {p : Nat} : p ∈ s.locations ↔ ∃ k, k < s.loccnt.toNat ∧ (s.rd .loc k).toNat = p := by
  simp [State.locations, State.rdList, Memory.rdList, State.rd]

theorem mem_rdList {w : Win} {n : Nat} {v : Sym} : v ∈ s.rdList w n ↔ ∃ i, i < n ∧ s.rd w i = v := by
  simp [State.rdList, Memory.rdList, State.rd]

theorem erasureCheck_eq_none :
    s.erasureCheck = none ↔ s.neras.toNat ≤ s.nr ∧ ∀ e, e < s.neras.toNat → (s.rd .eras e).toNat < s.n := by
  unfold State.erasureCheck
  by_cases h : s.nr < s.neras.toNat
  · simp [h]
  · have hb : (s.erasures.any fun p => decide (s.n ≤ p)) = false ↔
        ∀ e, e < s.neras.toNat → (s.rd .eras e).toNat < s.n := by
      rw [Bool.eq_false_iff]
      simp only [ne_eq, List.any_eq_true, mem_erasures, decide_eq_true_eq]
      constructor
      · intro h e he
        by_contra hc
        exact h ⟨_, ⟨e, he, rfl⟩, by omega⟩
      · rintro h ⟨p, ⟨e, he, rfl⟩, hp⟩
        have := h e he
        omega
    rw [if_neg h]
    cases hany : s.erasures.any fun p => decide (s.n ≤ p) with
    | true => simp [← hb, hany]
    | false => simp [← hb, hany, Nat.not_lt.mp h]

/-- A fault of the erasure check is E_ERASURE (R230). -/
theorem erasureCheck_some {e : ErrCode} (h : s.erasureCheck = some e) : e = .erasure := by
  unfold State.erasureCheck at h
  split at h
  · simpa using h.symm
  · split at h
    · simpa using h.symm
    · cases h

/-! ## The address map -/

theorem toNat_ofNat20 {a : Nat} (h : a < 0x100000) : (BitVec.ofNat 20 a).toNat = a := by
  simp [Nat.mod_eq_of_lt h]

/-- A register's address selects it. -/
theorem targetOf_reg (r : Reg) : targetOf (BitVec.ofNat 20 (regAddr r)) = some (.reg r) := by
  cases r <;> decide

theorem indexIn_cell {base size i : Nat} (h : i < size) : indexIn base size (base + 4 * i) = some i := by
  unfold indexIn
  rw [if_pos (by omega)]
  congr 1
  omega

theorem find_reg_eq_none {a : Nat} (h : 0x4C ≤ a) : (allRegs.find? fun r => regAddr r == a) = none := by
  rw [List.find?_eq_none]
  intro r _
  cases r <;> simp only [regAddr, beq_iff_eq] <;> omega

/-- A cell's address selects it. -/
theorem targetOf_cell {w : Win} {i : Nat} (h : i < winSize w) :
    targetOf (BitVec.ofNat 20 (winBase w + 4 * i)) = some (.cell w i) := by
  have hb : (BitVec.ofNat 20 (winBase w + 4 * i)).toNat = winBase w + 4 * i :=
    toNat_ofNat20 (by cases w <;> simp only [winBase, winSize] at * <;> omega)
  have hlow : ∀ base size, base + 4 * size ≤ winBase w + 4 * i ∨ winBase w + 4 * i < base →
      indexIn base size (winBase w + 4 * i) = none := by
    intro base size h
    unfold indexIn
    rw [if_neg (by omega)]
  unfold targetOf
  simp only [hb]
  rw [if_neg (by cases w <;> simp only [winBase] <;> omega),
    find_reg_eq_none (by cases w <;> simp only [winBase] <;> omega)]
  dsimp only
  rw [hlow minpolyBase minpolySize (by
    cases w <;> simp only [winBase, winSize, minpolyBase, minpolySize] at * <;> omega)]
  dsimp only
  have hne : ∀ u, u ≠ w → (indexIn (winBase u) (winSize u) (winBase w + 4 * i)).map (Target.cell u) = none := by
    intro u hu
    rw [hlow]
    · rfl
    · cases w <;> cases u <;> first | exact absurd rfl hu | (simp only [winBase, winSize] at *; omega)
  have hself : (indexIn (winBase w) (winSize w) (winBase w + 4 * i)).map (Target.cell w) = some (.cell w i) := by
    rw [indexIn_cell h]
    rfl
  cases w <;> simp only [allWins, List.findSome?_cons, hself, ne_eq, reduceCtorEq, not_false_eq_true, hne]

/-- A MINPOLY cell's address selects it. -/
theorem targetOf_minpoly {i : Nat} (h : i < minpolySize) :
    targetOf (BitVec.ofNat 20 (minpolyBase + 4 * i)) = some (.minpolyCell i) := by
  have hlt : minpolyBase + 4 * i < 0x2400 := by simp only [minpolyBase, minpolySize] at *; omega
  have hge : 0x2000 ≤ minpolyBase + 4 * i := by simp only [minpolyBase]; omega
  have hal : (minpolyBase + 4 * i) % 4 = 0 := by simp only [minpolyBase]; omega
  have hi : indexIn minpolyBase minpolySize (minpolyBase + 4 * i) = some i := indexIn_cell h
  generalize minpolyBase + 4 * i = a at hlt hge hal hi ⊢
  unfold targetOf
  rw [toNat_ofNat20 (by omega)]
  dsimp only
  rw [if_neg (by omega), find_reg_eq_none (by omega)]
  dsimp only
  rw [hi]

/-- What an aligned address selects is the register or the cell at that address, inside its window. -/
theorem targetOf_eq_some {a : Addr} {x : Target} (h : targetOf a = some x) :
    (∃ r, x = .reg r ∧ a.toNat = regAddr r) ∨
    (∃ i, i < minpolySize ∧ x = .minpolyCell i ∧ a.toNat = minpolyBase + 4 * i) ∨
    ∃ w i, i < winSize w ∧ x = .cell w i ∧ a.toNat = winBase w + 4 * i := by
  unfold targetOf at h
  dsimp only at h
  split at h
  · cases h
  rename_i hal
  split at h
  · rename_i r hr
    cases h
    have hb := List.find?_some hr
    exact .inl ⟨r, rfl, (beq_iff_eq.mp hb).symm⟩
  · right
    have hidx : ∀ {base size k : Nat}, base % 4 = 0 → indexIn base size a.toNat = some k →
        k < size ∧ a.toNat = base + 4 * k := by
      intro base size k hb hk
      unfold indexIn at hk
      split at hk
      · cases hk
        omega
      · cases hk
    split at h
    · rename_i i hi
      cases h
      have := hidx (by decide) hi
      exact .inl ⟨i, this.1, rfl, this.2⟩
    · right
      obtain ⟨w, -, hw⟩ := List.exists_of_findSome?_eq_some h
      rw [Option.map_eq_some_iff] at hw
      obtain ⟨i, hi, rfl⟩ := hw
      have := hidx (by cases w <;> decide) hi
      exact ⟨w, i, this.1, rfl, this.2⟩

/-! ## Host accesses -/

theorem fieldOf_eq_some {w : Nat} {v : Word} {x : BitVec w} (h : fieldOf w v = some x) :
    v >>> w = 0 ∧ x = v.setWidth w := by
  unfold fieldOf at h
  split at h
  · cases h
    exact ⟨‹_›, rfl⟩
  · cases h

theorem shift_eq_zero_iff {w : Nat} (v : Word) : v >>> w = 0 ↔ v.toNat < 2 ^ w := by
  rw [← BitVec.toNat_inj, BitVec.toNat_ushiftRight, Nat.shiftRight_eq_div_pow]
  simp [Nat.div_eq_zero_iff]

theorem fieldOf_of_lt {w : Nat} {v : Word} (h : v.toNat < 2 ^ w) : fieldOf w v = some (v.setWidth w) := by
  rw [fieldOf, if_pos ((shift_eq_zero_iff v).mpr h)]

theorem fieldOf_of_le {w : Nat} {v : Word} (h : 2 ^ w ≤ v.toNat) : fieldOf w v = none := by
  rw [fieldOf, if_neg (by rw [shift_eq_zero_iff]; omega)]

/-- One host access: refused, a read's answer, or an accepted write of an idle block. -/
theorem hostAccess_cases (s : State) (x : Access) :
    s.hostAccess x = s.respond .error ∨
    (∃ a v, x = .read a ∧ s.inReset = false ∧ s.hostAccess x = s.respond (.okayData v)) ∨
    ∃ a v y t, x = .write a v ∧ s.inReset = false ∧ s.isBusy = false ∧ targetOf a = some y ∧
      s.writeTarget y v = some t ∧ s.hostAccess x = t.respond .okay := by
  unfold State.hostAccess
  split
  · exact .inl rfl
  rename_i hr
  have hr : s.inReset = false := by simpa using hr
  split
  · split
    · rename_i hx
      exact .inr (.inl ⟨_, _, hx, hr, rfl⟩)
    · exact .inl rfl
  rename_i hb
  have hb : s.isBusy = false := by simpa using hb
  cases x with
  | read a =>
    cases ht : targetOf a with
    | none => exact .inl (by simp [State.idleAccess, ht])
    | some y => exact .inr (.inl ⟨a, s.readTarget y, rfl, hr, by simp [State.idleAccess, ht]⟩)
  | write a v =>
    cases ht : targetOf a with
    | none => exact .inl (by simp [State.idleAccess, ht])
    | some y =>
      cases hw : s.writeTarget y v with
      | none => exact .inl (by simp [State.idleAccess, ht, hw])
      | some t => exact .inr (.inr ⟨a, v, y, t, rfl, hr, hb, ht, hw, by simp [State.idleAccess, ht, hw]⟩)
  | narrow d a => exact .inl rfl

/-- What an accepted write of a cell does. -/
theorem writeTarget_cell {w : Win} {i : Nat} {v : Word} (h : s.writeTarget (.cell w i) v = some t) :
    winWritable w = true ∧ v.toNat < 2 ^ 16 ∧ t = s.store w i [v.setWidth 16] := by
  simp only [State.writeTarget] at h
  split at h
  · rw [Option.map_eq_some_iff] at h
    obtain ⟨x, hx, rfl⟩ := h
    obtain ⟨hv, rfl⟩ := fieldOf_eq_some hx
    exact ⟨‹_›, (shift_eq_zero_iff v).mp hv, rfl⟩
  · cases h

/-- What an accepted write of a MINPOLY cell does. -/
theorem writeTarget_minpoly {i : Nat} {v : Word} (h : s.writeTarget (.minpolyCell i) v = some t) :
    v.toNat < 2 ^ 17 ∧ t = { s with mem := s.mem.writeMinpoly i (v.setWidth 17), genOk := false } := by
  simp only [State.writeTarget, Option.map_eq_some_iff] at h
  obtain ⟨x, hx, rfl⟩ := h
  obtain ⟨hv, rfl⟩ := fieldOf_eq_some hx
  exact ⟨(shift_eq_zero_iff v).mp hv, rfl⟩

/-- An accepted register write touches no array. -/
theorem writeReg_mem {r : Reg} {v : Word} (h : s.writeReg r v = some t) :
    t.mem = s.mem ∧ t.inReset = s.inReset ∧ t.agenda = s.agenda ∧ t.draws = s.draws := by
  cases r <;> simp only [State.writeReg, Option.map_eq_some_iff, Option.some.injEq, reduceCtorEq] at h
  all_goals first
    | (obtain ⟨x, -, rfl⟩ := h; exact ⟨rfl, rfl, rfl, rfl⟩)
    | (subst h; refine ⟨?_, ?_, ?_, ?_⟩ <;> first | rfl | (simp only [State.writeStatus]; (repeat' split) <;> rfl))

/-! ## One step -/

/-- One step: the engine waits, completes a command or refuses an illegal word, a host access, or the reset input. -/
theorem step_cases (s t : State) (h : step s = .next t) :
    ∃ rest, (s.agenda = [] ∧ rest = [] ∨ ∃ turn, s.agenda = turn :: rest) ∧
      let u := { s with agenda := rest }
      (t = u ∨ (∃ c i, s.engine = .busy c ∧ decode c = .ok i ∧ exec i u = .next t) ∨
        (∃ c e, s.engine = .busy c ∧ decode c = .error e ∧ t = u.raiseFault .illegal) ∨
        (∃ x, t = u.hostAccess x) ∨ ∃ b, t = u.driveReset b) := by
  have engine : ∀ u : State, u.engine = s.engine → engineTurn u = .next t →
      t = u ∨ (∃ c i, s.engine = .busy c ∧ decode c = .ok i ∧ exec i u = .next t) ∨
        (∃ c e, s.engine = .busy c ∧ decode c = .error e ∧ t = u.raiseFault .illegal) := by
    intro u hu h
    unfold engineTurn at h
    split at h
    · exact .inl (by simpa [eq_comm] using h)
    · rename_i c hc
      rw [hu] at hc
      unfold runWord at h
      split at h
      · exact .inr (.inl ⟨c, _, hc, ‹_›, h⟩)
      · exact .inr (.inr ⟨c, _, hc, ‹_›, by simpa [eq_comm] using h⟩)
  have lift : ∀ {A B C D E : Prop}, A ∨ B ∨ C → A ∨ B ∨ C ∨ D ∨ E := by tauto
  unfold step at h
  split at h
  · rename_i hn
    refine ⟨[], .inl ⟨hn, rfl⟩, ?_⟩
    have hs : { s with agenda := [] } = s := by rw [← hn]
    rw [hs]
    exact lift (engine s rfl h)
  · rename_i rest hn
    exact ⟨rest, .inr ⟨_, hn⟩, lift (engine _ rfl h)⟩
  · rename_i x rest hn
    exact ⟨rest, .inr ⟨_, hn⟩, .inr (.inr (.inr (.inl ⟨x, by simpa [eq_comm] using h⟩)))⟩
  · rename_i b rest hn
    exact ⟨rest, .inr ⟨_, hn⟩, .inr (.inr (.inr (.inr ⟨b, by simpa [eq_comm] using h⟩)))⟩

end Sys2Proof.Machine
end

