-- ==== Sys2Proof/Laws/PerInstr.lean ====
section
/-! SUPPORT. Statements about every command, one lemma a constructor. -/

namespace Sys2Proof.Laws

/-- The word of the command is well formed: a listed opcode, reserved bits 0, flag bits 0 but for DECODE (R111). -/
def EncodesWellFormed.Statement (i : Instr) : Prop := (cmdFields (encode i)).wellFormed = true

theorem EncodesWellFormed.nop : EncodesWellFormed.Statement .nop := by
  unfold EncodesWellFormed.Statement
  decide

theorem EncodesWellFormed.srst : EncodesWellFormed.Statement .srst := by
  unfold EncodesWellFormed.Statement
  decide

theorem EncodesWellFormed.buildField : EncodesWellFormed.Statement .buildField := by
  unfold EncodesWellFormed.Statement
  decide

theorem EncodesWellFormed.buildGen : EncodesWellFormed.Statement .buildGen := by
  unfold EncodesWellFormed.Statement
  decide

theorem EncodesWellFormed.gfAdd : EncodesWellFormed.Statement .gfAdd := by
  unfold EncodesWellFormed.Statement
  decide

theorem EncodesWellFormed.gfMul : EncodesWellFormed.Statement .gfMul := by
  unfold EncodesWellFormed.Statement
  decide

theorem EncodesWellFormed.gfDiv : EncodesWellFormed.Statement .gfDiv := by
  unfold EncodesWellFormed.Statement
  decide

theorem EncodesWellFormed.gfInv : EncodesWellFormed.Statement .gfInv := by
  unfold EncodesWellFormed.Statement
  decide

theorem EncodesWellFormed.gfFma : EncodesWellFormed.Statement .gfFma := by
  unfold EncodesWellFormed.Statement
  decide

theorem EncodesWellFormed.gfExp : EncodesWellFormed.Statement .gfExp := by
  unfold EncodesWellFormed.Statement
  decide

theorem EncodesWellFormed.gfLog : EncodesWellFormed.Statement .gfLog := by
  unfold EncodesWellFormed.Statement
  decide

theorem EncodesWellFormed.gfPow : EncodesWellFormed.Statement .gfPow := by
  unfold EncodesWellFormed.Statement
  decide

theorem EncodesWellFormed.gfTrace : EncodesWellFormed.Statement .gfTrace := by
  unfold EncodesWellFormed.Statement
  decide

theorem EncodesWellFormed.gfQsolve : EncodesWellFormed.Statement .gfQsolve := by
  unfold EncodesWellFormed.Statement
  decide

theorem EncodesWellFormed.encode : EncodesWellFormed.Statement .encode := by
  unfold EncodesWellFormed.Statement
  decide

theorem EncodesWellFormed.syndromes : EncodesWellFormed.Statement .syndromes := by
  unfold EncodesWellFormed.Statement
  decide

theorem EncodesWellFormed.bm : EncodesWellFormed.Statement .bm := by
  unfold EncodesWellFormed.Statement
  decide

theorem EncodesWellFormed.roots : EncodesWellFormed.Statement .roots := by
  unfold EncodesWellFormed.Statement
  decide

theorem EncodesWellFormed.forney : EncodesWellFormed.Statement .forney := by
  unfold EncodesWellFormed.Statement
  decide

theorem EncodesWellFormed.apply : EncodesWellFormed.Statement .apply := by
  unfold EncodesWellFormed.Statement
  decide

theorem EncodesWellFormed.decode (clr novfy : Bool) : EncodesWellFormed.Statement (.decode clr novfy) := by
  unfold EncodesWellFormed.Statement
  revert clr novfy
  decide

end Sys2Proof.Laws
end

