-- ==== Sys2Proof/Laws/Poly.lean ====
section
/-! SUPPORT. Sums over the field, and what the polynomial operations of the commands mean as functions of x:
evaluation, Horner's method, multiplication by a linear factor. -/

namespace Sys2Proof.Machine

/-! ## Sums -/

@[simp] theorem xorSum_zero (f : Nat → Sym) : xorSum 0 f = 0 := rfl

theorem xorSum_succ (n : Nat) (f : Nat → Sym) : xorSum (n + 1) f = xorSum n f ^^^ f n := by
  simp [xorSum, List.range_succ, List.foldl_append]

theorem xorSum_congr {n : Nat} {f g : Nat → Sym} (h : ∀ i, i < n → f i = g i) : xorSum n f = xorSum n g := by
  induction n with
  | zero => rfl
  | succ n ih => rw [xorSum_succ, xorSum_succ, ih fun i hi => h i (by omega), h n (by omega)]

theorem xorSum_xor (n : Nat) (f g : Nat → Sym) : xorSum n (fun i => f i ^^^ g i) = xorSum n f ^^^ xorSum n g := by
  induction n with
  | zero => simp
  | succ n ih => simp only [xorSum_succ, ih]; ac_rfl

theorem xorSum_const_zero (n : Nat) : xorSum n (fun _ => 0) = 0 := by
  induction n with
  | zero => rfl
  | succ n ih => rw [xorSum_succ, ih]; rfl

/-- The first term apart. -/
theorem xorSum_succ' (n : Nat) (f : Nat → Sym) : xorSum (n + 1) f = f 0 ^^^ xorSum n fun i => f (i + 1) := by
  induction n with
  | zero => simp [xorSum_succ]
  | succ n ih => rw [xorSum_succ, ih, xorSum_succ, BitVec.xor_assoc]

/-- Only one term is not 0. -/
theorem xorSum_single {n p : Nat} (hp : p < n) (f : Nat → Sym) (h : ∀ i, i < n → i ≠ p → f i = 0) :
    xorSum n f = f p := by
  induction n with
  | zero => omega
  | succ n ih =>
    rw [xorSum_succ]
    by_cases hn : p = n
    · subst hn
      rw [xorSum_congr (g := fun _ => 0) fun i hi => h i (by omega) (by omega), xorSum_const_zero]
      exact BitVec.zero_xor
    · rw [ih (by omega) fun i hi => h i (by omega), h n (by omega) (by omega)]
      exact BitVec.xor_zero

/-! ## Evaluation -/

@[simp] theorem evalAt_zero (F : GF) (f : Nat → Sym) (x : Sym) : evalAt F 0 f x = 0 := rfl

theorem evalAt_succ (F : GF) (n : Nat) (f : Nat → Sym) (x : Sym) :
    evalAt F (n + 1) f x = evalAt F n f x ^^^ gmul F (f n) (gpow F x (n : Int)) := xorSum_succ _ _

theorem evalAt_congr {F : GF} {n : Nat} {f g : Nat → Sym} (h : ∀ i, i < n → f i = g i) (x : Sym) :
    evalAt F n f x = evalAt F n g x := xorSum_congr fun i hi => by rw [h i hi]

/-- The evaluation a command does is the sum of its terms (R153). -/
theorem peval_eq_evalAt (F : GF) (p : List Sym) (x : Sym) : peval F p x = evalAt F p.length (fun j => p.getD j 0) x := by
  have key : ∀ (p : List Sym) (i : Nat) (t : Sym),
      (numbered i p).foldl (fun t c => t ^^^ gmul F c.2 (gpow F x (c.1 : Int))) t =
        t ^^^ xorSum p.length fun j => gmul F (p.getD j 0) (gpow F x ((i + j : Nat) : Int)) := by
    intro p
    induction p with
    | nil => intro i t; simp [numbered]
    | cons v p ih =>
      intro i t
      rw [numbered, List.foldl_cons, ih, List.length_cons, xorSum_succ', BitVec.xor_assoc]
      simp only [List.getD_cons_zero, List.getD_cons_succ, Nat.add_zero, Nat.add_right_comm i 1, Nat.add_assoc]
  have := key p 0 0
  simpa [peval, evalAt] using this

theorem peval_rdList (s : State) (w : Win) (n : Nat) (x : Sym) :
    peval s.gf (s.rdList w n) x = evalAt s.gf n (s.rd w) x := by
  rw [peval_eq_evalAt, State.rdList, Memory.length_rdList]
  exact evalAt_congr (fun i hi => Memory.getD_rdList _ _ hi) x

namespace State.TablesBuilt

variable {s : State} (h : s.TablesBuilt)
include h

theorem zero_lt : (0 : Sym).toNat < s.q := by
  have := h.one_lt_q
  exact Nat.lt_of_lt_of_le (by decide) this

theorem xorSum_lt {n : Nat} {f : Nat → Sym} (hf : ∀ i, i < n → (f i).toNat < s.q) : (xorSum n f).toNat < s.q := by
  induction n with
  | zero => exact h.zero_lt
  | succ n ih => rw [xorSum_succ]; exact xor_lt (ih fun i hi => hf i (by omega)) (hf n (by omega))

/-- Multiplication distributes over a sum. -/
theorem xorSum_gmul {n : Nat} {f : Nat → Sym} (hf : ∀ i, i < n → (f i).toNat < s.q) {c : Sym} (hc : c.toNat < s.q) :
    gmul s.gf (xorSum n f) c = xorSum n fun i => gmul s.gf (f i) c := by
  induction n with
  | zero => exact zero_gmul _ _
  | succ n ih =>
    rw [xorSum_succ, h.xor_gmul (h.xorSum_lt fun i hi => hf i (by omega)) (hf n (by omega)) hc,
      ih fun i hi => hf i (by omega), xorSum_succ]

theorem evalAt_lt {n : Nat} {f : Nat → Sym} (hf : ∀ i, i < n → (f i).toNat < s.q) (x : Sym) :
    (evalAt s.gf n f x).toNat < s.q :=
  h.xorSum_lt fun i hi => h.gmul_lt (hf i hi) (h.gpow_lt _)

/-- Horner's method evaluates the word as a polynomial, its first symbol the highest coefficient (R221). -/
theorem horner_eq {w : List Sym} (hw : ∀ v ∈ w, v.toNat < s.q) {r : Sym} (hr : r.toNat < s.q) :
    horner s.gf r w = xorSum w.length fun j =>
      gmul s.gf (w.getD j 0) (gpow s.gf r ((w.length - 1 - j : Nat) : Int)) := by
  induction w using List.reverseRecOn with
  | nil => rfl
  | append_singleton w v ih =>
    have hw' : ∀ v ∈ w, v.toNat < s.q := fun v hv => hw v (by simp [hv])
    have hget : ∀ j, (w.getD j 0).toNat < s.q := by
      intro j
      by_cases hj : j < w.length
      · rw [List.getD_eq_getElem _ _ hj]; exact hw' _ (List.getElem_mem hj)
      · rw [List.getD_eq_default _ _ (by omega)]; exact h.zero_lt
    have hstep : horner s.gf r (w ++ [v]) = gmul s.gf (horner s.gf r w) r ^^^ v := by
      cases w with
      | nil =>
        change v = gmul s.gf 0 r ^^^ v
        rw [zero_gmul]
        exact BitVec.zero_xor.symm
      | cons c cs => simp [horner, List.foldl_append, gfma_eq]
    rw [hstep, ih hw', h.xorSum_gmul (fun i _ => h.gmul_lt (hget i) (h.gpow_lt _)) hr, List.length_append,
      List.length_singleton, xorSum_succ]
    congr 1
    · refine xorSum_congr fun j hj => ?_
      rw [List.getD_append _ _ _ _ hj, h.gmul_assoc (hget j) (h.gpow_lt _) hr, ← h.gpow_succ hr]
      congr 2
      omega
    · have hv : v.toNat < s.q := hw v (by simp)
      rw [show w.length + 1 - 1 - w.length = 0 by omega, Nat.cast_zero, h.gpow_zero,
        List.getD_append_right _ _ _ _ (Nat.le_refl _), Nat.sub_self, List.getD_cons_zero, h.gmul_one hv]

end State.TablesBuilt

end Sys2Proof.Machine
end

