-- ==== Sys2Proof/Laws/Tables.lean ====
section
/-! SUPPORT. The lists BUILD_FIELD stores: the powers, the primitivity check and the two tables (40_field.md R141,
R142). -/

namespace Sys2Proof.Machine

@[simp] theorem length_powersFrom (m : Nat) (poly : Mask) (n : Nat) (a : Sym) : (powersFrom m poly n a).length = n := by
  induction n generalizing a with
  | zero => rfl
  | succ n ih => simp [powersFrom, ih]

/-- The i-th value of R141's loop is next^i. -/
theorem getElem?_powersFrom (m : Nat) (poly : Mask) (n i : Nat) (a : Sym) (h : i < n) :
    (powersFrom m poly n a)[i]? = some ((nextPower m poly)^[i] a) := by
  induction n generalizing a i with
  | zero => omega
  | succ n ih =>
    cases i with
    | zero => rfl
    | succ i =>
      rw [powersFrom, List.getElem?_cons_succ, ih i _ (by omega), Function.iterate_succ, Function.comp_apply]

@[simp] theorem length_powers (m : Nat) (poly : Mask) : (powers m poly).length = 2 ^ m := by simp [powers]

theorem getElem?_powers (m : Nat) (poly : Mask) (i : Nat) (h : i < 2 ^ m) :
    (powers m poly)[i]? = some ((nextPower m poly)^[i] 1) := getElem?_powersFrom m poly _ i 1 h

/-- The check of R141: no return to 1 before step N, and a return at step N. -/
theorem primitive_iff {m : Nat} (hm : 1 ≤ m) (poly : Mask) :
    primitive m poly = true ↔
      (∀ i, 0 < i → i < 2 ^ m - 1 → (nextPower m poly)^[i] 1 ≠ 1) ∧ (nextPower m poly)^[2 ^ m - 1] 1 = 1 := by
  have h2 : 2 ≤ 2 ^ m := by
    calc 2 = 2 ^ 1 := rfl
      _ ≤ 2 ^ m := Nat.pow_le_pow_right (by omega) hm
  have hlen : (powers m poly).length = 2 ^ m := length_powers m poly
  unfold primitive
  simp only [Bool.and_eq_true, List.all_eq_true, bne_iff_ne, beq_iff_eq, List.getLast?_eq_getElem?, hlen]
  rw [getElem?_powers m poly (2 ^ m - 1) (by omega), Option.some.injEq]
  refine and_congr_left fun _ => ⟨fun h i h0 hi => ?_, fun h a ha => ?_⟩
  · apply h
    rw [List.mem_iff_getElem?]
    refine ⟨i - 1, ?_⟩
    rw [List.getElem?_dropLast, if_pos (by simp [hlen]; omega), List.getElem?_tail, Nat.sub_add_cancel h0]
    exact getElem?_powers m poly i (by omega)
  · obtain ⟨i, hi⟩ := List.mem_iff_getElem?.mp ha
    rw [List.getElem?_dropLast] at hi
    split at hi
    · rename_i hlt
      rw [List.length_tail, hlen] at hlt
      rw [List.getElem?_tail, getElem?_powers m poly (i + 1) (by omega)] at hi
      have := h (i + 1) (by omega) (by omega)
      rwa [Option.some.inj hi] at this
    · exact absurd hi (by simp)

@[simp] theorem length_expTable (m : Nat) (poly : Mask) : (expTable m poly).length = 2 ^ m := by
  have : 0 < 2 ^ m := Nat.two_pow_pos m
  simp [expTable]; omega

/-- EXPT[i] for i < N (R142). -/
theorem getElem?_expTable (m : Nat) (poly : Mask) (i : Nat) (h : i < 2 ^ m - 1) :
    (expTable m poly)[i]? = some ((nextPower m poly)^[i] 1) := by
  rw [expTable, List.getElem?_append_left (by simp; omega), List.getElem?_dropLast, if_pos (by simp; omega)]
  exact getElem?_powers m poly i (by omega)

/-- EXPT[N] is the zero marker (R142). -/
theorem getElem?_expTable_marker (m : Nat) (poly : Mask) : (expTable m poly)[2 ^ m - 1]? = some 0 := by
  rw [expTable, List.getElem?_append_right (by simp)]
  simp

@[simp] theorem length_logTable (m : Nat) (poly : Mask) : (logTable m poly).length = 2 ^ m := by
  have : 0 < 2 ^ m := Nat.two_pow_pos m
  simp [logTable]; omega

/-- LOGT[0] is the zero marker N (R142). -/
theorem getElem?_logTable_marker (m : Nat) (poly : Mask) : (logTable m poly)[0]? = some (BitVec.ofNat 16 (2 ^ m - 1)) :=
  rfl

/-- LOGT[v] is the index at which v first stands among the powers (R141). -/
theorem getElem?_logTable (m : Nat) (poly : Mask) (v : Nat) (h0 : 0 < v) (h : v < 2 ^ m) :
    (logTable m poly)[v]? = some (BitVec.ofNat 16 ((powers m poly).idxOf (BitVec.ofNat 16 v))) := by
  obtain ⟨v, rfl⟩ : ∃ u, v = u + 1 := ⟨v - 1, by omega⟩
  simp only [logTable, List.getElem?_cons_succ, List.getElem?_map]
  rw [List.getElem?_range (by omega)]
  rfl

/-- The first index of a power, when the powers before it differ from it. -/
theorem idxOf_powers (m : Nat) (poly : Mask) (i : Nat) (h : i < 2 ^ m)
    (hne : ∀ j, j < i → (nextPower m poly)^[j] 1 ≠ (nextPower m poly)^[i] 1) :
    (powers m poly).idxOf ((nextPower m poly)^[i] 1) = i := by
  have hlen : i < (powers m poly).length := by simpa using h
  have hget : ∀ j (hj : j < (powers m poly).length), (powers m poly)[j] = (nextPower m poly)^[j] 1 := by
    intro j hj
    have := getElem?_powers m poly j (by simpa using hj)
    rw [List.getElem?_eq_getElem hj] at this
    exact Option.some.inj this
  rw [List.idxOf, List.findIdx_eq hlen]
  exact ⟨by rw [hget i hlen]; exact beq_self_eq_true _, fun j hj => by rw [hget j]; exact beq_false_of_ne (hne j hj)⟩

end Sys2Proof.Machine
end

