-- ==== Sys2Proof/Laws/Writes.lean ====
section
/-! SUPPORT. What a command does to the arrays, said once: it writes the arrays of its row and nothing else, so any
property that such writes keep, the command keeps. The canonical form is one. -/

namespace Sys2Proof.Machine

variable {s t : State} (P : Memory → Prop)

/-- A property that a write of array `w` keeps. -/
def KeptBy (w : Win) : Prop := ∀ m i vs, P m → P (m.write w i vs)

variable {P}

theorem KeptBy.store {w : Win} (h : KeptBy P w) {i : Nat} {vs : List Sym} (hs : P s.mem) : P (s.store w i vs).mem :=
  h _ _ _ hs

theorem finish_mem {check : Option ErrCode} {f : State → State} (h : s.finish check f = .next t) (hs : P s.mem)
    (hf : P (f s).mem) : P t.mem := by
  rcases (finish_eq_next ..).mp h with ⟨e, -, rfl⟩ | ⟨-, rfl⟩
  · exact hs
  · exact hf

theorem drawTables_mem (he : KeptBy P .expt) (hl : KeptBy P .logt) (hs : P s.mem) : P s.drawTables.mem :=
  hl.store (he.store hs)

theorem installTables_mem (he : KeptBy P .expt) (hl : KeptBy P .logt) (hs : P s.mem) : P s.installTables.mem :=
  hl.store (he.store hs)

theorem execBuildField_mem (he : KeptBy P .expt) (hl : KeptBy P .logt) (h : execBuildField s = .next t)
    (hs : P s.mem) : P t.mem := by
  unfold execBuildField at h
  dsimp only at h
  split at h
  · cases h; exact hs
  split at h
  · cases h; exact hs
  split at h
  · cases h; exact drawTables_mem he hl (s := s.invalidateField) hs
  · cases h; exact installTables_mem he hl (s := s.invalidateField) hs

theorem findRoots_mem (hl : KeptBy P .loc) (hs : P s.mem) : P s.findRoots.mem := by
  unfold State.findRoots
  split
  · exact hs
  · exact hl.store hs

theorem correctCells_mem (hc : KeptBy P .code) (cs : List (Nat × Sym)) (hs : P s.mem) :
    P (cs.foldl State.correctCell s).mem := by
  induction cs generalizing s with
  | nil => exact hs
  | cons c cs ih => exact ih (hc.store hs)

theorem decodeApply_mem (hc : KeptBy P .code) {novfy : Bool} {orig w : List Sym} {cs : List (Nat × Sym)}
    (hs : P s.mem) : P (s.decodeApply novfy orig w cs).mem := by
  unfold State.decodeApply
  dsimp only
  split
  · exact hs
  · exact hc.store hs

theorem decodeMagnitudes_mem (hc : KeptBy P .code) (ho : KeptBy P .omega) (hg : KeptBy P .mag) {novfy : Bool}
    {orig w syn lam : List Sym} {ps : List Nat} (hs : P s.mem) :
    P (s.decodeMagnitudes novfy orig w syn lam ps).mem := by
  unfold State.decodeMagnitudes
  split
  · exact hs
  dsimp only
  split
  · exact hg.store (ho.store hs)
  · exact decodeApply_mem hc (hg.store (ho.store hs))

theorem decodeRoots_mem (hc : KeptBy P .code) (hl : KeptBy P .loc) (ho : KeptBy P .omega) (hg : KeptBy P .mag)
    {novfy : Bool} {orig w syn c : List Sym} {len : Nat} (hs : P s.mem) :
    P (s.decodeRoots novfy orig w syn c len).mem := by
  unfold State.decodeRoots
  split
  · exact hs
  dsimp only
  split
  · exact hs
  split
  · exact hl.store hs
  · exact decodeMagnitudes_mem hc ho hg (hl.store hs)

theorem runDecode_mem (hc : KeptBy P .code) (hy : KeptBy P .syn) (ha : KeptBy P .lambda) (hl : KeptBy P .loc)
    (ho : KeptBy P .omega) (hg : KeptBy P .mag) {clr novfy : Bool} (hs : P s.mem) :
    P (State.runDecode clr novfy s).mem := by
  unfold State.runDecode
  dsimp only
  split
  · exact hc.store (hy.store hs)
  unfold State.decodeLocate
  dsimp only
  split
  · exact ha.store (hy.store hs)
  · exact decodeRoots_mem hc hl ho hg (ha.store (hy.store hs))

/-- What a command keeps of the arrays: everything that writes of the arrays of its row keep (R113). -/
theorem exec_mem {i : Instr} (hP : ∀ w, writesWin i w = true → KeptBy P w) (h : exec i s = .next t) (hs : P s.mem) :
    P t.mem := by
  cases i with
  | buildField => exact execBuildField_mem (hP _ rfl) (hP _ rfl) h hs
  | buildGen => exact finish_mem (s := s.invalidateGen) h hs ((hP .gen rfl).store hs)
  | encode => exact finish_mem h hs ((hP .code rfl).store hs)
  | syndromes => exact finish_mem h hs ((hP .syn rfl).store hs)
  | bm => exact finish_mem h hs ((hP .lambda rfl).store hs)
  | roots => exact finish_mem h hs (findRoots_mem (hP .loc rfl) hs)
  | forney => exact finish_mem h hs ((hP .mag rfl).store ((hP .omega rfl).store hs))
  | apply => exact finish_mem h hs (correctCells_mem (hP .code rfl) _ hs)
  | decode clr novfy =>
    exact finish_mem h hs
      (runDecode_mem (hP _ rfl) (hP _ rfl) (hP _ rfl) (hP _ rfl) (hP _ rfl) (hP _ rfl) hs)
  | gfQsolve =>
    refine finish_mem (s := s) (f := fun t => match gqsolve t.gf (symOf t.opa) with
      | none => t.answer 0 minusOne
      | some y => t.answer (wordOf y) 0) h hs ?_
    split <;> exact hs
  | nop => exact finish_mem (s := s) (check := none) (f := fun t => t) h hs hs
  | srst => exact finish_mem (s := s) (check := none) (f := State.resetRegisters) h hs hs
  | gfAdd | gfMul | gfDiv | gfInv | gfFma | gfExp | gfLog | gfPow | gfTrace =>
    simp only [exec, execGfAdd, execGfMul, execGfDiv, execGfInv, execGfFma, execGfExp, execGfLog, execGfPow,
      execGfTrace] at h
    exact finish_mem h hs hs

/-! ## The canonical form -/

theorem keptBy_wf (w : Win) : KeptBy (fun m => m.wf = true) w := fun m i vs h => m.wf_write w i vs h

/-- A store keeps the canonical form. -/
theorem wf_store (w : Win) (i : Nat) (vs : List Sym) (h : s.mem.wf = true) : (s.store w i vs).mem.wf = true :=
  s.mem.wf_write w i vs h

/-- Drawing every cell anew leaves the canonical form. -/
theorem wf_redraw (s : State) : s.redraw.mem.wf = true := Memory.wf_drawn _

/-- The reset input keeps the canonical form. -/
theorem wf_driveReset (b : Bool) (h : s.mem.wf = true) : (s.driveReset b).mem.wf = true := by
  unfold State.driveReset
  split
  · exact Memory.wf_drawn _
  split
  · exact Memory.wf_drawn _
  · exact h

/-- A host access keeps the canonical form. -/
theorem wf_hostAccess (x : Access) (h : s.mem.wf = true) : (s.hostAccess x).mem.wf = true := by
  rcases hostAccess_cases s x with hx | ⟨a, v, -, -, hx⟩ | ⟨a, v, y, t, -, -, -, -, hw, hx⟩
  · rw [hx]; exact h
  · rw [hx]; exact h
  · rw [hx]
    change t.mem.wf = true
    cases y with
    | reg r => rw [(writeReg_mem hw).1]; exact h
    | cell w i => obtain ⟨-, -, rfl⟩ := writeTarget_cell hw; exact wf_store _ _ _ h
    | minpolyCell i => obtain ⟨-, rfl⟩ := writeTarget_minpoly hw; exact s.mem.wf_writeMinpoly i _ h

/-- Every write of a command keeps the canonical form. -/
theorem wf_exec {i : Instr} (h : exec i s = .next t) (hs : s.mem.wf = true) : t.mem.wf = true :=
  exec_mem (P := fun m => m.wf = true) (fun w _ => keptBy_wf w) h hs

end Sys2Proof.Machine
end

