-- ==== Sys2Proof/Tests/Slice0.lean ====
section
/-! SUPPORT. The model's own tests: the well-formedness smoke, words decoded by hand from 30_encoding.md, one-step tests
whose expected values are the vectors of 95_test_vectors.md, and a witness for the hypotheses of every obligation. -/

namespace Sys2Proof.Tests

open Sys2Proof Sys2Proof.Machine

/- One theorem at a time: the many kernel evaluations below, each on its own thread, outgrow the memory limit. -/
set_option Elab.async false

/-! ## Well-formed command words (R111): each check refuses an ill-formed word -/

theorem test_wellFormed_refuses_unlisted_opcode :
    ({ op := 0x02, clr := false, novfy := false, rsv := 0 } : CmdFields).wellFormed = false := by decide

theorem test_wellFormed_refuses_reserved_bit :
    ({ op := 0x36, clr := false, novfy := false, rsv := 1 } : CmdFields).wellFormed = false := by decide

theorem test_wellFormed_refuses_flag_of_another_opcode :
    ({ op := 0x35, clr := true, novfy := false, rsv := 0 } : CmdFields).wellFormed = false := by decide

theorem test_wellFormed_accepts_decode_flags :
    ({ op := 0x36, clr := true, novfy := true, rsv := 0 } : CmdFields).wellFormed = true := by decide

/-! ## Words written bit by bit from R111 and R113: reserved [31:10], NOVFY [9], CLR [8], opcode [7:0] -/

theorem test_decode_system :
    decode 0b0000000000000000000000_0_0_00000000 = .ok .nop ∧ decode 0b0000000000000000000000_0_0_00000001 = .ok .srst := by
  exact ⟨rfl, rfl⟩

theorem test_decode_builders :
    decode 0b0000000000000000000000_0_0_00010000 = .ok .buildField ∧
    decode 0b0000000000000000000000_0_0_00010001 = .ok .buildGen := ⟨rfl, rfl⟩

theorem test_decode_field_commands :
    decode 0b0000000000000000000000_0_0_00100000 = .ok .gfAdd ∧ decode 0b0000000000000000000000_0_0_00100001 = .ok .gfMul ∧
    decode 0b0000000000000000000000_0_0_00100010 = .ok .gfDiv ∧ decode 0b0000000000000000000000_0_0_00100011 = .ok .gfInv ∧
    decode 0b0000000000000000000000_0_0_00100100 = .ok .gfFma ∧ decode 0b0000000000000000000000_0_0_00100101 = .ok .gfExp ∧
    decode 0b0000000000000000000000_0_0_00100110 = .ok .gfLog ∧ decode 0b0000000000000000000000_0_0_00100111 = .ok .gfPow ∧
    decode 0b0000000000000000000000_0_0_00101000 = .ok .gfTrace ∧
    decode 0b0000000000000000000000_0_0_00101001 = .ok .gfQsolve := ⟨rfl, rfl, rfl, rfl, rfl, rfl, rfl, rfl, rfl, rfl⟩

theorem test_decode_pipeline :
    decode 0b0000000000000000000000_0_0_00110000 = .ok .encode ∧
    decode 0b0000000000000000000000_0_0_00110001 = .ok .syndromes ∧ decode 0b0000000000000000000000_0_0_00110010 = .ok .bm ∧
    decode 0b0000000000000000000000_0_0_00110011 = .ok .roots ∧ decode 0b0000000000000000000000_0_0_00110100 = .ok .forney ∧
    decode 0b0000000000000000000000_0_0_00110101 = .ok .apply := ⟨rfl, rfl, rfl, rfl, rfl, rfl⟩

theorem test_decode_flags :
    decode 0b0000000000000000000000_0_0_00110110 = .ok (.decode false false) ∧
    decode 0b0000000000000000000000_0_1_00110110 = .ok (.decode true false) ∧
    decode 0b0000000000000000000000_1_0_00110110 = .ok (.decode false true) ∧
    decode 0b0000000000000000000000_1_1_00110110 = .ok (.decode true true) := ⟨rfl, rfl, rfl, rfl⟩

/-- Section 9 of 95_test_vectors.md: an unlisted opcode, a flag bit of another opcode, bit 10, and NOP with bit 8. -/
theorem test_decode_rejects :
    decode 0x00000002 = .error (.unlistedOpcode 0x02) ∧ decode 0x00000137 = .error (.unlistedOpcode 0x37) ∧
    decode 0x00000436 = .error (.reservedBits 0x00000436) ∧ decode 0x00000100 = .error (.reservedBits 0x00000100) :=
  ⟨rfl, rfl, rfl, rfl⟩

theorem test_decodeTableWord : decodeTableWord 32 0x336 = some (.decode true true) ∧ decodeTableWord 32 0x37 = none :=
  ⟨rfl, rfl⟩

/-- The host's access to a fetched word: from reset, GF.ADD's word raises E_NO_FIELD (section 11's 0x0906). -/
theorem test_withFetchWord :
    (match step (State.reset.withFetchWord 32 0x20) with | .next t => t.statusWord == 0x00000906 | _ => false) = true := by
  decide +kernel

/-! ## States -/

/-- The next state of an outcome. -/
def nextOf (o : Host.Outcome State Fault Refusal) : Option State :=
  match o with
  | .next t => some t
  | .fault _ => none
  | .refused _ => none

/-- GF(16), POLY = 0x13: the tables of section 2.2. -/
def gf16 : State :=
  { State.reset with
    cfgM := 4, cfgPoly := 0x13, fieldOk := true,
    mem := { Memory.drawn 0 with
      expt := numbered 0 [1, 2, 4, 8, 3, 6, 12, 11, 5, 10, 7, 14, 15, 13, 9, 0],
      logt := numbered 0 [15, 0, 1, 4, 2, 8, 5, 10, 3, 14, 9, 7, 6, 13, 11, 12] } }

/-- RS(15,11) of section 3, FCR = 0, with CODE given. -/
def rs16 (code : List Sym) : State :=
  { gf16 with
    cfgNr := 4, genOk := true, genNp := 4, genK := 11,
    mem := { gf16.mem with gen := numbered 0 [12, 1, 3, 15, 1], code := numbered 0 code } }

/-- RS(15,11) ready for a pipeline stage. -/
def stage (syn lam loc mag : List Sym) (deg loccnt : BitVec 16) (code : List Sym) : State :=
  { rs16 code with
    deg := deg, loccnt := loccnt,
    mem := { (rs16 code).mem with
      syn := numbered 0 syn, lambda := numbered 0 lam, loc := numbered 0 loc, mag := numbered 0 mag } }

/-- Section 1's codeword S1. -/
def c16 : List Sym := [1, 2, 3, 4, 5, 6, 7, 8, 9, 10, 11, 3, 3, 12, 12]

/-- BCH(15,7) of section 3, with CODE given. -/
def bch16 (code : List Sym) : State :=
  { gf16 with
    cfgNr := 4, cfgFcr := 1, cfgBch := true, cfgNmp := 2, genOk := true, genNp := 8, genK := 7,
    mem := { gf16.mem with
      gen := numbered 0 [1, 0, 0, 0, 1, 0, 1, 1, 1], minpoly := numbered 0 [0x13, 0x1F], code := numbered 0 code } }

/-- What a command answers in OPR and RESULT, and the fault code it leaves. -/
def oprResultErr (i : Instr) (a b c : Word) : Option (Word × Word × BitVec 8) :=
  (nextOf (exec i { gf16 with opa := a, opb := b, opc := c, opr := 7, result := 9 })).map
    fun t => (t.opr, t.result, t.errcode)

/-! ## One-step tests: the field (sections 2.1 to 2.3) -/

theorem test_buildField_gf8 :
    (nextOf (exec .buildField { State.reset with cfgM := 3, cfgPoly := 0xB })).map
      (fun t => (t.mem.expt, t.mem.logt, t.statusWord)) =
    some (numbered 0 [1, 2, 4, 3, 6, 7, 5, 0], numbered 0 [7, 0, 1, 3, 2, 6, 4, 5], 0x0000000A) := by decide +kernel

theorem test_buildField_faults :
    (nextOf (exec .buildField { gf16 with cfgM := 17 })).map State.statusWord = some 0x00000206 ∧
    (nextOf (exec .buildField { gf16 with cfgPoly := 0x33 })).map State.statusWord = some 0x00000306 ∧
    (nextOf (exec .buildField { gf16 with cfgPoly := 0x1F })).map State.statusWord = some 0x00000406 := by decide +kernel

theorem test_gfAdd : oprResultErr .gfAdd 5 3 0 = some (6, 0, 0) ∧ oprResultErr .gfAdd 16 3 0 = some (7, 9, 0x0B) := by
  decide +kernel

theorem test_gfMul : oprResultErr .gfMul 7 9 0 = some (10, 0, 0) ∧ oprResultErr .gfMul 0 9 0 = some (0, 0, 0) := by
  decide +kernel

theorem test_gfDiv : oprResultErr .gfDiv 10 9 0 = some (7, 0, 0) ∧ oprResultErr .gfDiv 0 0 0 = some (7, 9, 0x0C) := by
  decide +kernel

theorem test_gfInv : oprResultErr .gfInv 9 0 0 = some (2, 0, 0) ∧ oprResultErr .gfInv 0 0 0 = some (7, 9, 0x0C) := by
  decide +kernel

theorem test_gfFma : oprResultErr .gfFma 7 9 3 = some (9, 0, 0) ∧ oprResultErr .gfFma 0 9 3 = some (3, 0, 0) := by
  decide +kernel

theorem test_gfExp : oprResultErr .gfExp 14 0 0 = some (9, 0, 0) ∧ oprResultErr .gfExp 15 0 0 = some (7, 9, 0x0B) := by
  decide +kernel

theorem test_gfLog : oprResultErr .gfLog 3 0 0 = some (4, 0, 0) ∧ oprResultErr .gfLog 0 0 0 = some (7, 9, 0x0C) := by
  decide +kernel

theorem test_gfPow :
    oprResultErr .gfPow 5 0x80000000 0 = some (14, 0, 0) ∧ oprResultErr .gfPow 0 0xFFFFFFFF 0 = some (7, 9, 0x0C) := by
  decide +kernel

theorem test_gfTrace : oprResultErr .gfTrace 8 0 0 = some (1, 0, 0) ∧ oprResultErr .gfTrace 7 0 0 = some (0, 0, 0) := by
  decide +kernel

theorem test_gfQsolve :
    oprResultErr .gfQsolve 1 0 0 = some (6, 0, 0) ∧ oprResultErr .gfQsolve 8 0 0 = some (0, 0xFFFFFFFF, 0) := by
  decide +kernel

theorem test_noField : (nextOf (exec .gfMul State.reset)).map State.statusWord = some 0x00000906 := by decide +kernel

/-! ## One-step tests: the code (sections 3 to 10) -/

theorem test_buildGen_rs :
    (nextOf (exec .buildGen { gf16 with cfgNr := 4 })).map (fun t => (t.mem.gen, t.genInfoWord)) =
    some (numbered 0 [12, 1, 3, 15, 1], 0x000B0004) := by decide +kernel

theorem test_buildGen_bch :
    (nextOf (exec .buildGen (bch16 []))).map (fun t => (t.mem.gen, t.genInfoWord)) =
      some (numbered 0 [1, 0, 0, 0, 1, 0, 1, 1, 1], 0x00070008) ∧
    (nextOf (exec .buildGen { bch16 [] with cfgNr := 5 })).map (fun t => (t.genInfoWord, t.errcode)) =
      some (0, 0x08) := by decide +kernel

theorem test_encode_rs :
    (nextOf (exec .encode (rs16 [1, 2, 3, 4, 5, 6, 7, 8, 9, 10, 11]))).map (fun t => (t.mem.code, t.result)) =
    some (numbered 0 c16, 0) := by decide +kernel

theorem test_encode_bch :
    (nextOf (exec .encode (bch16 [1, 0, 1, 1, 0, 0, 1]))).map (fun t => t.mem.code) =
    some (numbered 0 [1, 0, 1, 1, 0, 0, 1, 0, 0, 0, 1, 1, 1, 1, 0]) := by decide +kernel

theorem test_syndromes :
    (nextOf (exec .syndromes (rs16 (c16.set 3 1)))).map (fun t => (t.mem.syn, t.result)) =
      some (numbered 0 [5, 3, 1, 14], 4) ∧
    (nextOf (exec .syndromes (rs16 c16))).map (fun t => (t.mem.syn, t.result)) =
      some (numbered 0 [0, 0, 0, 0], 0) := by decide +kernel

theorem test_bm :
    (nextOf (exec .bm (stage [14, 6, 2, 0] [] [] [] 0 0 c16))).map (fun t => (t.mem.lambda, t.deg, t.result)) =
    some (numbered 0 [1, 8, 9, 0, 0], 2, 2) := by decide +kernel

theorem test_roots :
    (nextOf (exec .roots (stage [] [1, 8, 9] [] [] 2 0 c16))).map (fun t => (t.mem.loc, t.loccnt, t.result)) =
      some (numbered 0 [0, 14], 2, 2) ∧
    (nextOf (exec .roots (stage [] [1, 12, 1] [] [] 2 0 c16))).map (fun t => (t.mem.loc, t.loccnt, t.result)) =
      some ([], 0, 0) := by decide +kernel

theorem test_forney :
    (nextOf (exec .forney (stage [14, 6, 2, 0] [1, 8, 9] [0, 14] [] 2 2 c16))).map
      (fun t => (t.mem.omega, t.mem.mag, t.result)) =
    some (numbered 0 [14, 15, 0, 0], numbered 0 [1, 15], 2) := by decide +kernel

theorem test_apply :
    (nextOf (exec .apply (stage [] [] [0, 14] [1, 15] 0 2 ((c16.set 0 0).set 14 3)))).map
      (fun t => (t.mem.code, t.result)) = some (numbered 0 c16, 2) ∧
    (nextOf (exec .apply (stage [] [] [4, 4] [6, 6] 0 2 c16))).map (fun t => (t.mem.code, t.result)) =
      some (numbered 0 c16, 0) := by decide +kernel

/-- P2: one error. -/
theorem test_decode_one_error :
    (nextOf (exec (.decode false false) (rs16 (c16.set 3 1)))).map (fun t => (t.mem.code, t.mem.lambda, t.result)) =
      some (numbered 0 c16, numbered 0 [1, 14, 0, 0, 0], 1) ∧
    (nextOf (exec (.decode false false) (rs16 (c16.set 3 1)))).map (fun t => (t.mem.loc, t.mem.omega, t.mem.mag)) =
      some (numbered 0 [3], numbered 0 [5, 0, 0, 0], numbered 0 [5]) := by decide +kernel

/-- DV8 and DV9: beyond the code's limit, with and without the verification. -/
theorem test_decode_verification :
    (nextOf (exec (.decode false false) (rs16 (((c16.set 8 13).set 12 4).set 14 13)))).map (fun t => t.result) =
      some 0xFFFFFFFF ∧
    (nextOf (exec (.decode false true) (rs16 (((c16.set 8 13).set 12 4).set 14 13)))).map (fun t => t.result) =
      some 1 := by decide +kernel

/-! ## One-step tests: the system, the port and the reset input (sections 9 and 11) -/

theorem test_nop : nextOf (exec .nop gf16) = some { gf16 with done := true } := by decide +kernel

theorem test_srst :
    (nextOf (exec .srst (rs16 c16))).map (fun t => (t.statusWord, t.cfgM, t.mem.code)) =
    some (0x00000002, 0, numbered 0 c16) := by decide +kernel

theorem test_port_reads :
    (gf16.hostAccess (.read 0x00000)).response = some (.okayData 0x01000110) ∧
    (gf16.hostAccess (.read 0x0004C)).response = some .error ∧ (gf16.hostAccess (.read 0x00002)).response = some .error ∧
    ((rs16 c16).hostAccess (.read 0xC0038)).response = some (.okayData 12) := by decide +kernel

theorem test_port_writes :
    (gf16.hostAccess (.write 0x01000 1)).response = some .error ∧
    (gf16.hostAccess (.write 0xC0000 0x00010000)).response = some .error ∧
    (gf16.hostAccess (.write 0x00014 0x20)).response = some .error ∧
    ((rs16 c16).hostAccess (.write 0x02000 0x00010000)).statusWord = 0x00000008 ∧
    ((rs16 c16).hostAccess (.write 0x00014 4)).statusWord = 0 := by decide +kernel

/-- P6: while BUSY a read of RESULT is refused. -/
theorem test_port_busy :
    ((rs16 c16).accept 0x30 |>.hostAccess (.read 0x00010)).response = some .error ∧
    ((rs16 c16).accept 0x30 |>.hostAccess (.read 0x00008)).response = some (.okayData 0x00000019) := by decide +kernel

theorem test_reset_input :
    (((rs16 c16).driveReset true).driveReset false).statusWord = 0 ∧
    (((rs16 c16).driveReset true).driveReset false).mem.code = [] := by decide +kernel

/-! ## Witnesses: a state and operands that meet each obligation's hypotheses -/

/-- GF(4), POLY = 0x7: the tables of section 2.1. -/
def gf4 : State :=
  { State.reset with
    cfgM := 2, cfgPoly := 0x7, fieldOk := true,
    mem := { Memory.drawn 0 with expt := numbered 0 [1, 2, 3, 0], logt := numbered 0 [3, 0, 1, 2] } }

/-- RS(3,1): NR = 2, FCR = 1, g(x) = x² ⊕ x ⊕ 1, with the arrays a stage reads. -/
def rs4 (code syn lam loc mag eras : List Sym) : State :=
  { gf4 with
    cfgNr := 2, cfgFcr := 1, genOk := true, genNp := 2, genK := 1,
    mem := { gf4.mem with
      gen := numbered 0 [1, 1, 1], code := numbered 0 code, syn := numbered 0 syn, lambda := numbered 0 lam,
      loc := numbered 0 loc, mag := numbered 0 mag, eras := numbered 0 eras } }

/-- BCH(3,1): the same generator, from the minimal polynomial x² ⊕ x ⊕ 1. -/
def bch4 (code : List Sym) : State :=
  { rs4 code [] [] [] [] [] with
    cfgBch := true, cfgNmp := 1, mem := { (rs4 code [] [] [] [] []).mem with minpoly := numbered 0 [0x7] } }

/-- R62's conditions on FIELD_OK, as a check of a concrete state. -/
def fieldCheck (s : State) : Bool :=
  decide (2 ≤ s.cfgM.toNat ∧ s.cfgM.toNat ≤ 16) && s.cfgPoly.getLsbD s.cfgM.toNat &&
  (List.range 17).all (fun b => decide (b ≤ s.cfgM.toNat) || !s.cfgPoly.getLsbD b) &&
  (List.range s.n).all (fun i => i == 0 || s.power i != 1) && s.power s.n == 1 &&
  (List.range s.n).all (fun i => s.rd .expt i == s.power i) &&
  (List.range (s.n + 1)).all (fun k => k == 0 || decide (s.logOf (BitVec.ofNat 16 k) < s.n) &&
    s.rd .expt (s.logOf (BitVec.ofNat 16 k)) == BitVec.ofNat 16 k) &&
  s.rd .expt s.n == 0 && s.logOf 0 == s.n

/-- R62's conditions on GEN_OK, as a check of a concrete state. -/
def genCheck (s : State) : Bool :=
  decide (1 ≤ s.nr ∧ s.nr ≤ min 256 (s.n - 1)) && decide (s.fcr ≤ s.n - 1) &&
  decide (s.cfgBch = true → s.minpolyOk = true) && decide (s.generator.length = s.np + 1) &&
  decide (∀ j, j ≤ s.np → s.rd .gen j = s.generator.getD j 0) &&
  decide (1 ≤ s.np ∧ s.np ≤ min 256 (s.n - 1)) && decide (s.k = s.n - s.np) && decide (s.rd .gen s.np = 1) &&
  decide (∀ i, i < s.nr → peval s.gf (s.rdList .gen (s.np + 1)) (s.gf.pe ((s.fcr + i : Nat) : Int)) = 0)

theorem tablesBuilt_of_check {s : State} (h : fieldCheck s = true) : s.TablesBuilt := by
  simp only [fieldCheck, Bool.and_eq_true, decide_eq_true_eq, List.all_eq_true, List.mem_range, Bool.or_eq_true,
    Bool.not_eq_true', beq_iff_eq, bne_iff_ne, ne_eq] at h
  obtain ⟨⟨⟨⟨⟨⟨⟨⟨hm, hd⟩, hd'⟩, hf⟩, hr⟩, he⟩, hl⟩, hx⟩, hy⟩ := h
  refine ⟨⟨hm, ⟨hd, fun b hb => ?_⟩, fun i h0 hi => ?_, hr⟩, he, fun v hv hle => ?_, hx, hy⟩
  · by_cases h17 : b < 17
    · exact (hd' b h17).resolve_left (by omega)
    · exact BitVec.getLsbD_of_ge _ _ (by omega)
  · exact (hf i hi).resolve_left (by omega)
  · have := (hl v.toNat (by omega)).resolve_left fun h0 => hv (BitVec.eq_of_toNat_eq h0)
    rwa [BitVec.ofNat_toNat, BitVec.setWidth_eq] at this

theorem truthful_of_check {s : State} (hg : s.genOk = false) (h : fieldCheck s = true) : s.FlagsTruthful :=
  ⟨fun _ => tablesBuilt_of_check h, fun hc => by rw [hg] at hc; cases hc⟩

theorem codeReady_of_check {s : State} (hf : s.fieldOk = true) (hg : s.genOk = true) (h : fieldCheck s = true)
    (h' : genCheck s = true) : s.CodeReady := by
  refine ⟨hf, hg, ⟨fun _ => tablesBuilt_of_check h, fun _ => ⟨hf, ?_⟩⟩⟩
  simp only [genCheck, Bool.and_eq_true, decide_eq_true_eq] at h'
  obtain ⟨⟨⟨⟨⟨⟨⟨⟨h1, h2⟩, h3⟩, h4⟩, h5⟩, h6⟩, h7⟩, h8⟩, h9⟩ := h'
  exact ⟨h1, h2, h3, h4, h5, h6, h7, h8, h9⟩

/-- The clauses of R115 on a word: its opcode unlisted, a reserved bit, a flag bit of another opcode. -/
def illegalClauses (c : Word) (bit : Nat) : Bool :=
  (decide (0x02 ≤ c.toNat % 256) && decide (c.toNat % 256 ≤ 0x0F)) ||
  (decide (0x12 ≤ c.toNat % 256) && decide (c.toNat % 256 ≤ 0x1F)) ||
  (decide (0x2A ≤ c.toNat % 256) && decide (c.toNat % 256 ≤ 0x2F)) || decide (0x37 ≤ c.toNat % 256) ||
  (decide (10 ≤ bit) && c.getLsbD bit) || (c.toNat % 256 != 0x36 && decide (8 ≤ bit) && c.getLsbD bit)

/-- Every clause at the boundary words of its range, and the fault each raises. -/
theorem witness_IllegalWordFaults :
    ([(0x02, 0), (0x0F, 0), (0x12, 0), (0x1F, 0), (0x2A, 0), (0x2F, 0), (0x37, 0), (0xFF, 0), (0x436, 10),
      (0x80000010, 31), (0x110, 8), (0x210, 9)] : List (Word × Nat)).all (fun c =>
        illegalClauses c.1 c.2 && ({ gf4 with engine := .busy c.1 } : State).agenda == [] &&
        nextOf (step { gf4 with engine := .busy c.1 }) ==
          some (State.faulted { gf4 with engine := .busy c.1 } 0x01)) = true := by
  decide +kernel

/-- One state for each turn: host, reset input, engine first and engine by default; IDLE, a command and an illegal
word. -/
theorem witness_StepRunsDecodedCommand :
    ({ gf4 with agenda := [.host (.read 0x00008)] } : State).agenda = .host (.read 0x00008) :: [] ∧
    ({ gf4 with agenda := [.resetInput true] } : State).agenda = .resetInput true :: [] ∧
    gf4.agenda = [] ∧ gf4.engine = .idle ∧
    ({ gf4 with engine := .busy 0x21, agenda := [.engine] } : State).agenda = .engine :: [] ∧
    ({ gf4 with engine := .busy 0x21 } : State).engine = .busy 0x21 ∧ decode 0x21 = .ok .gfMul ∧
    ({ gf4 with engine := .busy 0x137 } : State).engine = .busy 0x137 ∧
    decode 0x137 = .error (.unlistedOpcode 0x37) := ⟨rfl, rfl, rfl, rfl, rfl, rfl, rfl, rfl, rfl⟩

theorem witness_DecodedWordIsItsEncoding : decode 0x00000336 = .ok (.decode true true) := rfl

theorem witness_NopOnlyCompletes : (0x100 : Word).toNat % 256 = 0 ∧ (0x100 : Word) ≠ 0 := by decide

theorem witness_BuildFieldBuildsTheTables : gf4.FieldConfigOk := (tablesBuilt_of_check (by decide +kernel)).config

/-- One state for each clause: M at both ends, POLY at both ends, a first return before step N, and none at step N. -/
theorem witness_BuildFieldFaults :
    ((1 : BitVec 5).toNat < 2 ∧ 16 < (17 : BitVec 5).toNat) ∧
    (0x3 : Mask).getLsbD 2 = false ∧ ((0xF : Mask).getLsbD 2 = true ∧ (0xF : Mask).getLsbD 3 = true) ∧
    (0 < 5 ∧ 5 < ({ gf16 with cfgPoly := 0x1F } : State).n ∧ ({ gf16 with cfgPoly := 0x1F } : State).power 5 = 1) ∧
    (({ gf16 with cfgPoly := 0x11 } : State).power ({ gf16 with cfgPoly := 0x11 } : State).n ≠ 1) := by decide +kernel

theorem witness_FieldCommandsCheckTheirOperands :
    isFieldCommand .gfFma = true ∧ State.reset.fieldOk = false ∧ gf4.fieldOk = true ∧
    (∃ x ∈ valueOperands { gf4 with opc := 4 } .gfFma, ({ gf4 with opc := 4 } : State).q ≤ x.toNat) ∧
    ({ gf4 with opa := 3 } : State).n ≤ ({ gf4 with opa := 3 } : State).opa.toNat ∧
    (valueOperands gf4 .gfFma).all (fun x => decide (x.toNat < gf4.q)) = true := by
  refine ⟨rfl, rfl, rfl, ⟨4, ?_, ?_⟩, ?_, ?_⟩ <;> decide +kernel

/-- GF(4) with operands at the top of their range, and the operands a clause excludes. -/
def ops4 (a b c : Word) : State := { gf4 with opa := a, opb := b, opc := c }

theorem witness_AddMulFmaAnswer :
    (ops4 3 3 3).fieldOk = true ∧ (ops4 3 3 3).opa.toNat < (ops4 3 3 3).q ∧ (ops4 3 3 3).opb.toNat < (ops4 3 3 3).q ∧
    (ops4 3 3 3).opc.toNat < (ops4 3 3 3).q := by decide +kernel

theorem witness_DivInvAnswer :
    (ops4 3 1 0).fieldOk = true ∧ (ops4 3 1 0).opa.toNat < (ops4 3 1 0).q ∧ (ops4 3 1 0).opb.toNat < (ops4 3 1 0).q ∧
    (ops4 3 1 0).opb ≠ 0 ∧ (ops4 3 1 0).opa ≠ 0 ∧ (ops4 0 0 0).opa = 0 ∧ (ops4 0 0 0).opb = 0 := by decide +kernel

theorem witness_ExpLogAnswer :
    (ops4 2 0 0).fieldOk = true ∧ (ops4 2 0 0).opa.toNat < (ops4 2 0 0).n ∧ (ops4 3 0 0).opa ≠ 0 ∧
    (ops4 3 0 0).opa.toNat < (ops4 3 0 0).q ∧ (ops4 0 0 0).opa = 0 := by decide +kernel

theorem witness_PowAnswers :
    (ops4 3 0x80000000 0).FlagsTruthful ∧ (ops4 3 0x80000000 0).opa.toNat < (ops4 3 0x80000000 0).q ∧
    (ops4 3 0x80000000 0).opa ≠ 0 ∧ (ops4 0 0xFFFFFFFF 0).opb.toInt < 0 ∧ (ops4 0 0 0).opb = 0 ∧
    0 < (ops4 0 1 0).opb.toInt ∧ (ops4 0 1 0).opa = 0 ∧ (ops4 0 1 0).FlagsTruthful :=
  ⟨truthful_of_check rfl (by decide +kernel), by decide +kernel, by decide +kernel, by decide +kernel, by decide +kernel,
    by decide +kernel, by decide +kernel, truthful_of_check rfl (by decide +kernel)⟩

theorem witness_TraceAnswersABit :
    (ops4 1 0 0).fieldOk = true ∧ (ops4 1 0 0).FlagsTruthful ∧ (ops4 1 0 0).opa.toNat < (ops4 1 0 0).q ∧
    (ops4 1 0 0).opa = 1 ∧ (ops4 0 0 0).opa = 0 :=
  ⟨rfl, truthful_of_check rfl (by decide +kernel), by decide +kernel, rfl, rfl⟩

/-- GF(4): y = 2 solves y² ⊕ y = 1 (section 2.3), and nothing solves y² ⊕ y = 2. -/
theorem witness_QsolveAnswersTheSolution :
    (ops4 1 0 0).FlagsTruthful ∧ (ops4 1 0 0).opa.toNat < (ops4 1 0 0).q ∧
    ((2 : Sym).toNat < (ops4 1 0 0).q ∧ (2 : Sym).getLsbD 0 = false ∧
      gmul (ops4 1 0 0).gf 2 2 ^^^ 2 = (ops4 1 0 0).opa.setWidth 16) ∧
    (∀ y : Sym, y.toNat < (ops4 2 0 0).q → gmul (ops4 2 0 0).gf y y ^^^ y ≠ (ops4 2 0 0).opa.setWidth 16) := by
  refine ⟨truthful_of_check rfl (by decide +kernel), by decide +kernel, by decide +kernel, fun y hy => ?_⟩
  have h : ∀ k, k < 4 → gmul (ops4 2 0 0).gf (BitVec.ofNat 16 k) (BitVec.ofNat 16 k) ^^^ BitVec.ofNat 16 k ≠
      (ops4 2 0 0).opa.setWidth 16 := by decide +kernel
  have := h y.toNat hy
  rwa [BitVec.ofNat_toNat, BitVec.setWidth_eq] at this

/-- The trace of 2 is 1 and that of 1 is 0 in GF(4), where 2 solves y² ⊕ y = 1. -/
theorem witness_QsolveFailsExactlyOnTraceOne :
    (ops4 2 0 0).fieldOk = true ∧ (ops4 2 0 0).FlagsTruthful ∧ (ops4 2 0 0).opa.toNat < (ops4 2 0 0).q ∧
    (nextOf (exec .gfTrace (ops4 2 0 0))).map (fun t => t.opr) = some 1 ∧
    (nextOf (exec .gfQsolve (ops4 2 0 0))).map (fun t => t.result) = some 0xFFFFFFFF ∧
    (nextOf (exec .gfTrace (ops4 1 0 0))).map (fun t => t.opr) = some 0 ∧
    gmul (ops4 1 0 0).gf 2 2 ^^^ 2 = (ops4 1 0 0).opa.setWidth 16 :=
  ⟨rfl, truthful_of_check rfl (by decide +kernel), by decide +kernel, by decide +kernel, by decide +kernel,
    by decide +kernel, by decide +kernel⟩

theorem witness_MulIsThePolynomialProduct :
    (ops4 3 2 0).fieldOk = true ∧ (ops4 3 2 0).FlagsTruthful ∧ (ops4 3 2 0).opa.toNat < (ops4 3 2 0).q ∧
    (ops4 3 2 0).opb.toNat < (ops4 3 2 0).q :=
  ⟨rfl, truthful_of_check rfl (by decide +kernel), by decide +kernel, by decide +kernel⟩

/-- GF(4) configured for BUILD_GEN. -/
def cfg4 (nr fcr : BitVec 16) (bch : Bool) (nmp : BitVec 16) (ms : List Mask) : State :=
  { gf4 with
    cfgNr := nr, cfgFcr := fcr, cfgBch := bch, cfgNmp := nmp, mem := { gf4.mem with minpoly := numbered 0 ms } }

theorem witness_RsGeneratorIsBuilt :
    (cfg4 2 2 false 0 []).fieldOk = true ∧ (cfg4 2 2 false 0 []).FlagsTruthful ∧ (cfg4 2 2 false 0 []).cfgBch = false ∧
    1 ≤ (cfg4 2 2 false 0 []).nr ∧ (cfg4 2 2 false 0 []).nr ≤ 256 ∧
    (cfg4 2 2 false 0 []).nr ≤ (cfg4 2 2 false 0 []).n - 1 ∧
    (cfg4 2 2 false 0 []).fcr ≤ (cfg4 2 2 false 0 []).n - 1 :=
  ⟨rfl, truthful_of_check rfl (by decide +kernel), by decide +kernel⟩

/-- BCH(3,1), whose one minimal polynomial x² ⊕ x ⊕ 1 vanishes at pe^1 and pe^2. -/
def cfgBch4 : State := cfg4 2 1 true 1 [0x7]

theorem witness_BchGeneratorIsBuilt :
    cfgBch4.fieldOk = true ∧ cfgBch4.FlagsTruthful ∧ cfgBch4.cfgBch = true ∧
    (1 ≤ cfgBch4.nr ∧ cfgBch4.nr ≤ 256 ∧ cfgBch4.nr ≤ cfgBch4.n - 1 ∧ cfgBch4.fcr ≤ cfgBch4.n - 1) ∧
    (1 ≤ cfgBch4.cfgNmp.toNat ∧ cfgBch4.cfgNmp.toNat ≤ 256) ∧
    (∀ k, k < cfgBch4.cfgNmp.toNat →
      2 ≤ (cfgBch4.mem.rdMinpoly k).toNat ∧ (cfgBch4.mem.rdMinpoly k).toNat < 2 ^ (cfgBch4.cfgM.toNat + 1)) ∧
    (∑ k ∈ Finset.range cfgBch4.cfgNmp.toNat, (cfgBch4.mem.rdMinpoly k).toNat.log2) ≤ cfgBch4.n - 1 ∧
    (∀ i, i < cfgBch4.nr → ∃ k, k < cfgBch4.cfgNmp.toNat ∧ cfgBch4.minpolyAt k (cfgBch4.targetRoot i) = 0) := by
  refine ⟨rfl, truthful_of_check rfl (by decide +kernel), rfl, by decide +kernel, by decide +kernel, by decide +kernel,
    by decide +kernel, fun i hi => ⟨0, by decide +kernel, ?_⟩⟩
  have h : ∀ i, i < 2 → cfgBch4.minpolyAt 0 (cfgBch4.targetRoot i) = 0 := by decide +kernel
  exact h i hi

/-- One state for each fault, at the boundary of its range. -/
theorem witness_BuildGenFaults :
    State.reset.fieldOk = false ∧
    ((cfg4 0 0 false 0 []).nr < 1 ∧ 256 < (cfg4 257 0 false 0 []).nr ∧ gf4.n - 1 < (cfg4 3 0 false 0 []).nr) ∧
    (cfg4 2 3 false 0 []).n - 1 < (cfg4 2 3 false 0 []).fcr ∧
    ((cfg4 2 2 true 0 []).cfgNmp.toNat < 1 ∧ 256 < (cfg4 2 2 true 257 []).cfgNmp.toNat ∧
      ((cfg4 2 2 true 1 [0x1]).mem.rdMinpoly 0).toNat < 2 ∧ 2 ^ (2 + 1) ≤ ((cfg4 2 2 true 1 [0x8]).mem.rdMinpoly 0).toNat ∧
      min 256 (gf4.n - 1) <
        ∑ k ∈ Finset.range 2, ((cfg4 2 2 true 2 [0x7, 0x7]).mem.rdMinpoly k).toNat.log2) ∧
    ((cfg4 2 0 true 1 [0x7]).FlagsTruthful ∧ (cfg4 2 0 true 1 [0x7]).minpolyOk = true ∧
      0 < (cfg4 2 0 true 1 [0x7]).nr ∧
      ∀ k, k < 1 → (cfg4 2 0 true 1 [0x7]).minpolyAt k ((cfg4 2 0 true 1 [0x7]).targetRoot 0) ≠ 0) :=
  ⟨rfl, by decide +kernel, by decide +kernel, by decide +kernel, truthful_of_check rfl (by decide +kernel),
    by decide +kernel, by decide +kernel, by decide +kernel⟩

theorem witness_PipelineCommandsNeedFieldAndGenerator :
    isPipelineCommand .apply = true ∧ State.reset.fieldOk = false ∧ (gf4.fieldOk = true ∧ gf4.genOk = false) ∧
    (nextOf (exec .apply (rs4 [1, 1, 1] [] [] [] [] []))).isSome = true := ⟨rfl, rfl, ⟨rfl, rfl⟩, by decide +kernel⟩

/-- One state for each check, at the boundary of its range. -/
theorem witness_PipelineChecksFault :
    (rs4 [] [] [] [] [] []).fieldOk = true ∧ (rs4 [] [] [] [] [] []).genOk = true ∧
    4 ≤ ((rs4 [4, 1, 1] [] [] [] [] []).rd .code 0).toNat ∧ ¬ (2 ≤ 1) ∧
    (¬ ((bch4 [2]).rd .code 0).toNat ≤ 1) ∧
    gf4.n ≤ ((rs4 [] [] [] [] [] [3]).rd .eras 0).toNat ∧ 4 ≤ ((rs4 [] [4, 0] [] [] [] []).rd .syn 0).toNat ∧
    4 ≤ ((rs4 [] [] [1, 4] [] [] []).rd .lambda 1).toNat ∧ 3 ≤ ((rs4 [] [] [] [3] [] []).rd .loc 0).toNat ∧
    4 ≤ ((rs4 [] [] [] [0] [4] []).rd .mag 0).toNat ∧
    (({ rs4 [] [] [] [] [] [] with neras := 3, deg := 3, loccnt := 3 } : State).nr < 3) := by decide +kernel


/-- RS(3,1) with a message (m = 3, so the codeword is 3, 3, 3). -/
def msg4 : State := rs4 [3] [] [] [] [] []

/-- A state whose two checks hold meets R62. -/
theorem ready4 : msg4.CodeReady := codeReady_of_check rfl rfl (by decide +kernel) (by decide +kernel)

theorem witness_EncodedWordIsDivisible : msg4.CodeReady ∧ ∀ i, i < msg4.k → msg4.InRange (msg4.rd .code i) :=
  ⟨ready4, by unfold State.InRange; decide +kernel⟩

theorem witness_EncodedWordHasZeroSyndromes : msg4.CodeReady ∧ ∀ i, i < msg4.k → msg4.InRange (msg4.rd .code i) :=
  witness_EncodedWordIsDivisible

theorem witness_BchParityIsBinary :
    (bch4 [1]).CodeReady ∧ (bch4 [1]).cfgBch = true ∧ (∀ i, i < (bch4 [1]).k → ((bch4 [1]).rd .code i).toNat ≤ 1) ∧
    (nextOf (exec .encode (bch4 [1]))).map (fun t => t.mem.code) = some (numbered 0 [1, 1, 1]) :=
  ⟨codeReady_of_check rfl rfl (by decide +kernel) (by decide +kernel), rfl, by decide +kernel, by decide +kernel⟩

/-- RS(3,1) with the codeword 3, 3, 3 and an error 2 at position 1: SYN = 2·pe^1, 2·pe^2 = 3, 1. -/
def word4 : State :=
  { rs4 [3, 1, 3] [3, 1] [1, 2, 0] [1] [2] [1, 2] with deg := 1, loccnt := 1 }

theorem ready_word4 : word4.CodeReady := codeReady_of_check rfl rfl (by decide +kernel) (by decide +kernel)

theorem word4_inRange : ∀ j, j < word4.n → word4.InRange (word4.rd .code j) := by unfold State.InRange; decide +kernel

theorem witness_SyndromesEvaluateTheCode :
    word4.CodeReady ∧ (∀ j, j < word4.n → word4.InRange (word4.rd .code j)) ∧
    (nextOf (exec .syndromes word4)).map (fun t => (t.mem.syn, t.result)) = some (numbered 0 [3, 1], 2) :=
  ⟨ready_word4, word4_inRange, by decide +kernel⟩

theorem witness_SyndromesAreLinear :
    word4.TablesBuilt ∧ ([3, 3, 3] : List Sym).length = word4.n ∧ ([0, 2, 0] : List Sym).length = word4.n ∧
    (∀ v ∈ ([3, 3, 3] : List Sym), v.toNat < word4.q) ∧ (∀ v ∈ ([0, 2, 0] : List Sym), v.toNat < word4.q) ∧
    1 < word4.n ∧ (2 : Sym).toNat < word4.q ∧ ([0, 2, 0] : List Sym) = (List.replicate word4.n 0).set 1 2 :=
  ⟨tablesBuilt_of_check (by decide +kernel), rfl, rfl, by simp [word4, rs4, gf4, State.q],
    by simp [word4, rs4, gf4, State.q], by decide +kernel, by decide +kernel, rfl⟩

theorem witness_BmAnswersALocator :
    word4.CodeReady ∧ word4.neras.toNat ≤ word4.nr ∧ (∀ e, e < word4.neras.toNat → (word4.rd .eras e).toNat < word4.n) ∧
    (∀ i, i < word4.nr → (word4.rd .syn i).toNat < word4.q) ∧
    (nextOf (exec .bm word4)).map (fun t => (t.mem.lambda, t.deg)) = some (numbered 0 [1, 2, 0], 1) :=
  ⟨ready_word4, by decide +kernel, by decide +kernel, by decide +kernel, by decide +kernel⟩

/-- The same with both erasures listed. -/
def erased4 : State := { word4 with neras := 2 }

theorem ready_erased4 : erased4.CodeReady := codeReady_of_check rfl rfl (by decide +kernel) (by decide +kernel)

theorem witness_FullErasureListGivesTheErasureLocator :
    erased4.CodeReady ∧ erased4.neras = erased4.cfgNr ∧ (∀ e, e < erased4.nr → (erased4.rd .eras e).toNat < erased4.n) ∧
    (∀ i, i < erased4.nr → (erased4.rd .syn i).toNat < erased4.q) :=
  ⟨ready_erased4, rfl, by decide +kernel, by decide +kernel⟩

theorem witness_RootsFindsThePositions :
    word4.CodeReady ∧ word4.deg.toNat ≤ word4.nr ∧
    (∀ j, j ≤ word4.deg.toNat → (word4.rd .lambda j).toNat < word4.q) ∧ word4.rd .lambda 0 = 1 ∧
    (nextOf (exec .roots word4)).map (fun t => (t.mem.loc, t.loccnt)) = some (numbered 0 [1], 1) :=
  ⟨ready_word4, by decide +kernel, by decide +kernel, by decide +kernel, by decide +kernel⟩

theorem witness_RootsAnswersMinusOneOnABadConstant :
    (rs4 [] [] [2, 1, 0] [] [] []).fieldOk = true ∧ (rs4 [] [] [2, 1, 0] [] [] []).genOk = true ∧
    (rs4 [] [] [2, 1, 0] [] [] []).deg.toNat ≤ (rs4 [] [] [2, 1, 0] [] [] []).nr ∧
    (∀ j, j ≤ (rs4 [] [] [2, 1, 0] [] [] []).deg.toNat →
      ((rs4 [] [] [2, 1, 0] [] [] []).rd .lambda j).toNat < (rs4 [] [] [2, 1, 0] [] [] []).q) ∧
    (rs4 [] [] [2, 1, 0] [] [] []).rd .lambda 0 ≠ 1 := by decide +kernel

theorem witness_RootsOfDegreeOneInClosedForm :
    word4.CodeReady ∧ word4.deg = 1 ∧ word4.rd .lambda 0 = 1 ∧ word4.rd .lambda 1 ≠ 0 ∧
    (word4.rd .lambda 1).toNat < word4.q := ⟨ready_word4, rfl, rfl, by decide +kernel, by decide +kernel⟩

/-- A locator of degree 2, (1 ⊕ pe^2·x)(1 ⊕ pe^1·x) = 1 ⊕ x ⊕ x², and one with a double root. -/
def quad4 (l1 l2 : Sym) : State := { rs4 [] [] [1, l1, l2] [] [] [] with deg := 2 }

theorem witness_RootsOfDegreeTwoInClosedForm :
    (quad4 1 1).CodeReady ∧ (quad4 1 1).deg = 2 ∧ 2 ≤ (quad4 1 1).nr ∧ (quad4 1 1).rd .lambda 0 = 1 ∧
    ((quad4 1 1).rd .lambda 1).toNat < (quad4 1 1).q ∧ ((quad4 1 1).rd .lambda 2).toNat < (quad4 1 1).q ∧
    (quad4 1 1).rd .lambda 2 ≠ 0 ∧ (quad4 1 1).rd .lambda 1 ≠ 0 ∧
    ((quad4 0 3).CodeReady ∧ (quad4 0 3).rd .lambda 1 = 0) ∧
    ((quad4 1 2).CodeReady ∧ gqsolve (quad4 1 2).gf (gdiv (quad4 1 2).gf 2 (gmul (quad4 1 2).gf 1 1)) = none) :=
  ⟨codeReady_of_check rfl rfl (by decide +kernel) (by decide +kernel), rfl, by decide +kernel, by decide +kernel,
    by decide +kernel, by decide +kernel, by decide +kernel, by decide +kernel,
    ⟨codeReady_of_check rfl rfl (by decide +kernel) (by decide +kernel), by decide +kernel⟩,
    ⟨codeReady_of_check rfl rfl (by decide +kernel) (by decide +kernel), by decide +kernel⟩⟩

theorem word4_pipeline :
    word4.deg.toNat ≤ word4.nr ∧ word4.loccnt.toNat ≤ word4.nr ∧ (∀ i, i < word4.nr → (word4.rd .syn i).toNat < word4.q) ∧
    (∀ j, j ≤ word4.deg.toNat → (word4.rd .lambda j).toNat < word4.q) ∧
    (∀ k, k < word4.loccnt.toNat → (word4.rd .loc k).toNat < word4.n) := by decide +kernel

/-- The derivative of 1 ⊕ 2x is 2 everywhere; that of 1 ⊕ 3x² is 0 everywhere. -/
theorem witness_ForneyWritesTheMagnitudes :
    word4.CodeReady ∧
    (word4.deg.toNat ≤ word4.nr ∧ word4.loccnt.toNat ≤ word4.nr ∧
      (∀ i, i < word4.nr → (word4.rd .syn i).toNat < word4.q) ∧
      (∀ j, j ≤ word4.deg.toNat → (word4.rd .lambda j).toNat < word4.q) ∧
      (∀ k, k < word4.loccnt.toNat → (word4.rd .loc k).toNat < word4.n)) ∧
    (nextOf (exec .forney word4)).map (fun t => (t.mem.omega, t.mem.mag, t.result)) =
      some (numbered 0 [3, 0], numbered 0 [2], 1) ∧
    (nextOf (exec .forney { rs4 [] [3, 1] [1, 0, 3] [1] [] [] with deg := 2, loccnt := 1 })).map (fun t => t.errcode) =
      some 0x0C := ⟨ready_word4, word4_pipeline, by decide +kernel, by decide +kernel⟩

theorem witness_ApplyXorsTheMagnitudes :
    word4.fieldOk = true ∧ word4.genOk = true ∧ word4.loccnt.toNat ≤ word4.nr ∧
    (∀ k, k < word4.loccnt.toNat → (word4.rd .loc k).toNat < word4.n ∧ word4.InRange (word4.rd .mag k)) := by
  unfold State.InRange
  decide +kernel

theorem erased4_eras : ∀ e, e < erased4.neras.toNat → (erased4.rd .eras e).toNat < erased4.n := by decide +kernel

/-- A state DECODE may be run on: the premises of its statements, all but R62. -/
def decodeInputOk (s : State) : Bool :=
  decide (s.neras.toNat ≤ s.nr) && s.erasures.all (fun p => decide (p < s.n)) && s.codeword.all s.symbolOk

/-- The state after SYNDROMES, BM and ROOTS. -/
def afterRoots (s : State) : Option State :=
  ((nextOf (exec .syndromes s)).bind fun a => nextOf (exec .bm a)).bind fun b => nextOf (exec .roots b)

/-- One state for each exit of R298 but the guard: the early success of a codeword. -/
theorem witness_DecodeOutcomes :
    erased4.CodeReady ∧ erased4.neras.toNat ≤ erased4.nr ∧
    (∀ e, e < erased4.neras.toNat → (erased4.rd .eras e).toNat < erased4.n) ∧
    (∀ p, p < erased4.n → erased4.InRange (erased4.rd .code p)) ∧
    (nextOf (exec .syndromes (rs4 [3, 3, 3] [] [] [] [] []))).map (fun a => a.result) = some 0 :=
  ⟨ready_erased4, by decide +kernel, erased4_eras, by unfold State.InRange; decide +kernel, by decide +kernel⟩

/-- The word 0, 1, 3 has the syndromes 1, 0, whose locator trims to degree 0. -/
theorem witness_DecodeOutcomes_degree_zero :
    (rs4 [0, 1, 3] [] [] [] [] []).CodeReady ∧ decodeInputOk (rs4 [0, 1, 3] [] [] [] [] []) = true ∧
    (afterRoots (rs4 [0, 1, 3] [] [] [] [] [])).map (fun c => c.deg) = some 0 :=
  ⟨codeReady_of_check rfl rfl (by decide +kernel) (by decide +kernel), by decide +kernel, by decide +kernel⟩

/-- An erasure listed twice (R234): degree 2, one root. -/
def twice4 : State := { rs4 [3, 1, 3] [] [] [] [] [1, 1] with neras := 2 }

theorem witness_DecodeOutcomes_short_count :
    twice4.CodeReady ∧ decodeInputOk twice4 = true ∧
    (afterRoots twice4).map (fun c => (c.deg, c.loccnt)) = some (2, 1) :=
  ⟨codeReady_of_check rfl rfl (by decide +kernel) (by decide +kernel), by decide +kernel, by decide +kernel⟩

/-- BCH(15,7) with bits 0 and 3 of a codeword flipped and the right symbols 1 and 2 listed as erased. -/
def large16 : State :=
  { bch16 [0, 0, 1, 0, 0, 0, 1, 0, 0, 0, 1, 1, 1, 1, 0] with
    neras := 2, mem := { (bch16 [0, 0, 1, 0, 0, 0, 1, 0, 0, 0, 1, 1, 1, 1, 0]).mem with eras := numbered 0 [1, 2] } }

theorem witness_DecodeOutcomes_magnitude :
    large16.CodeReady ∧ decodeInputOk large16 = true ∧
    ((afterRoots large16).bind fun c => nextOf (exec .forney c)).map
      (fun d => d.cfgBch && !d.err && decide (0 < d.loccnt.toNat ∧ 1 < (d.rd .mag 0).toNat)) = some true :=
  ⟨codeReady_of_check rfl rfl (by decide +kernel) (by decide +kernel), by decide +kernel, by decide +kernel⟩

/-- DV8, and with NOVFY DV9: the corrected word is no codeword. The successes are `word4`'s. -/
theorem witness_DecodeOutcomes_verification :
    (rs16 (((c16.set 8 13).set 12 4).set 14 13)).CodeReady ∧
    decodeInputOk (rs16 (((c16.set 8 13).set 12 4).set 14 13)) = true ∧
    (((afterRoots (rs16 (((c16.set 8 13).set 12 4).set 14 13))).bind fun c => nextOf (exec .forney c)).bind
      fun d => nextOf (exec .apply d)).map (fun e => e.loccnt == e.deg && e.deg != 0 &&
        (syndromesOf e.gf e.nr e.fcr (e.rdList .code e.n)).any fun v => v != 0) = some true :=
  ⟨codeReady_of_check rfl rfl (by decide +kernel) (by decide +kernel), by decide +kernel, by decide +kernel⟩

/-- The codeword 3, 3, 3. -/
def clean4 : State := rs4 [3, 3, 3] [] [] [] [] []

theorem ready_clean4 : clean4.CodeReady := codeReady_of_check rfl rfl (by decide +kernel) (by decide +kernel)

theorem witness_DecodeExitsEarlyOnZeroSyndromes :
    clean4.CodeReady ∧ clean4.neras.toNat ≤ clean4.nr ∧
    (∀ e, e < clean4.neras.toNat → (clean4.rd .eras e).toNat < clean4.n) ∧
    (∀ p, p < clean4.n → clean4.InRange (clean4.rd .code p)) ∧
    (∀ i, i < clean4.nr → (syndromesOf clean4.gf clean4.nr clean4.fcr
      ((List.range clean4.n).map (clean4.rd .code))).getD i 0 = 0) :=
  ⟨ready_clean4, by decide +kernel, by decide +kernel, by unfold State.InRange; decide +kernel, by decide +kernel⟩

theorem witness_DecodeOfAnEncodedWordReturnsZero :
    msg4.CodeReady ∧ msg4.neras = 0 ∧ (∀ i, i < msg4.k → msg4.InRange (msg4.rd .code i)) :=
  ⟨ready4, rfl, by unfold State.InRange; decide +kernel⟩

theorem witness_DecodedWordRedecodesToZero :
    word4.CodeReady ∧ word4.neras.toNat ≤ word4.nr ∧
    (∀ e, e < word4.neras.toNat → (word4.rd .eras e).toNat < word4.n) ∧
    (∀ p, p < word4.n → word4.InRange (word4.rd .code p)) ∧
    (nextOf (exec (.decode false false) word4)).map (fun t => t.result) = some 1 :=
  ⟨ready_word4, by decide +kernel, by decide +kernel, word4_inRange, by decide +kernel⟩

theorem witness_DecodeCorrectsOneError :
    word4.CodeReady ∧ 2 ≤ word4.nr ∧ word4.neras = 0 ∧ (∀ j, j < word4.n → word4.InRange ((fun _ => (3 : Sym)) j)) ∧
    (∀ i, i < word4.nr → (syndromesOf word4.gf word4.nr word4.fcr
      ((List.range word4.n).map fun _ => (3 : Sym))).getD i 0 = 0) ∧
    1 < word4.n ∧ (2 : Sym) ≠ 0 ∧ word4.InRange 2 ∧
    (∀ j, j < word4.n → word4.rd .code j = if j = 1 then (3 : Sym) ^^^ 2 else 3) :=
  ⟨ready_word4, by decide +kernel, rfl, by unfold State.InRange; decide +kernel, by decide +kernel, by decide +kernel,
    by decide, by unfold State.InRange; decide +kernel, by decide +kernel⟩

theorem witness_DecodeMatchesItsStages :
    word4.CodeReady ∧ word4.neras.toNat ≤ word4.nr ∧
    (∀ e, e < word4.neras.toNat → (word4.rd .eras e).toNat < word4.n) ∧
    (∀ p, p < word4.n → word4.InRange (word4.rd .code p)) ∧
    (0 < word4.nr ∧ (syndromesOf word4.gf word4.nr word4.fcr (word4.rdList .code word4.n)).getD 0 0 ≠ 0) ∧
    (nextOf (exec (.decode false false) word4)).map (fun t => t.result) = some 1 :=
  ⟨ready_word4, by decide +kernel, by decide +kernel, word4_inRange, by decide +kernel, by decide +kernel⟩

/-! ## Witnesses: the port and the invariants -/

theorem witness_BusyPortAcceptsOnlyStatusReads :
    (gf4.accept 0x30).isBusy = true ∧ (gf4.accept 0x30).inReset = false ∧ Access.write 0x00008 0 ≠ .read 0x00008 := by
  decide

theorem witness_RefusedAccessChangesNothing : (gf4.hostAccess (.write 0x00010 0)).response = some .error := by
  decide +kernel

/-- An idle block; the first and last cell of each window at R81's addresses. -/
theorem witness_ReadsReturnWhatTheyAddress :
    gf4.isBusy = false ∧ gf4.inReset = false ∧
    ([(0x01000, .cell .gen 0), (0x01400, .cell .gen 256), (0x02000, .minpolyCell 0), (0x023FC, .minpolyCell 255),
      (0x03000, .cell .syn 0), (0x033FC, .cell .syn 255), (0x04000, .cell .lambda 0), (0x04400, .cell .lambda 256),
      (0x05000, .cell .omega 0), (0x053FC, .cell .omega 255), (0x06000, .cell .loc 0), (0x063FC, .cell .loc 255),
      (0x07000, .cell .mag 0), (0x073FC, .cell .mag 255), (0x08000, .cell .eras 0), (0x083FC, .cell .eras 255),
      (0x40000, .cell .expt 0), (0x7FFFC, .cell .expt 65535), (0x80000, .cell .logt 0), (0xBFFFC, .cell .logt 65535),
      (0xC0000, .cell .code 0), (0xFFFF8, .cell .code 65534)] : List (Addr × Target)).all
        (fun x => targetOf x.1 == some x.2) = true := by decide +kernel

theorem witness_RegisterWritesStoreOrAreRefused :
    gf4.isBusy = false ∧ gf4.inReset = false ∧ (1 : Word).toNat < 2 ∧ 2 ≤ (2 : Word).toNat ∧
    (0xFFFF : Word).toNat < 65536 ∧ 65536 ≤ (0x10000 : Word).toNat := by decide

theorem witness_ConfigurationWritesInvalidate :
    gf4.isBusy = false ∧ gf4.inReset = false ∧ (0x1F : Word).toNat < 2 ^ 5 ∧ 2 ^ 5 ≤ (0x20 : Word).toNat ∧
    (0x1FFFF : Word).toNat < 2 ^ 17 ∧ 2 ^ 17 ≤ (0x20000 : Word).toNat := by decide

/-- An idle block, a last cell, and values at both sides of each width. -/
theorem witness_CellWritesStoreOrAreRefused :
    gf4.isBusy = false ∧ gf4.inReset = false ∧ (Win.lambda = .lambda ∧ 0x04000 = 0x04000 ∧ 256 ≤ 256) ∧
    (0xFFFF : Word).toNat < 65536 ∧ 65536 ≤ (0x10000 : Word).toNat ∧ (0x1FFFF : Word).toNat < 131072 ∧
    131072 ≤ (0x20000 : Word).toNat := by decide

/-- The first and last address of each reserved range and each read-only window. -/
theorem witness_ForbiddenAccessesAreRefused :
    gf4.isBusy = false ∧ gf4.inReset = false ∧
    ([0x2, 0x4C, 0xFFC, 0x1404, 0x1FFC, 0x2400, 0x2FFC, 0x3400, 0x3FFC, 0x4404, 0x4FFC, 0x5400, 0x5FFC, 0x6400, 0x6FFC,
      0x7400, 0x7FFC, 0x8400, 0x3FFFC, 0xFFFFC] : List Addr).all (fun a =>
        (gf4.hostAccess (.read a)).response == some .error && (gf4.hostAccess (.write a 0)).response == some .error) =
      true ∧
    ([0x0, 0x10, 0x2C, 0x48, 0x1000, 0x1400, 0x5000, 0x53FC, 0x40000, 0xBFFFC] : List Addr).all (fun a =>
        (gf4.hostAccess (.write a 0)).response == some .error) = true := by decide +kernel

theorem witness_CommandAndStatusWrites : gf4.isBusy = false ∧ gf4.inReset = false := ⟨rfl, rfl⟩

theorem witness_IrqFollowsDoneAndEnable :
    (nextOf (runWord 0x21 { gf4 with ie := true })).map State.irq = some true ∧
    (({ gf4 with done := true } : State).hostAccess (.read 0x00010)).done = true ∧
    (({ gf4 with done := true } : State).driveReset false).done = true ∧ gf4.isBusy = false ∧ gf4.inReset = false ∧
    (2 : Word).getLsbD 1 = true := by decide +kernel

theorem witness_StepKeepsTheFlagsTruthful :
    msg4.FlagsTruthful ∧ (nextOf (step { msg4 with agenda := [.host (.write 0x00014 2)] })).isSome = true :=
  ⟨ready4.truthful, by decide +kernel⟩

theorem witness_StepKeepsStatusLegal : gf4.StatusLegal ∧ (nextOf (step gf4)).isSome = true :=
  ⟨⟨by decide, by decide, by decide, by decide, fun h => by cases h⟩, by decide +kernel⟩

theorem witness_StepKeepsTheArraysCanonical :
    msg4.mem.wf = true ∧ msg4.mem.epoch < msg4.draws ∧ (nextOf (step msg4)).isSome = true := by decide +kernel

/-- A reset input driven and released: the state of the statement about it, its cells behind the next draw. -/
theorem test_reset_redraws :
    ((msg4.driveReset true).driveReset false).mem.epoch = (msg4.driveReset true).draws ∧
    msg4.draws < (msg4.driveReset true).draws := by decide +kernel

theorem witness_StepKeepsTheCellsInTheirWindows :
    gf4.FlagsTruthful ∧ gf4.mem.InWindows ∧ (nextOf (step gf4)).isSome = true :=
  ⟨truthful_of_check rfl (by decide +kernel),
    ⟨fun w c hc => by
      have h : ∀ w, ((gf4.mem.cells w).all fun c => decide (c.1 < winSize w)) = true := by intro w; cases w <;> rfl
      exact of_decide_eq_true (List.all_eq_true.mp (h w) c hc), fun c hc => by cases hc⟩, by decide +kernel⟩

theorem witness_CommandsWriteOnlyTheirArrays :
    (nextOf (exec .syndromes word4)).isSome = true ∧ writesWin .syndromes .code = false := by decide +kernel

theorem witness_CommandsWriteOnlyTheirRegisters :
    (nextOf (exec .bm word4)).isSome = true ∧ Instr.bm ≠ .srst ∧ isFieldCommand .bm = false := by decide +kernel

end Sys2Proof.Tests
end

section
/-! PROOFS. No step of the machine stops (00_scope.md R14, 60_exceptions.md R327). -/

namespace Sys2Proof.Machine

/-- BUILD_FIELD goes on from each of its checks, whose faults are next states (R141), and from its success. -/
theorem execBuildField_isNext (s : State) : ∃ t, execBuildField s = .next t := by
  unfold execBuildField
  dsimp only
  split
  · exact ⟨_, rfl⟩
  split
  · exact ⟨_, rfl⟩
  split <;> exact ⟨_, rfl⟩

/-- Every command has a next state: all but BUILD_FIELD end in a completion step, which never stops. -/
theorem exec_isNext (i : Instr) (s : State) : ∃ t, exec i s = .next t := by
  cases i with
  | buildField => exact execBuildField_isNext s
  | nop | srst => exact ⟨_, rfl⟩
  | buildGen | encode | syndromes | bm | roots | forney | apply | decode => exact finish_isNext _ _ _
  | gfAdd | gfMul | gfDiv | gfInv | gfFma | gfExp | gfLog | gfPow | gfTrace | gfQsolve =>
    simp only [exec, execGfAdd, execGfMul, execGfDiv, execGfInv, execGfFma, execGfExp, execGfLog, execGfPow,
      execGfTrace, execGfQsolve, finish_isNext]

/-- Every 32-bit word has a next state: its command's, or the one with E_ILLEGAL (R115). -/
theorem runWord_isNext (c : Word) (s : State) : ∃ t, runWord c s = .next t := by
  unfold runWord
  split
  · exact exec_isNext _ s
  · exact ⟨_, rfl⟩

/-- The engine's turn has a next state, whether it waits or completes a word (R337). -/
theorem engineTurn_isNext (s : State) : ∃ t, engineTurn s = .next t := by
  unfold engineTurn
  split
  · exact ⟨s, rfl⟩
  · exact runWord_isNext _ s

/-- Settles O6, by cases on the next turn: the engine's never stops, and an access or a change of the reset input is a
next state by itself. -/
theorem everyStepHasANextState : Obligations.EveryStepHasANextState := by
  intro s
  unfold step
  split
  case h_1 => exact engineTurn_isNext s
  case h_2 rest _ => exact engineTurn_isNext { s with agenda := rest }
  case h_3 => exact ⟨_, rfl⟩
  case h_4 => exact ⟨_, rfl⟩

end Sys2Proof.Machine
end

section
/-! PROOFS. What a command and an access may change, said once: a command takes a fault, builds the tables or the
generator, resets the registers, or writes results only; an accepted write changes STATUS, a configuration register, or
state that neither flag speaks of. -/

namespace Sys2Proof.Machine

variable {s t u : State}

/-! ## Commands -/

/-- `s` with what the field-arithmetic and pipeline commands answer taken from `t`: OPR, RESULT, DEG, LOCCNT and the
arrays of the pipeline. -/
def State.withResults (s t : State) : State :=
  { s with
    opr := t.opr, result := t.result, deg := t.deg, loccnt := t.loccnt,
    mem := { s.mem with code := t.mem.code, syn := t.mem.syn, lambda := t.mem.lambda, omega := t.mem.omega,
                        loc := t.mem.loc, mag := t.mem.mag } }

/-- `t` differs from `s` in such results only. -/
def State.ResultsOnly (s t : State) : Prop := t = s.withResults t

theorem State.ResultsOnly.congr {α : Type} (h : s.ResultsOnly t) (f : State → α) : f t = f (s.withResults t) :=
  congrArg f h

theorem State.ResultsOnly.trans (h : s.ResultsOnly t) (h' : t.ResultsOnly u) : s.ResultsOnly u :=
  Eq.trans h' (h.congr fun v => v.withResults u)

theorem findRoots_resultsOnly (s : State) : s.ResultsOnly s.findRoots := by
  unfold State.findRoots
  split <;> rfl

theorem correctCells_resultsOnly (s : State) (cs : List (Nat × Sym)) :
    s.ResultsOnly (cs.foldl State.correctCell s) := by
  induction cs generalizing s with
  | nil => rfl
  | cons c cs ih => exact State.ResultsOnly.trans (t := s.correctCell c) rfl (ih _)

theorem applyCorrections_resultsOnly (s : State) : s.ResultsOnly s.applyCorrections :=
  (correctCells_resultsOnly s s.corrections).trans rfl

theorem decodeApply_resultsOnly (s : State) (novfy : Bool) (orig w : List Sym) (cs : List (Nat × Sym)) :
    s.ResultsOnly (s.decodeApply novfy orig w cs) := by
  unfold State.decodeApply
  dsimp only
  split <;> rfl

theorem decodeMagnitudes_resultsOnly (s : State) (novfy : Bool) (orig w syn lam : List Sym) (ps : List Nat) :
    s.ResultsOnly (s.decodeMagnitudes novfy orig w syn lam ps) := by
  unfold State.decodeMagnitudes
  split
  · rfl
  dsimp only
  split
  · rfl
  · exact State.ResultsOnly.trans (by rfl) (decodeApply_resultsOnly _ _ _ _ _)

theorem decodeRoots_resultsOnly (s : State) (novfy : Bool) (orig w syn c : List Sym) (len : Nat) :
    s.ResultsOnly (s.decodeRoots novfy orig w syn c len) := by
  unfold State.decodeRoots
  split
  · rfl
  dsimp only
  split
  · rfl
  split
  · rfl
  · exact State.ResultsOnly.trans (by rfl) (decodeMagnitudes_resultsOnly _ _ _ _ _ _ _)

theorem decodeLocate_resultsOnly (s : State) (novfy : Bool) (orig w syn : List Sym) :
    s.ResultsOnly (s.decodeLocate novfy orig w syn) := by
  unfold State.decodeLocate
  dsimp only
  split
  · rfl
  · exact State.ResultsOnly.trans (by rfl) (decodeRoots_resultsOnly _ _ _ _ _ _ _)

theorem runDecode_resultsOnly (clr novfy : Bool) (s : State) : s.ResultsOnly (State.runDecode clr novfy s) := by
  unfold State.runDecode
  dsimp only
  split
  · rfl
  · exact State.ResultsOnly.trans (by rfl) (decodeLocate_resultsOnly _ _ _ _ _)

/-- BUILD_FIELD's checks on the configuration (R141). -/
structure State.FieldAccepted (s : State) : Prop where
  m_range : Config.mMin ≤ s.cfgM.toNat ∧ s.cfgM.toNat ≤ Config.mMax
  degree : polyDegreeOk s.cfgM.toNat s.cfgPoly = true
  primitive : primitive s.cfgM.toNat s.cfgPoly = true

/-- How a command that starts in `s` may end (R113, R322). -/
inductive CommandOutcome (s : State) : State → Prop where
  /-- A fault with no other effect. -/
  | fault (e : ErrCode) : CommandOutcome s (s.raiseFault e)
  /-- A fault of BUILD_FIELD's first two checks. -/
  | fieldFault (e : ErrCode) : CommandOutcome s (s.invalidateField.raiseFault e)
  /-- E_NOT_PRIMITIVE, which leaves the tables unspecified. -/
  | notPrimitive : CommandOutcome s (s.invalidateField.drawTables.raiseFault .notPrimitive)
  /-- BUILD_FIELD's success. -/
  | fieldBuilt (h : s.invalidateField.FieldAccepted) : CommandOutcome s s.invalidateField.installTables.complete
  /-- A fault of BUILD_GEN. -/
  | genFault (e : ErrCode) : CommandOutcome s (s.invalidateGen.raiseFault e)
  /-- BUILD_GEN's success. -/
  | genBuilt (h : s.invalidateGen.generatorCheck = none) : CommandOutcome s s.invalidateGen.installGenerator.complete
  /-- SRST. -/
  | softReset : CommandOutcome s s.resetRegisters.complete
  /-- The success of any other command. -/
  | results (t : State) (h : s.ResultsOnly t) : CommandOutcome s t.complete

theorem execBuildField_outcome (h : execBuildField s = .next t) : CommandOutcome s t := by
  unfold execBuildField at h
  dsimp only at h
  split at h
  · cases h; exact .fieldFault .cfgM
  rename_i hm
  split at h
  · cases h; exact .fieldFault .cfgPoly
  rename_i hd
  split at h
  · cases h; exact .notPrimitive
  rename_i hp
  cases h
  exact .fieldBuilt ⟨by omega, by simpa using hd, by simpa using hp⟩

theorem finish_outcome {check : Option ErrCode} {f : State → State} (h : s.finish check f = .next t)
    (hf : s.ResultsOnly (f s)) : CommandOutcome s t := by
  rcases (finish_eq_next ..).mp h with ⟨e, -, rfl⟩ | ⟨-, rfl⟩
  · exact .fault e
  · exact .results _ hf

theorem execGfQsolve_outcome (h : execGfQsolve s = .next t) : CommandOutcome s t := by
  refine finish_outcome (s := s) h ?_
  split <;> rfl

/-- What a command can do. -/
theorem exec_outcome {i : Instr} (h : exec i s = .next t) : CommandOutcome s t := by
  cases i with
  | buildField => exact execBuildField_outcome h
  | buildGen =>
    rcases (finish_eq_next ..).mp h with ⟨e, -, rfl⟩ | ⟨hc, rfl⟩
    · exact .genFault e
    · exact .genBuilt hc
  | srst => cases h; exact .softReset
  | nop => exact finish_outcome (s := s) (check := none) (f := fun t => t) h rfl
  | roots => exact finish_outcome h (findRoots_resultsOnly s)
  | apply => exact finish_outcome h (applyCorrections_resultsOnly s)
  | decode clr novfy => exact finish_outcome h (runDecode_resultsOnly clr novfy s)
  | gfQsolve => exact execGfQsolve_outcome h
  | encode | syndromes | bm | forney => exact finish_outcome h rfl
  | gfAdd | gfMul | gfDiv | gfInv | gfFma | gfExp | gfLog | gfPow | gfTrace =>
    simp only [exec, execGfAdd, execGfMul, execGfDiv, execGfInv, execGfFma, execGfExp, execGfLog, execGfPow,
      execGfTrace] at h
    exact finish_outcome h rfl

/-! ## Accesses -/

/-- What an accepted write may change (R34, R35, R50, R90). -/
inductive WriteOutcome (s : State) : State → Prop where
  /-- A command word. -/
  | command (c : Word) : WriteOutcome s (s.accept c)
  /-- STATUS. -/
  | status (v : Word) : WriteOutcome s (s.writeStatus v)
  /-- CFG_M or CFG_POLY. -/
  | field (t : State) (h : t = { s with cfgM := t.cfgM, cfgPoly := t.cfgPoly }) : WriteOutcome s t.invalidateField
  /-- Another configuration register or a MINPOLY cell. -/
  | code (t : State)
      (h : t = { s with cfgNr := t.cfgNr, cfgFcr := t.cfgFcr, cfgBch := t.cfgBch, cfgNmp := t.cfgNmp,
                        mem := { s.mem with minpoly := t.mem.minpoly } }) : WriteOutcome s t.invalidateGen
  /-- CTRL, a count, an operand or a cell of a writable array. -/
  | data (t : State)
      (h : t = { s with ie := t.ie, neras := t.neras, deg := t.deg, loccnt := t.loccnt, opa := t.opa, opb := t.opb,
                        opc := t.opc,
                        mem := { s.mem with code := t.mem.code, syn := t.mem.syn, lambda := t.mem.lambda,
                                            loc := t.mem.loc, mag := t.mem.mag, eras := t.mem.eras } }) :
      WriteOutcome s t

theorem writeReg_outcome {r : Reg} {v : Word} (h : s.writeReg r v = some t) : WriteOutcome s t := by
  cases r <;> simp only [State.writeReg, Option.map_eq_some_iff, Option.some.injEq, reduceCtorEq] at h
  case cmd => subst h; exact .command v
  case status => subst h; exact .status v
  case opa | opb | opc => subst h; exact .data _ rfl
  all_goals obtain ⟨x, -, rfl⟩ := h
  case cfgM | cfgPoly => exact .field _ rfl
  case cfgNr | cfgFcr | cfgMode | cfgNmp => exact .code _ rfl
  case ctrl | neras | deg | loccnt => exact .data _ rfl

/-- What an accepted write can do. -/
theorem writeTarget_outcome {y : Target} {v : Word} (h : s.writeTarget y v = some t) : WriteOutcome s t := by
  cases y with
  | reg r => exact writeReg_outcome h
  | minpolyCell i =>
    obtain ⟨-, rfl⟩ := writeTarget_minpoly h
    exact .code { s with mem := s.mem.writeMinpoly i (v.setWidth 17) } rfl
  | cell w i =>
    obtain ⟨hw, -, rfl⟩ := writeTarget_cell h
    refine .data _ ?_
    cases w with
    | code | syn | lambda | loc | mag | eras => rfl
    | gen | omega | expt | logt => cases hw

/-- One host access answers, after an accepted write if the block is idle and out of reset. -/
theorem hostAccess_outcome (s : State) (x : Access) :
    ∃ r u, s.hostAccess x = u.respond r ∧
      (u = s ∨ WriteOutcome s u ∧ s.isBusy = false ∧ s.inReset = false) := by
  rcases hostAccess_cases s x with h | ⟨a, v, -, -, h⟩ | ⟨a, v, y, u, -, hr, hb, -, hw, h⟩
  · exact ⟨_, s, h, .inl rfl⟩
  · exact ⟨_, s, h, .inl rfl⟩
  · exact ⟨_, u, h, .inr ⟨writeTarget_outcome hw, hb, hr⟩⟩

/-- The write of STATUS, in one piece (R35). -/
theorem writeStatus_eq (s : State) (v : Word) :
    s.writeStatus v =
      { s with done := s.done && !v.getLsbD 1, err := s.err && !v.getLsbD 2,
               errcode := if v.getLsbD 2 then 0 else s.errcode } := by
  unfold State.writeStatus
  cases v.getLsbD 1 <;> cases v.getLsbD 2 <;> simp [State.clearFault]

end Sys2Proof.Machine
end

section
/-! PROOFS. 10_state.md R62: the flags stay truthful. What each flag vouches for is a function of part of the state;
BUILD_FIELD and BUILD_GEN establish it, and everything else keeps that part or clears the flag. -/

namespace Sys2Proof.Machine

variable {s t : State}

/-! ## What the flags vouch for -/

/-- The part of the state that FIELD_OK vouches for, and the flag; every other register and cell stands at its reset
value. -/
def State.fieldView (s : State) : State :=
  { State.reset with
    fieldOk := s.fieldOk, cfgM := s.cfgM, cfgPoly := s.cfgPoly,
    mem := { Memory.drawn s.mem.epoch with expt := s.mem.expt, logt := s.mem.logt } }

/-- The part of the state that GEN_OK vouches for, and both flags. -/
def State.codeView (s : State) : State :=
  { s.fieldView with
    genOk := s.genOk, cfgNr := s.cfgNr, cfgFcr := s.cfgFcr, cfgBch := s.cfgBch, cfgNmp := s.cfgNmp, genNp := s.genNp,
    genK := s.genK, mem := { s.fieldView.mem with gen := s.mem.gen, minpoly := s.mem.minpoly } }

theorem fieldView_of_codeView (h : t.codeView = s.codeView) : t.fieldView = s.fieldView :=
  (congrArg State.fieldView h : t.codeView.fieldView = s.codeView.fieldView)

theorem tablesBuilt_fieldView : s.fieldView.TablesBuilt ↔ s.TablesBuilt :=
  ⟨fun ⟨⟨hm, hd, hf, hr⟩, he, hl, hem, hlm⟩ => ⟨⟨hm, hd, hf, hr⟩, he, hl, hem, hlm⟩,
    fun ⟨⟨hm, hd, hf, hr⟩, he, hl, hem, hlm⟩ => ⟨⟨hm, hd, hf, hr⟩, he, hl, hem, hlm⟩⟩

theorem generatorBuilt_codeView : s.codeView.GeneratorBuilt ↔ s.GeneratorBuilt :=
  ⟨fun ⟨h1, h2, h3, h4, h5, h6, h7, h8, h9⟩ => ⟨h1, h2, h3, h4, h5, h6, h7, h8, h9⟩,
    fun ⟨h1, h2, h3, h4, h5, h6, h7, h8, h9⟩ => ⟨h1, h2, h3, h4, h5, h6, h7, h8, h9⟩⟩

theorem State.TablesBuilt.of_fieldView (h : s.TablesBuilt) (hv : t.fieldView = s.fieldView) : t.TablesBuilt := by
  rwa [← tablesBuilt_fieldView, hv, tablesBuilt_fieldView]

theorem State.GeneratorBuilt.of_codeView (h : s.GeneratorBuilt) (hv : t.codeView = s.codeView) : t.GeneratorBuilt := by
  rwa [← generatorBuilt_codeView, hv, generatorBuilt_codeView]

/-- Flags that are clear vouch for nothing. -/
theorem flagsTruthful_of_clear (hf : t.fieldOk = false) (hg : t.genOk = false) : t.FlagsTruthful :=
  ⟨fun h => by simp [hf] at h, fun h => by simp [hg] at h⟩

/-- Truthful flags stay so while GEN_OK is cleared and the part FIELD_OK vouches for is kept. -/
theorem State.FlagsTruthful.of_fieldView (h : s.FlagsTruthful) (hv : t.fieldView = s.fieldView)
    (hg : t.genOk = false) : t.FlagsTruthful where
  field hf := (h.field ((congrArg State.fieldOk hv).symm.trans hf)).of_fieldView hv
  gen hf := by simp [hg] at hf

/-- Truthful flags stay so while the part they vouch for is kept. -/
theorem State.FlagsTruthful.of_codeView (h : s.FlagsTruthful) (hv : t.codeView = s.codeView) : t.FlagsTruthful where
  field hf := (h.field ((congrArg State.fieldOk hv).symm.trans hf)).of_fieldView (fieldView_of_codeView hv)
  gen hg := by
    obtain ⟨hf, hb⟩ := h.gen ((congrArg State.genOk hv).symm.trans hg)
    exact ⟨(congrArg State.fieldOk hv).trans hf, hb.of_codeView hv⟩

/-- A command's results are no part of what the flags vouch for. -/
theorem State.ResultsOnly.codeView (h : s.ResultsOnly t) : t.codeView = s.codeView :=
  h.congr State.codeView

/-! ## BUILD_FIELD establishes FIELD_OK's promise -/

/-- POLY has degree M (R141). -/
theorem polyDegreeOk_iff (m : Nat) (poly : Mask) :
    polyDegreeOk m poly = true ↔ poly.getLsbD m = true ∧ ∀ b, m < b → poly.getLsbD b = false := by
  unfold polyDegreeOk
  rw [Bool.and_eq_true, beq_iff_eq]
  refine and_congr_right fun _ => ⟨fun h b hb => ?_, fun h => BitVec.eq_of_getLsbD_eq fun i _ => ?_⟩
  · have hbit : (poly >>> (m + 1)).getLsbD (b - (m + 1)) = false := by rw [h]; exact BitVec.getLsbD_zero
    rwa [BitVec.getLsbD_ushiftRight, Nat.add_sub_cancel' hb] at hbit
  · rw [BitVec.getLsbD_ushiftRight, h _ (by omega)]
    exact BitVec.getLsbD_zero.symm

theorem State.FieldAccepted.fieldConfigOk (h : s.FieldAccepted) : s.FieldConfigOk := by
  have hm : 2 ≤ s.cfgM.toNat := h.m_range.1
  obtain ⟨hfirst, hreturn⟩ := (primitive_iff (by omega) s.cfgPoly).mp h.primitive
  exact ⟨h.m_range, (polyDegreeOk_iff _ _).mp h.degree, hfirst, hreturn⟩

namespace State.FieldConfigOk

variable (h : s.FieldConfigOk)
include h

theorem three_le_n : 3 ≤ s.n := by
  have : 2 ^ 2 ≤ 2 ^ s.cfgM.toNat := Nat.pow_le_pow_right (by omega) h.m_range.1
  unfold State.n
  omega

theorem n_lt : s.n < 65536 := by
  have : 2 ^ s.cfgM.toNat ≤ 2 ^ 16 := Nat.pow_le_pow_right (by omega) h.m_range.2
  unfold State.n
  omega

omit h in
theorem two_pow_eq : 2 ^ s.cfgM.toNat = s.n + 1 := by
  have := Nat.two_pow_pos s.cfgM.toNat
  unfold State.n
  omega

theorem power_le_n (i : Nat) : (s.power i).toNat ≤ s.n := by
  have h1 : (1 : Sym).toNat < 2 ^ s.cfgM.toNat := by
    rw [two_pow_eq]
    exact Nat.lt_succ_of_le (by have := h.three_le_n; simp; omega)
  have hm := h.m_range.1
  have := nextIter_lt (by omega) h.degree.1 h.degree.2 i h1
  rw [two_pow_eq] at this
  exact Nat.le_of_lt_succ this

theorem isPeriodicPt : Function.IsPeriodicPt (nextPower s.cfgM.toNat s.cfgPoly) s.n 1 := h.returns

/-- N is the period of the powers: the first return to 1 is at step N (R141). -/
theorem minimalPeriod_eq : Function.minimalPeriod (nextPower s.cfgM.toNat s.cfgPoly) 1 = s.n := by
  have h3 := h.three_le_n
  refine Nat.le_antisymm (h.isPeriodicPt.minimalPeriod_le (by omega)) ?_
  by_contra hlt
  exact h.first_return _ (h.isPeriodicPt.minimalPeriod_pos (by omega)) (by omega)
    (Function.isPeriodicPt_minimalPeriod _ _)

theorem power_injOn : Set.InjOn s.power (Set.Iio s.n) := by
  have := Function.iterate_injOn_Iio_minimalPeriod (f := nextPower s.cfgM.toNat s.cfgPoly) (x := 1)
  rwa [h.minimalPeriod_eq] at this

theorem power_ne_zero (i : Nat) : s.power i ≠ 0 := by
  intro h0
  have h3 := h.three_le_n
  have hret : (nextPower s.cfgM.toNat s.cfgPoly)^[s.n * i - i] (s.power i) = 1 := by
    rw [State.power, ← Function.iterate_add_apply, Nat.sub_add_cancel (Nat.le_mul_of_pos_left i (by omega))]
    exact h.isPeriodicPt.mul_const i
  rw [h0, nextIter_zero] at hret
  exact absurd hret (by decide)

/-- Every nonzero value is a power: the N powers are distinct, and there are N nonzero values (R142). -/
theorem exists_power {v : Sym} (hv : v ≠ 0) (hn : v.toNat ≤ s.n) : ∃ i, i < s.n ∧ s.power i = v := by
  have hmaps : Set.MapsTo (fun i => (s.power i).toNat) (Finset.range s.n) (Finset.Icc 1 s.n) := by
    intro i _
    have h0 : (s.power i).toNat ≠ 0 := fun hz => h.power_ne_zero i (BitVec.eq_of_toNat_eq hz)
    simpa using ⟨Nat.pos_of_ne_zero h0, h.power_le_n i⟩
  have hinj : Set.InjOn (fun i => (s.power i).toNat) (Finset.range s.n) := by
    intro i hi j hj he
    exact h.power_injOn (by simpa using hi) (by simpa using hj) (BitVec.eq_of_toNat_eq he)
  have hsurj := Finset.surjOn_of_injOn_of_card_le _ hmaps hinj (by simp)
  have hv0 : v.toNat ≠ 0 := fun hz => hv (BitVec.eq_of_toNat_eq hz)
  obtain ⟨i, hi, he⟩ := hsurj (a := v.toNat) (by simpa using ⟨Nat.pos_of_ne_zero hv0, hn⟩)
  exact ⟨i, by simpa using hi, BitVec.eq_of_toNat_eq he⟩

end State.FieldConfigOk

/-- A cell just stored holds the value the stored list has there. -/
theorem store_rd_of_getElem? {w : Win} {vs : List Sym} {j : Nat} {x : Sym} (h : vs[j]? = some x) :
    (s.store w 0 vs).rd w j = x := by
  obtain ⟨hj, rfl⟩ := List.getElem?_eq_some_iff.mp h
  rw [State.store_rd_same, dif_pos (by omega)]
  rfl

theorem installTables_rd (s : State) (w : Win) (j : Nat) :
    s.installTables.rd w j =
      ((s.store .expt 0 (expTable s.cfgM.toNat s.cfgPoly)).store .logt 0 (logTable s.cfgM.toNat s.cfgPoly)).rd w j :=
  rfl

theorem installTables_rd_expt {j : Nat} {x : Sym} (h : (expTable s.cfgM.toNat s.cfgPoly)[j]? = some x) :
    s.installTables.rd .expt j = x := by
  rw [installTables_rd, State.store_rd_other _ (by decide), store_rd_of_getElem? h]

theorem installTables_rd_logt {j : Nat} {x : Sym} (h : (logTable s.cfgM.toNat s.cfgPoly)[j]? = some x) :
    s.installTables.rd .logt j = x := by
  rw [installTables_rd, store_rd_of_getElem? h]

/-- The index of a power below N, as a cell of LOGT holds it (R142). -/
theorem installTables_logOf_power (h : s.FieldConfigOk) {i : Nat} (hi : i < s.n) :
    s.installTables.logOf (s.power i) = i := by
  have hq := State.FieldConfigOk.two_pow_eq (s := s)
  have hn := h.n_lt
  have hidx : (powers s.cfgM.toNat s.cfgPoly).idxOf (s.power i) = i :=
    idxOf_powers _ _ i (by omega) fun j hj he =>
      absurd (h.power_injOn (Set.mem_Iio.mpr (by omega)) (Set.mem_Iio.mpr hi) he) (by omega)
  have h0 : (s.power i).toNat ≠ 0 := fun hz => h.power_ne_zero i (BitVec.eq_of_toNat_eq hz)
  have hle := h.power_le_n i
  have hcell := getElem?_logTable s.cfgM.toNat s.cfgPoly (s.power i).toNat (by omega) (by omega)
  rw [BitVec.ofNat_toNat, BitVec.setWidth_eq, hidx] at hcell
  rw [State.logOf, installTables_rd_logt hcell, BitVec.toNat_ofNat, Nat.mod_eq_of_lt (by omega)]

/-- BUILD_FIELD's success builds the tables (R141, R142). -/
theorem installTables_tablesBuilt (h : s.FieldConfigOk) : s.installTables.TablesBuilt where
  config := ⟨h.m_range, h.degree, h.first_return, h.returns⟩
  exp i hi := installTables_rd_expt (getElem?_expTable _ _ i hi)
  log v hv hn := by
    obtain ⟨i, hi, rfl⟩ := h.exists_power hv hn
    rw [installTables_logOf_power h hi]
    exact ⟨hi, installTables_rd_expt (getElem?_expTable _ _ i hi)⟩
  exp_marker := installTables_rd_expt (getElem?_expTable_marker _ _)
  log_marker := by
    change (s.installTables.rd .logt 0).toNat = s.n
    rw [installTables_rd_logt (getElem?_logTable_marker _ _), BitVec.toNat_ofNat]
    exact Nat.mod_eq_of_lt h.n_lt

end Sys2Proof.Machine
end

section
/-! PROOFS. BUILD_GEN establishes GEN_OK's promise (41_generator.md R190 to R197): the length and the leading
coefficient of the generator in both modes, and what the checks and the store make of them. -/

namespace Sys2Proof.Machine

variable {s t : State}

/-! ## The generator list -/

/-- A list of `d + 1` coefficients, ascending, whose last is 1. -/
def MonicList (g : List Sym) (d : Nat) : Prop := g.length = d + 1 ∧ g.getD d 0 = 1

theorem timesRoot_monic (F : GF) (r : Sym) {g : List Sym} {d : Nat} (h : MonicList g d) :
    MonicList (timesRoot F r g) (d + 1) := by
  obtain ⟨hlen, hlast⟩ := h
  refine ⟨by simp [timesRoot, hlen], ?_⟩
  have hd : d < g.length := by omega
  rw [List.getD_eq_getElem _ _ hd] at hlast
  rw [List.getD_eq_getElem _ _ (by simp [timesRoot, hlen])]
  simp [timesRoot, List.getElem_append_right, hlen, hlast]

theorem rsGenerator_monic (F : GF) (nr fcr : Nat) : MonicList (rsGenerator F nr fcr) nr := by
  unfold rsGenerator
  induction nr with
  | zero => exact ⟨rfl, rfl⟩
  | succ nr ih =>
    rw [List.range_succ, List.foldl_append]
    exact timesRoot_monic F _ ih

/-- The highest set bit is set, and no bit above it is. -/
theorem getLsbD_highestBit {m : Mask} (hm : 1 ≤ highestBit m) :
    m.getLsbD (highestBit m).toNat = true ∧ ∀ b, (highestBit m).toNat < b → m.getLsbD b = false := by
  unfold highestBit at hm ⊢
  split at hm
  · omega
  rename_i h0
  rw [if_neg h0, Int.toNat_natCast]
  have hne : m.toNat ≠ 0 := fun hz => h0 (BitVec.eq_of_toNat_eq hz)
  refine ⟨?_, fun b hb => ?_⟩
  · exact Nat.testBit_log2 hne
  · exact Nat.testBit_lt_two_pow ((Nat.log2_lt hne).mp hb)

theorem numbered_concat {α : Type} (i : Nat) (vs : List α) (v : α) :
    numbered i (vs ++ [v]) = numbered i vs ++ [(i + vs.length, v)] := by
  induction vs generalizing i with
  | nil => rfl
  | cons x vs ih => simp [numbered, ih, Nat.add_assoc, Nat.add_comm 1]

/-- R193's inner sum stays where no term meets the condition. -/
theorem foldl_flip_eq_self {α : Type} (p : α → Prop) [DecidablePred p] {l : List α} (t : Sym)
    (h : ∀ c ∈ l, ¬ p c) : l.foldl (fun t c => if p c then t ^^^ 1 else t) t = t := by
  induction l with
  | nil => rfl
  | cons c l ih =>
    rw [List.foldl_cons, if_neg (h c (by simp))]
    exact ih fun c hc => h c (by simp [hc])

/-- In the top coefficient only the two leading terms meet, so it is 1 (R193). -/
theorem timesMinpoly_monic {g : List Sym} {d : Nat} {m : Mask} (h : MonicList g d) (hm : 1 ≤ highestBit m) :
    MonicList (timesMinpoly g m) (d + (highestBit m).toNat) := by
  obtain ⟨hbit, habove⟩ := getLsbD_highestBit hm
  obtain ⟨hlen, hlast⟩ := h
  obtain rfl | ⟨g, x, rfl⟩ := List.eq_nil_or_concat' g
  · simp at hlen
  obtain rfl : d = g.length := by simpa using hlen.symm
  obtain rfl : x = 1 := by simpa using hlast
  refine ⟨by simp [timesMinpoly]; omega, ?_⟩
  rw [List.getD_eq_getElem _ _ (by simp [timesMinpoly])]
  simp only [timesMinpoly, List.getElem_map, List.getElem_range]
  rw [numbered_concat, List.foldl_append, foldl_flip_eq_self _ 0]
  · simp [hbit]
  · rintro c hc ⟨-, -, hset⟩
    have hlt : c.1 < g.length := by simpa using (List.getElem?_eq_some_iff.mp (mem_numbered.mp hc).2).1
    rw [habove _ (by omega)] at hset
    cases hset

theorem degreeSum_cons (m : Mask) (ms : List Mask) :
    degreeSum (m :: ms) = (highestBit m).toNat + degreeSum ms := rfl

theorem foldl_timesMinpoly_monic {ms : List Mask} (hms : ∀ m ∈ ms, 1 ≤ highestBit m) {g : List Sym} {d : Nat}
    (h : MonicList g d) : MonicList (ms.foldl timesMinpoly g) (d + degreeSum ms) := by
  induction ms generalizing g d with
  | nil => exact h
  | cons m ms ih =>
    rw [List.foldl_cons, degreeSum_cons, ← Nat.add_assoc]
    exact ih (fun m hm => hms m (by simp [hm])) (timesMinpoly_monic h (hms m (by simp)))

theorem bchGenerator_monic {ms : List Mask} (hms : ∀ m ∈ ms, 1 ≤ highestBit m) :
    MonicList (bchGenerator ms) (degreeSum ms) := by
  rw [← Nat.zero_add (degreeSum ms)]
  exact foldl_timesMinpoly_monic hms ⟨rfl, rfl⟩

theorem degreeSum_pos {ms : List Mask} (hne : ms ≠ []) (hms : ∀ m ∈ ms, 1 ≤ highestBit m) : 1 ≤ degreeSum ms := by
  cases ms with
  | nil => exact absurd rfl hne
  | cons m ms =>
    have := hms m (by simp)
    rw [degreeSum_cons]
    omega

/-! ## The checks and the store -/

/-- R193's checks on the minimal polynomials, as a proposition. -/
theorem minpolyOk_iff :
    s.minpolyOk = true ↔
      (1 ≤ s.cfgNmp.toNat ∧ s.cfgNmp.toNat ≤ 256) ∧
      (∀ m ∈ s.minpolys, m >>> (s.cfgM.toNat + 1) = 0 ∧ 1 ≤ highestBit m) ∧
      degreeSum s.minpolys ≤ min 256 (s.n - 1) := by
  simp only [State.minpolyOk, Bool.and_eq_true, decide_eq_true_eq, List.all_eq_true, beq_iff_eq, and_assoc]
  rfl

/-- What holds when BUILD_GEN's checks all pass (R190). -/
theorem generatorCheck_eq_none (h : s.generatorCheck = none) :
    s.fieldOk = true ∧ (1 ≤ s.nr ∧ s.nr ≤ min 256 (s.n - 1)) ∧ s.fcr ≤ s.n - 1 ∧
      (s.cfgBch = true → s.minpolyOk = true) ∧ vanishesAtRoots s.gf s.generator s.nr s.fcr = true := by
  unfold State.generatorCheck at h
  split at h
  · cases h
  split at h
  · cases h
  split at h
  · cases h
  split at h
  · cases h
  split at h
  · cases h
  rename_i hf hn hc hm hv
  refine ⟨by simpa using hf, ?_, by omega, by simpa using hm, by simpa using hv⟩
  simp only [Config.nrMax] at hn
  omega

/-- The generator of an accepted configuration is monic, of a degree NR_MAX and N - 1 bound (R191, R193). -/
theorem generator_monic (hnr : 1 ≤ s.nr ∧ s.nr ≤ min 256 (s.n - 1)) (hmp : s.cfgBch = true → s.minpolyOk = true) :
    ∃ d, MonicList s.generator d ∧ 1 ≤ d ∧ d ≤ min 256 (s.n - 1) := by
  unfold State.generator
  cases hb : s.cfgBch with
  | false => exact ⟨s.nr, rsGenerator_monic _ _ _, hnr⟩
  | true =>
    obtain ⟨⟨hpos, -⟩, hms, hsum⟩ := minpolyOk_iff.mp (hmp hb)
    have hdeg : ∀ m ∈ s.minpolys, 1 ≤ highestBit m := fun m hm => (hms m hm).2
    have hne : s.minpolys ≠ [] := fun hnil => by
      have : s.minpolys.length = s.cfgNmp.toNat := by simp [State.minpolys]
      rw [hnil, List.length_nil] at this
      omega
    exact ⟨_, bchGenerator_monic hdeg, degreeSum_pos hne hdeg, hsum⟩

theorem installGenerator_gf (s : State) : s.installGenerator.gf = s.gf :=
  State.store_gf (s := s) (v := .gen) (by decide) (by decide)

theorem installGenerator_minpolys (s : State) : s.installGenerator.minpolys = s.minpolys :=
  State.store_minpolys (s := s) (v := .gen)

theorem installGenerator_generator (s : State) : s.installGenerator.generator = s.generator := by
  change (if s.cfgBch then bchGenerator s.installGenerator.minpolys
    else rsGenerator s.installGenerator.gf s.nr s.fcr) = s.generator
  rw [installGenerator_gf, installGenerator_minpolys]
  rfl

theorem installGenerator_minpolyOk (s : State) : s.installGenerator.minpolyOk = s.minpolyOk := by
  rw [Bool.eq_iff_iff, minpolyOk_iff, minpolyOk_iff, installGenerator_minpolys]
  rfl

theorem installGenerator_rdList (s : State) : s.installGenerator.rdList .gen s.generator.length = s.generator :=
  State.store_rdList_same (s := s) (v := .gen)

/-- BUILD_GEN's success installs the generator (R190). -/
theorem installGenerator_generatorBuilt (hn : s.n < 65536) (h : s.generatorCheck = none) :
    s.installGenerator.GeneratorBuilt := by
  obtain ⟨-, hnr, hfcr, hmp, hv⟩ := generatorCheck_eq_none h
  obtain ⟨d, ⟨hlen, hlast⟩, hd⟩ := generator_monic hnr hmp
  have hnp : s.installGenerator.np = d := by
    change (BitVec.ofNat 16 (s.generator.length - 1)).toNat = d
    rw [hlen, BitVec.toNat_ofNat]
    exact Nat.mod_eq_of_lt (by omega)
  have hk : s.installGenerator.k = s.n - d := by
    change (BitVec.ofNat 16 (s.n - (s.generator.length - 1))).toNat = s.n - d
    rw [hlen, BitVec.toNat_ofNat]
    exact Nat.mod_eq_of_lt (by omega)
  have hlist := installGenerator_rdList s
  have hcell : ∀ j, j ≤ d → s.installGenerator.rd .gen j = s.generator.getD j 0 := fun j hj => by
    rw [← hlist]
    exact (Memory.getD_rdList _ _ (by omega)).symm
  exact {
    nr_range := hnr
    fcr_range := hfcr
    minpoly_ok := by rw [installGenerator_minpolyOk]; exact hmp
    length := by rw [installGenerator_generator, hnp, hlen]
    gen := by rw [installGenerator_generator, hnp]; exact hcell
    np_range := by rw [hnp]; exact hd
    k_eq := by rw [hk, hnp]; rfl
    monic := by rw [hnp, hcell d (Nat.le_refl d), hlast]
    roots := fun i hi => by
      rw [hnp, ← hlen, hlist, installGenerator_gf]
      exact beq_iff_eq.mp (List.all_eq_true.mp hv i (List.mem_range.mpr hi)) }

end Sys2Proof.Machine
end

section
/-! PROOFS. What every step keeps: the truth of the flags (10_state.md R62), the legality of STATUS, the canonical form
of the arrays and the freshness of the next draw. -/

namespace Sys2Proof.Machine

variable {s t : State}

/-! ## The flags -/

theorem CommandOutcome.flagsTruthful (ho : CommandOutcome s t) (h : s.FlagsTruthful) : t.FlagsTruthful := by
  cases ho with
  | fault e => exact h.of_codeView rfl
  | fieldFault | notPrimitive | softReset => exact flagsTruthful_of_clear rfl rfl
  | fieldBuilt hf =>
    exact ⟨fun _ => (installTables_tablesBuilt hf.fieldConfigOk).of_fieldView rfl, fun hg => by cases hg⟩
  | genFault e => exact h.of_fieldView rfl rfl
  | genBuilt hc =>
    have hf : s.fieldOk = true := (generatorCheck_eq_none hc).1
    have ht := h.field hf
    have hb := installGenerator_generatorBuilt ht.config.n_lt hc
    exact ⟨fun _ => ht.of_fieldView rfl, fun _ => ⟨hf, hb.of_codeView rfl⟩⟩
  | results u hu => exact h.of_codeView hu.codeView

theorem WriteOutcome.flagsTruthful (ho : WriteOutcome s t) (h : s.FlagsTruthful) : t.FlagsTruthful := by
  cases ho with
  | command c => exact h.of_codeView rfl
  | status v => rw [writeStatus_eq]; exact h.of_codeView rfl
  | field u hu => exact flagsTruthful_of_clear rfl rfl
  | code u hu => exact h.of_fieldView (congrArg State.fieldView hu :) rfl
  | data _ hu => exact h.of_codeView (congrArg State.codeView hu :)

theorem hostAccess_flagsTruthful (x : Access) (h : s.FlagsTruthful) : (s.hostAccess x).FlagsTruthful := by
  obtain ⟨r, u, hx, hu⟩ := hostAccess_outcome s x
  rw [hx]
  rcases hu with rfl | ⟨hw, -, -⟩
  · exact h.of_codeView rfl
  · exact (hw.flagsTruthful h).of_codeView rfl

theorem driveReset_flagsTruthful (b : Bool) (h : s.FlagsTruthful) : (s.driveReset b).FlagsTruthful := by
  unfold State.driveReset
  split
  · exact flagsTruthful_of_clear rfl rfl
  split
  · exact flagsTruthful_of_clear rfl rfl
  · exact h

/-- Settles O55, by cases on the turn: a command that sets a flag has just made it true, and whatever else changes what
a flag vouches for clears the flag. -/
theorem stepKeepsTheFlagsTruthful : Obligations.StepKeepsTheFlagsTruthful := by
  intro s t h hst
  obtain ⟨rest, -, hcase⟩ := step_cases s t hst
  have hu : State.FlagsTruthful { s with agenda := rest } := h.of_codeView rfl
  rcases hcase with rfl | ⟨c, i, -, -, hexec⟩ | ⟨c, e, -, -, rfl⟩ | ⟨x, rfl⟩ | ⟨b, rfl⟩
  · exact hu
  · exact (exec_outcome hexec).flagsTruthful hu
  · exact hu.of_codeView rfl
  · exact hostAccess_flagsTruthful x hu
  · exact driveReset_flagsTruthful b hu

/-! ## STATUS -/

/-- Every code of R321 is in range and not 0. -/
theorem code_range (e : ErrCode) : e.code.toNat ≤ 0x0E ∧ e.code ≠ 0 := by
  cases e <;> decide

/-- STATUS is legal once a command has ended outside reset: the engine is IDLE, and the fault recorded is a new one, the
old one or none. -/
theorem statusLegal_of_idle (hi : t.engine = .idle) (hr : t.inReset = false) (hg : t.genOk = true → t.fieldOk = true)
    (hle : t.errcode.toNat ≤ 0x0E) (h0 : t.errcode = 0 ↔ t.err = false) : t.StatusLegal :=
  ⟨hle, h0, fun hb => by simp [State.isBusy, hi] at hb, hg, fun h => by simp [hr] at h⟩

theorem raiseFault_statusLegal (e : ErrCode) (hr : s.inReset = false) (hg : s.genOk = true → s.fieldOk = true) :
    (s.raiseFault e).StatusLegal :=
  statusLegal_of_idle rfl hr hg (code_range e).1 (iff_of_false (code_range e).2 Bool.noConfusion)

theorem complete_statusLegal (h : s.StatusLegal) (hr : t.inReset = false) (hg : t.genOk = true → t.fieldOk = true)
    (hc : t.errcode = s.errcode) (he : t.err = s.err) : t.complete.StatusLegal :=
  statusLegal_of_idle rfl hr hg (hc ▸ h.errcode_le) (by
    rw [State.complete_errcode, State.complete_err, hc, he]; exact h.errcode_zero)

theorem CommandOutcome.statusLegal (ho : CommandOutcome s t) (h : s.StatusLegal) (hr : s.inReset = false) :
    t.StatusLegal := by
  cases ho with
  | fault e => exact raiseFault_statusLegal e hr h.gen_field
  | fieldFault e => exact raiseFault_statusLegal e hr fun hg => by cases hg
  | notPrimitive => exact raiseFault_statusLegal _ hr fun hg => by cases hg
  | genFault e => exact raiseFault_statusLegal e hr fun hg => by cases hg
  | softReset => exact statusLegal_of_idle rfl hr (fun hg => by cases hg) (by simp) (by simp)
  | fieldBuilt => exact complete_statusLegal h hr (fun hg => by cases hg) rfl rfl
  | genBuilt hc => exact complete_statusLegal h hr (fun _ => (generatorCheck_eq_none hc).1) rfl rfl
  | results u hu =>
    refine complete_statusLegal h ((hu.congr State.inReset).trans hr) ?_ (hu.congr State.errcode) (hu.congr State.err)
    rw [hu.congr State.genOk, hu.congr State.fieldOk]
    exact h.gen_field

/-- The part of the state StatusLegal speaks of outside reset, but for FIELD_OK and GEN_OK; every other register and
cell stands at its reset value. -/
def State.statusView (s : State) : State :=
  { State.reset with engine := s.engine, done := s.done, err := s.err, errcode := s.errcode, inReset := s.inReset }

theorem State.StatusLegal.of_statusView (h : s.StatusLegal) (hr : s.inReset = false)
    (hv : t.statusView = s.statusView) (hg : t.genOk = true → t.fieldOk = true) : t.StatusLegal where
  errcode_le := by
    have hc : t.errcode = s.errcode := (congrArg State.errcode hv :)
    rw [hc]
    exact h.errcode_le
  errcode_zero := by
    have hc : t.errcode = s.errcode := (congrArg State.errcode hv :)
    have he : t.err = s.err := (congrArg State.err hv :)
    rw [hc, he]
    exact h.errcode_zero
  busy_not_done hb :=
    (congrArg State.done hv).trans (h.busy_not_done ((congrArg State.isBusy hv).symm.trans hb))
  gen_field := hg
  in_reset hi := by
    have hs : s.inReset = true := (congrArg State.inReset hv).symm.trans hi
    simp [hr] at hs

theorem writeStatus_statusLegal (v : Word) (h : s.StatusLegal) (hr : s.inReset = false) (hb : s.isBusy = false) :
    (s.writeStatus v).StatusLegal := by
  rw [writeStatus_eq]
  have hbusy : s.isBusy ≠ true := by simp [hb]
  refine ⟨?_, ?_, fun hc => absurd hc hbusy, h.gen_field, fun hc => by simp [hr] at hc⟩
  · dsimp only
    split
    · decide
    · exact h.errcode_le
  · dsimp only
    cases v.getLsbD 2 with
    | false => simpa using h.errcode_zero
    | true => simp

theorem WriteOutcome.statusLegal (ho : WriteOutcome s t) (h : s.StatusLegal) (hr : s.inReset = false)
    (hb : s.isBusy = false) : t.StatusLegal := by
  cases ho with
  | command c =>
    exact ⟨h.errcode_le, h.errcode_zero, fun _ => rfl, h.gen_field, fun hc => by simp [hr] at hc⟩
  | status v => exact writeStatus_statusLegal v h hr hb
  | field u hu | code u hu => exact h.of_statusView hr (congrArg State.statusView hu :) fun hg => by cases hg
  | data _ hu =>
    refine h.of_statusView hr (congrArg State.statusView hu :) ?_
    rw [congrArg State.genOk hu, congrArg State.fieldOk hu]
    exact h.gen_field

/-- The port's answer is no part of STATUS. -/
theorem respond_statusLegal (r : Response) (h : s.StatusLegal) : (s.respond r).StatusLegal :=
  ⟨h.errcode_le, h.errcode_zero, h.busy_not_done, h.gen_field,
    fun hi => congrArg (fun u => State.respond u r) (h.in_reset hi)⟩

theorem hostAccess_statusLegal (x : Access) (h : s.StatusLegal) : (s.hostAccess x).StatusLegal := by
  obtain ⟨r, u, hx, hu⟩ := hostAccess_outcome s x
  rw [hx]
  rcases hu with rfl | ⟨hw, hb, hr⟩
  · exact respond_statusLegal r h
  · exact respond_statusLegal r (hw.statusLegal h hr hb)

theorem driveReset_statusLegal (b : Bool) (h : s.StatusLegal) : (s.driveReset b).StatusLegal := by
  have hreset : ∀ b, State.StatusLegal { s.resetRegisters.redraw with inReset := b } := fun b =>
    ⟨by simp, by simp, fun _ => rfl, (fun hg => by cases hg), fun _ => rfl⟩
  unfold State.driveReset
  split
  · exact hreset true
  split
  · exact hreset false
  · exact h

/-- While reset stays asserted the engine is IDLE, so a command runs outside reset only. -/
theorem State.StatusLegal.inReset_of_busy (h : s.StatusLegal) {c : Word} (hc : s.engine = .busy c) :
    s.inReset = false := by
  by_contra hi
  have := congrArg State.engine (h.in_reset (by simpa using hi))
  rw [hc] at this
  cases this

/-- Settles O56, by cases on the turn: a command ends IDLE with a listed code or the old one, a write is accepted
outside reset only and changes BUSY and DONE, or ERR and ERRCODE, together, and reset clears them. -/
theorem stepKeepsStatusLegal : Obligations.StepKeepsStatusLegal := by
  intro s t h hst
  obtain ⟨rest, -, hcase⟩ := step_cases s t hst
  have hu : State.StatusLegal { s with agenda := rest } :=
    ⟨h.errcode_le, h.errcode_zero, h.busy_not_done, h.gen_field,
      fun hi => congrArg (fun u => { u with agenda := rest }) (h.in_reset hi)⟩
  rcases hcase with rfl | ⟨c, i, hc, -, hexec⟩ | ⟨c, e, hc, -, rfl⟩ | ⟨x, rfl⟩ | ⟨b, rfl⟩
  · exact hu
  · exact (exec_outcome hexec).statusLegal hu (h.inReset_of_busy hc)
  · exact raiseFault_statusLegal .illegal (h.inReset_of_busy hc) h.gen_field
  · exact hostAccess_statusLegal x hu
  · exact driveReset_statusLegal b hu

/-! ## The arrays -/

/-- A command draws nothing anew but the tables BUILD_FIELD leaves unspecified, and with a new draw (R141). -/
theorem CommandOutcome.draws (ho : CommandOutcome s t) : t.mem.epoch = s.mem.epoch ∧ s.draws ≤ t.draws := by
  cases ho with
  | fault | fieldFault | genFault | softReset | fieldBuilt | genBuilt => exact ⟨rfl, Nat.le_refl _⟩
  | notPrimitive => exact ⟨rfl, Nat.le_succ _⟩
  | results u hu => exact ⟨hu.congr fun v => v.mem.epoch, Nat.le_of_eq (hu.congr State.draws).symm⟩

theorem WriteOutcome.draws (ho : WriteOutcome s t) : t.mem.epoch = s.mem.epoch ∧ t.draws = s.draws := by
  cases ho with
  | command c => exact ⟨rfl, rfl⟩
  | status v => rw [writeStatus_eq]; exact ⟨rfl, rfl⟩
  | field _ hu | code _ hu | data _ hu =>
    exact ⟨(congrArg (fun v => v.mem.epoch) hu :), (congrArg State.draws hu :)⟩

theorem hostAccess_draws (s : State) (x : Access) :
    (s.hostAccess x).mem.epoch = s.mem.epoch ∧ (s.hostAccess x).draws = s.draws := by
  obtain ⟨r, u, hx, hu⟩ := hostAccess_outcome s x
  rw [hx]
  rcases hu with rfl | ⟨hw, -, -⟩
  · exact ⟨rfl, rfl⟩
  · exact hw.draws

/-- The reset input draws the arrays anew with the next draw, or changes nothing (R350). -/
theorem driveReset_draws (b : Bool) (h : s.mem.epoch < s.draws) :
    (s.driveReset b).mem.epoch < (s.driveReset b).draws := by
  unfold State.driveReset
  split
  · exact Nat.lt_succ_self _
  split
  · exact Nat.lt_succ_self _
  · exact h

/-- Settles O57, by cases on the turn: every write keeps the canonical form, and what is drawn anew takes the next
draw. -/
theorem stepKeepsTheArraysCanonical : Obligations.StepKeepsTheArraysCanonical := by
  intro s t hst
  obtain ⟨rest, -, hcase⟩ := step_cases s t hst
  rcases hcase with rfl | ⟨c, i, -, -, hexec⟩ | ⟨c, e, -, -, rfl⟩ | ⟨x, rfl⟩ | ⟨b, rfl⟩
  · exact ⟨id, id⟩
  · obtain ⟨he, hd⟩ := (exec_outcome hexec).draws
    exact ⟨fun h => wf_exec hexec h, fun h => he ▸ Nat.lt_of_lt_of_le h hd⟩
  · exact ⟨id, id⟩
  · obtain ⟨he, hd⟩ := hostAccess_draws { s with agenda := rest } x
    exact ⟨fun h => wf_hostAccess x h, fun h => by rw [he, hd]; exact h⟩
  · exact ⟨fun h => wf_driveReset b h, fun h => driveReset_draws b h⟩

end Sys2Proof.Machine
end

section
/-! PROOFS. One step by its turn (10_state.md R32), the accepted writes of CMD, STATUS and the configuration, and the
reset state (10_state.md R63). -/

namespace Sys2Proof.Machine

variable {s u : State}

/-! ## Turns -/

/-- The engine's turn is the next one of the agenda, or taken when none is left (R32). -/
theorem step_engine {rest : List Turn}
    (h : (s.agenda = [] ∧ u = s) ∨ (s.agenda = .engine :: rest ∧ u = { s with agenda := rest })) :
    step s = engineTurn u ∧ u.engine = s.engine := by
  rcases h with ⟨ha, rfl⟩ | ⟨ha, rfl⟩
  · exact ⟨by simp [step, ha], rfl⟩
  · exact ⟨by simp [step, ha], rfl⟩

theorem engineTurn_idle (h : u.engine = .idle) : engineTurn u = .next u := by simp [engineTurn, h]

theorem engineTurn_busy {c : Word} (h : u.engine = .busy c) : engineTurn u = runWord c u := by simp [engineTurn, h]

theorem runWord_ok {c : Word} {i : Instr} (h : decode c = .ok i) : runWord c u = exec i u := by simp [runWord, h]

theorem runWord_error {c : Word} {e : DecodeError} (h : decode c = .error e) :
    runWord c u = .next (u.raiseFault .illegal) := by simp [runWord, h]

/-- Settles O5, by cases on the turn and on the engine's word. -/
theorem stepRunsDecodedCommand : Obligations.StepRunsDecodedCommand := by
  intro s rest
  refine ⟨fun x ha => by simp [step, ha], fun b ha => by simp [step, ha], fun u hu => ?_⟩
  obtain ⟨hstep, heng⟩ := step_engine hu
  rw [hstep, ← heng]
  exact ⟨engineTurn_idle, fun c i hc hd => (engineTurn_busy hc).trans (runWord_ok hd),
    fun c e hc hd => (engineTurn_busy hc).trans (runWord_error hd)⟩

/-! ## Writes of an idle block -/

section idle

variable (hb : s.isBusy = false) (hr : s.inReset = false) {a : Addr} {y : Target} (ht : targetOf a = some y)
include hb hr ht

theorem hostAccess_write_accepted {v : Word} (hw : s.writeTarget y v = some u) :
    s.hostAccess (.write a v) = u.respond .okay := by
  simp [State.hostAccess, State.idleAccess, hb, hr, ht, hw]

theorem hostAccess_write_refused {v : Word} (hw : s.writeTarget y v = none) :
    s.hostAccess (.write a v) = s.respond .error := by
  simp [State.hostAccess, State.idleAccess, hb, hr, ht, hw]

/-- A write of a field of `w` bits is accepted exactly when every bit above them is 0 (R85, R86). -/
theorem hostAccess_write_field {w : Nat} {f : BitVec w → State} (v : Word)
    (hw : s.writeTarget y v = (fieldOf w v).map f) :
    (v.toNat < 2 ^ w → s.hostAccess (.write a v) = (f (v.setWidth w)).respond .okay) ∧
      (2 ^ w ≤ v.toNat → s.hostAccess (.write a v) = s.respond .error) := by
  constructor
  · intro h
    exact hostAccess_write_accepted hb hr ht (by rw [hw, fieldOf_of_lt h]; rfl)
  · intro h
    exact hostAccess_write_refused hb hr ht (by rw [hw, fieldOf_of_le h]; rfl)

end idle

/-- Settles O51: both registers take every word. -/
theorem commandAndStatusWrites : Obligations.CommandAndStatusWrites := by
  intro s v hb hr
  refine ⟨hostAccess_write_accepted hb hr (targetOf_reg .cmd) rfl, ?_⟩
  have h := hostAccess_write_accepted hb hr (targetOf_reg .status) (v := v) rfl
  rw [writeStatus_eq] at h
  exact h

/-- Settles O48: each configuration register and MINPOLY cell is a field of its width, whose write clears the flags. -/
theorem configurationWritesInvalidate : Obligations.ConfigurationWritesInvalidate := by
  intro s v hb hr writes refuses
  have hm := hostAccess_write_field hb hr (targetOf_reg .cfgM) v rfl
  have hpoly := hostAccess_write_field hb hr (targetOf_reg .cfgPoly) v rfl
  have hnr := hostAccess_write_field hb hr (targetOf_reg .cfgNr) v rfl
  have hfcr := hostAccess_write_field hb hr (targetOf_reg .cfgFcr) v rfl
  have hnmp := hostAccess_write_field hb hr (targetOf_reg .cfgNmp) v rfl
  have hmode := hostAccess_write_field hb hr (targetOf_reg .cfgMode) v rfl
  have hbit : (v.setWidth 1).getLsbD 0 = v.getLsbD 0 := by simp
  rw [hbit] at hmode
  refine ⟨fun h => ⟨hm.1 h, rfl⟩, hm.2, fun h => ⟨hpoly.1 h, rfl⟩, hpoly.2,
    fun h => ⟨⟨hnr.1 h, rfl⟩, ⟨hfcr.1 h, rfl⟩, ⟨hnmp.1 h, rfl⟩⟩, fun h => ⟨hnr.2 h, hfcr.2 h, hnmp.2 h⟩,
    fun h => ⟨hmode.1 h, rfl⟩, hmode.2, fun i hi => ?_⟩
  have hcell := hostAccess_write_field hb hr (targetOf_minpoly hi) v rfl
  exact ⟨fun h => ⟨⟨hcell.1 h, rfl⟩, fun j => s.mem.rdMinpoly_writeMinpoly i j _,
    fun w j => s.mem.rd_writeMinpoly i j _ w⟩, hcell.2⟩

/-! ## The reset state -/

theorem cells_drawn (k : Nat) (w : Win) : (Memory.drawn k).cells w = [] := by cases w <;> rfl

theorem inWindows_drawn (k : Nat) : (Memory.drawn k).InWindows := by
  refine ⟨fun w c hc => ?_, fun c hc => ?_⟩
  · rw [cells_drawn] at hc
    cases hc
  · cases hc

/-- Settles O54: no flag is set, no fault is recorded and no cell is listed. -/
theorem resetStateMeetsTheInvariants : Obligations.ResetStateMeetsTheInvariants :=
  ⟨rfl, rfl, rfl, flagsTruthful_of_clear rfl rfl,
    statusLegal_of_idle rfl rfl (fun hg => by cases hg) (by decide) (by decide), Memory.wf_drawn 0, Nat.zero_lt_one,
    inWindows_drawn 0⟩

end Sys2Proof.Machine
end

section
/-! PROOFS. 20_memory.md R81: no step writes outside an array's window. A store whose cells fit keeps the windows; each
command's stores fit, because the lengths of the lists it stores are bounded by N and NR, and R62 bounds those. -/

namespace Sys2Proof.Machine

variable {s t : State} {m : Memory} {F : GF}

/-! ## Stores -/

/-- A write adds no index but those from `i` to `i + vs.length`. -/
theorem Cells.index_lt_of_mem_write {w i n : Nat} {l : Cells w} {vs : List (BitVec w)} (hl : ∀ c ∈ l, c.1 < n)
    (hv : i + vs.length ≤ n) : ∀ c ∈ Cells.write l i vs, c.1 < n := by
  intro c hc
  rcases List.mem_append.mp hc with hc | hc
  · rcases List.mem_append.mp hc with hc | hc
    · exact hl c (List.mem_filter.mp hc).1
    · obtain ⟨hi, hget⟩ := mem_numbered.mp hc
      have hlt := (List.getElem?_eq_some_iff.mp hget).1
      omega
  · exact hl c (List.mem_filter.mp hc).1

theorem Memory.InWindows.write (h : m.InWindows) {w : Win} {i : Nat} {vs : List Sym}
    (hv : i + vs.length ≤ winSize w) : (m.write w i vs).InWindows := by
  obtain ⟨hcells, hmin⟩ := h
  unfold Memory.write
  refine ⟨fun u => ?_, by rwa [Memory.minpoly_setCells]⟩
  by_cases hu : u = w
  · subst hu
    rw [Memory.cells_setCells_same]
    exact Cells.index_lt_of_mem_write (hcells u) hv
  · rw [Memory.cells_setCells_other m _ hu]
    exact hcells u

theorem Memory.InWindows.writeMinpoly (h : m.InWindows) {i : Nat} (hi : i < minpolySize) (v : Mask) :
    (m.writeMinpoly i v).InWindows := by
  obtain ⟨hcells, hmin⟩ := h
  exact ⟨fun u => by have hu := hcells u; cases u <;> exact hu, Cells.index_lt_of_mem_write hmin hi⟩

/-! ## Accesses -/

/-- An accepted write of what an address selects stays in its window. -/
theorem writeTarget_inWindows {a : Addr} {y : Target} {v : Word} (ha : targetOf a = some y)
    (hw : s.writeTarget y v = some t) (h : s.mem.InWindows) : t.mem.InWindows := by
  rcases targetOf_eq_some ha with ⟨r, rfl, -⟩ | ⟨i, hi, rfl, -⟩ | ⟨w, i, hi, rfl, -⟩
  · rw [(writeReg_mem hw).1]
    exact h
  · obtain ⟨-, rfl⟩ := writeTarget_minpoly hw
    exact h.writeMinpoly hi _
  · obtain ⟨-, -, rfl⟩ := writeTarget_cell hw
    exact h.write hi

theorem hostAccess_inWindows (x : Access) (h : s.mem.InWindows) : (s.hostAccess x).mem.InWindows := by
  rcases hostAccess_cases s x with hx | ⟨a, v, -, -, hx⟩ | ⟨a, v, y, u, -, -, -, ha, hw, hx⟩
  · rw [hx]; exact h
  · rw [hx]; exact h
  · rw [hx]; exact writeTarget_inWindows (t := u) ha hw h

theorem driveReset_inWindows (b : Bool) (h : s.mem.InWindows) : (s.driveReset b).mem.InWindows := by
  unfold State.driveReset
  split
  · exact inWindows_drawn _
  split
  · exact inWindows_drawn _
  · exact h

/-! ## The sizes of the code -/

namespace State.CodeReady

variable (h : s.CodeReady)
include h

theorem nr_le : s.nr ≤ 256 := by
  have := (h.truthful.gen h.gen_ok).2.nr_range
  omega

theorem n_le : s.n ≤ 65535 := by
  have := (h.truthful.field h.field_ok).config.n_lt
  omega

theorem k_add_np : s.k + s.np = s.n := by
  have hk := (h.truthful.gen h.gen_ok).2.k_eq
  have hnp := (h.truthful.gen h.gen_ok).2.np_range
  omega

end State.CodeReady

/-- A pipeline command that passes its checks runs on a ready code, and passes the checks of its own (R200). -/
theorem codeReady_of_pipelineCheck {c : Option ErrCode} (ht : s.FlagsTruthful)
    (h : firstFault s.pipelineCheck c = none) : s.CodeReady ∧ c = none := by
  obtain ⟨hp, hc⟩ := (firstFault_eq_none ..).mp h
  obtain ⟨hf, hg⟩ := pipelineCheck_eq_none.mp hp
  exact ⟨⟨hf, hg, ht⟩, hc⟩

/-! ## The lengths of the lists the commands store -/

theorem length_parityOf (np : Nat) (gen : Nat → Sym) (msg : List Sym) : (parityOf F np gen msg).length = np :=
  List.foldlRecOn (motive := fun par : List Sym => par.length = np) msg _ List.length_replicate
    fun par _ c _ => by simp [encodeSymbol]

theorem length_syndromesOf (nr fcr : Nat) (w : List Sym) : (syndromesOf F nr fcr w).length = nr := by
  simp [syndromesOf]

theorem length_erasureSeed (nr : Nat) (eras : List Nat) : (erasureSeed F nr eras).length = nr + 1 :=
  List.foldlRecOn (motive := fun c : List Sym => c.length = nr + 1) _ _ (by simp)
    fun c hc p _ => by simp [timesLocator, hc]

/-- A step keeps C or corrects it in the cells 0..NR (R232). -/
theorem length_bmStep {nr f n : Nat} {syn : List Sym} {r : BMRun} (h : r.c.length = nr + 1) :
    (bmStep F nr syn f r n).c.length = nr + 1 := by
  unfold bmStep
  dsimp only
  split
  · exact h
  · split <;> simp [corrected]

theorem length_bmRun (nr : Nat) (syn : List Sym) (eras : List Nat) : (bmRun F nr syn eras).c.length = nr + 1 :=
  List.foldlRecOn (motive := fun r : BMRun => r.c.length = nr + 1) _ _ (length_erasureSeed nr eras)
    fun _ hr _ _ => length_bmStep hr

theorem trim_le (lam : Nat → Sym) (d : Nat) : trim lam d ≤ d := by
  induction d with
  | zero => exact Nat.le_refl 0
  | succ d ih =>
    unfold trim
    split
    · exact Nat.le_succ_of_le ih
    · exact Nat.le_refl _

/-- The search stops at the d-th root (R253). -/
theorem length_rootPositions_le (lam : List Sym) (d : Nat) : (rootPositions F lam d).length ≤ d :=
  List.length_take_le _ _

theorem length_evaluator (nr : Nat) (syn lam : List Sym) : (evaluator F nr syn lam).length = nr := by
  simp [evaluator]

theorem length_correctWord (w : List Sym) (cs : List (Nat × Sym)) : (correctWord w cs).length = w.length :=
  List.foldlRecOn (motive := fun u : List Sym => u.length = w.length) cs _ rfl fun u hu c _ => by simp [hu]

theorem length_workingCopy (clr : Bool) (eras : List Nat) (orig : List Sym) :
    (workingCopy clr eras orig).length = orig.length := by
  unfold workingCopy
  split
  · exact List.foldlRecOn (motive := fun u : List Sym => u.length = orig.length) eras _ rfl fun u hu p _ => by simp [hu]
  · rfl

theorem length_codeword (s : State) : s.codeword.length = s.n := s.mem.length_rdList .code s.n

theorem length_locations (s : State) : s.locations.length = s.loccnt.toNat := by
  simp [State.locations, State.rdList]

/-! ## The stages of DECODE -/

theorem decodeSuccess_inWindows {orig w : List Sym} (hw : w.length ≤ 65535) (h : s.mem.InWindows) :
    (s.decodeSuccess orig w).mem.InWindows :=
  h.write (w := .code) (by simpa [winSize] using hw)

theorem decodeApply_inWindows {novfy : Bool} {orig w : List Sym} {cs : List (Nat × Sym)} (hw : w.length ≤ 65535)
    (h : s.mem.InWindows) : (s.decodeApply novfy orig w cs).mem.InWindows := by
  unfold State.decodeApply
  dsimp only
  split
  · exact h
  · exact decodeSuccess_inWindows (by rwa [length_correctWord]) h

/-- OMEGA and MAG take NR values and one per position (R270). -/
theorem inWindows_omega_mag {om mg : List Sym} (ho : om.length ≤ 256) (hg : mg.length ≤ 256) (h : s.mem.InWindows) :
    ((s.store .omega 0 om).store .mag 0 mg).mem.InWindows :=
  Memory.InWindows.write (w := .mag) (h.write (w := .omega) (by simpa [winSize] using ho))
    (by simpa [winSize] using hg)

theorem decodeMagnitudes_inWindows {novfy : Bool} {orig w syn lam : List Sym} {ps : List Nat} (hnr : s.nr ≤ 256)
    (hps : ps.length ≤ 256) (hw : w.length ≤ 65535) (h : s.mem.InWindows) :
    (s.decodeMagnitudes novfy orig w syn lam ps).mem.InWindows := by
  unfold State.decodeMagnitudes
  split
  · exact h
  dsimp only
  have hm := inWindows_omega_mag (om := evaluator s.gf s.nr syn lam)
    (mg := ps.map (magnitude s.gf s.fcr (evaluator s.gf s.nr syn lam) lam)) (by rwa [length_evaluator])
    (by rwa [List.length_map]) h
  split
  · exact hm
  · exact decodeApply_inWindows hw hm

/-- LOC takes the positions found. -/
theorem inWindows_loc {ps : List Nat} (hps : ps.length ≤ 256) (h : s.mem.InWindows) :
    (s.store .loc 0 (ps.map (BitVec.ofNat 16))).mem.InWindows :=
  h.write (w := .loc) (by simpa [winSize] using hps)

theorem decodeRoots_inWindows {novfy : Bool} {orig w syn c : List Sym} {len : Nat} (hnr : s.nr ≤ 256)
    (hlen : len ≤ 256) (hw : w.length ≤ 65535) (h : s.mem.InWindows) :
    (s.decodeRoots novfy orig w syn c len).mem.InWindows := by
  unfold State.decodeRoots
  split
  · exact h
  dsimp only
  split
  · exact h
  have hps (lam : List Sym) : (rootPositions s.gf lam (trim (fun j => c.getD j 0) len)).length ≤ 256 :=
    (length_rootPositions_le _ _).trans ((trim_le _ _).trans hlen)
  split
  · exact inWindows_loc (hps _) h
  · exact decodeMagnitudes_inWindows hnr (hps _) hw (inWindows_loc (hps _) h)

/-- LAMBDA takes BM's C (R231). -/
theorem inWindows_lambda {syn : List Sym} {eras : List Nat} (hnr : s.nr ≤ 256) (h : s.mem.InWindows) :
    (s.store .lambda 0 (bmRun F s.nr syn eras).c).mem.InWindows :=
  h.write (w := .lambda) (by simp only [length_bmRun, winSize]; omega)

theorem decodeLocate_inWindows {novfy : Bool} {orig w syn : List Sym} (hnr : s.nr ≤ 256) (hw : w.length ≤ 65535)
    (h : s.mem.InWindows) : (s.decodeLocate novfy orig w syn).mem.InWindows := by
  unfold State.decodeLocate
  dsimp only
  split
  · exact inWindows_lambda hnr h
  · exact decodeRoots_inWindows hnr (by omega) hw (inWindows_lambda hnr h)

/-- SYN takes NR syndromes (R220). -/
theorem inWindows_syn {w : List Sym} (hnr : s.nr ≤ 256) (h : s.mem.InWindows) :
    (s.store .syn 0 (syndromesOf s.gf s.nr s.fcr w)).mem.InWindows :=
  h.write (w := .syn) (by simpa [length_syndromesOf, winSize] using hnr)

theorem runDecode_inWindows {clr novfy : Bool} (hr : s.CodeReady) (h : s.mem.InWindows) :
    (State.runDecode clr novfy s).mem.InWindows := by
  have hw : (workingCopy clr s.erasures s.codeword).length ≤ 65535 := by
    rw [length_workingCopy, length_codeword]
    exact hr.n_le
  unfold State.runDecode
  dsimp only
  split
  · exact decodeSuccess_inWindows hw (inWindows_syn hr.nr_le h)
  · exact decodeLocate_inWindows hr.nr_le hw (inWindows_syn hr.nr_le h)

/-! ## The other commands -/

/-- Both tables have 2^M cells, and M is at most 16 whenever a table is written (R141). -/
theorem inWindows_tables {es ls : List Sym} (hm : s.cfgM.toNat ≤ 16) (he : es.length = 2 ^ s.cfgM.toNat)
    (hl : ls.length = 2 ^ s.cfgM.toNat) (h : s.mem.InWindows) :
    ((s.store .expt 0 es).store .logt 0 ls).mem.InWindows := by
  have hpow : 2 ^ s.cfgM.toNat ≤ 65536 := Nat.pow_le_pow_right (n := 2) (by omega) hm
  exact Memory.InWindows.write (w := .logt) (h.write (w := .expt) (by simp only [he, winSize]; omega))
    (by simp only [hl, winSize]; omega)

theorem execBuildField_inWindows (h : s.mem.InWindows) (hex : execBuildField s = .next t) : t.mem.InWindows := by
  unfold execBuildField at hex
  dsimp only at hex
  split at hex
  · cases hex; exact h
  rename_i hrange
  have hm : s.invalidateField.cfgM.toNat ≤ 16 := by
    simp only [Config.mMax] at hrange
    omega
  split at hex
  · cases hex; exact h
  split at hex
  · cases hex
    exact inWindows_tables (s := s.invalidateField) hm (by simp) (by simp) h
  · cases hex
    exact inWindows_tables (s := s.invalidateField) hm (length_expTable _ _) (length_logTable _ _) h

theorem installGenerator_inWindows (hc : s.generatorCheck = none) (h : s.mem.InWindows) :
    s.installGenerator.mem.InWindows := by
  obtain ⟨-, hnr, -, hmp, -⟩ := generatorCheck_eq_none hc
  obtain ⟨d, ⟨hlen, -⟩, -, hd⟩ := generator_monic hnr hmp
  exact h.write (w := .gen) (by simp only [hlen, winSize]; omega)

/-- The parity fills CODE up to its last symbol, N - 1 (R210). -/
theorem encode_inWindows (hr : s.CodeReady) (h : s.mem.InWindows) : s.encode.mem.InWindows := by
  refine h.write (w := .code) ?_
  have hk := hr.k_add_np
  have hn := hr.n_le
  simp only [length_parityOf, winSize]
  omega

/-- DEG is at most NR (R250), so no more than NR positions are found. -/
theorem findRoots_inWindows (ht : s.FlagsTruthful) (hc : s.rootsCheck = none) (h : s.mem.InWindows) :
    s.findRoots.mem.InWindows := by
  obtain ⟨hr, hc⟩ := codeReady_of_pipelineCheck ht hc
  have hdeg : ¬ s.nr < s.deg.toNat := by
    have := (faultIf_eq_none ..).mp ((firstFault_eq_none ..).mp hc).1
    simpa using this
  have hnr := hr.nr_le
  unfold State.findRoots
  split
  · exact h
  · refine inWindows_loc ((length_rootPositions_le _ _).trans ((trim_le _ _).trans ?_)) h
    omega

/-- LOCCNT is at most NR (R270). -/
theorem evaluateMagnitudes_inWindows (ht : s.FlagsTruthful) (hc : s.forneyCheck = none) (h : s.mem.InWindows) :
    s.evaluateMagnitudes.mem.InWindows := by
  obtain ⟨hr, hc⟩ := codeReady_of_pipelineCheck ht hc
  have hcounts : s.deg.toNat ≤ s.nr ∧ s.loccnt.toNat ≤ s.nr := by
    have := (faultIf_eq_none ..).mp ((firstFault_eq_none ..).mp hc).1
    simpa using this
  have hnr := hr.nr_le
  refine inWindows_omega_mag (by rw [length_evaluator]; exact hnr) ?_ h
  rw [List.length_map, length_locations]
  omega

theorem correctCells_inWindows {cs : List (Nat × Sym)} (hcs : ∀ c ∈ cs, c.1 < 65535) (h : s.mem.InWindows) :
    (cs.foldl State.correctCell s).mem.InWindows :=
  List.foldlRecOn (motive := fun u : State => u.mem.InWindows) cs _ h fun _ hu c hc => hu.write (w := .code) (hcs c hc)

/-- Every corrected position is below N (R280). -/
theorem applyCorrections_inWindows (ht : s.FlagsTruthful) (hc : s.applyCheck = none) (h : s.mem.InWindows) :
    s.applyCorrections.mem.InWindows := by
  obtain ⟨hr, hc⟩ := codeReady_of_pipelineCheck ht hc
  have hrange := (faultIf_eq_none ..).mp ((firstFault_eq_none ..).mp hc).2
  have hn := hr.n_le
  refine correctCells_inWindows (fun c hcs => ?_) h
  have hbad := List.any_eq_false.mp hrange c hcs
  simp only [Bool.or_eq_true, decide_eq_true_eq, not_or] at hbad
  omega

/-! ## One command, one step -/

/-- A command whose effect stays in the windows once its checks have passed keeps the windows. -/
theorem finish_inWindows {check : Option ErrCode} {f : State → State} (h : s.mem.InWindows)
    (hf : check = none → (f s).mem.InWindows) (hex : s.finish check f = .next t) : t.mem.InWindows := by
  rcases (finish_eq_next ..).mp hex with ⟨e, -, rfl⟩ | ⟨hc, rfl⟩
  · exact h
  · exact hf hc

theorem exec_inWindows {i : Instr} (ht : s.FlagsTruthful) (h : s.mem.InWindows) (hex : exec i s = .next t) :
    t.mem.InWindows := by
  cases i with
  | buildField => exact execBuildField_inWindows h hex
  | buildGen => exact finish_inWindows (s := s.invalidateGen) h (fun hc => installGenerator_inWindows hc h) hex
  | encode => exact finish_inWindows h (fun hc => encode_inWindows (codeReady_of_pipelineCheck ht hc).1 h) hex
  | syndromes => exact finish_inWindows h (fun hc => inWindows_syn (codeReady_of_pipelineCheck ht hc).1.nr_le h) hex
  | bm => exact finish_inWindows h (fun hc => inWindows_lambda (codeReady_of_pipelineCheck ht hc).1.nr_le h) hex
  | roots => exact finish_inWindows h (fun hc => findRoots_inWindows ht hc h) hex
  | forney => exact finish_inWindows h (fun hc => evaluateMagnitudes_inWindows ht hc h) hex
  | apply => exact finish_inWindows h (fun hc => applyCorrections_inWindows ht hc h) hex
  | decode clr novfy =>
    exact finish_inWindows h (fun hc => runDecode_inWindows (codeReady_of_pipelineCheck ht hc).1 h) hex
  | nop | srst | gfAdd | gfMul | gfDiv | gfInv | gfFma | gfExp | gfLog | gfPow | gfTrace | gfQsolve =>
    exact exec_mem (fun w hw => by cases hw) hex h

/-- Settles O58, by cases on the turn: a command's lists fit their arrays, an address selects cells of its window only,
and what is drawn anew lists no cell. -/
theorem stepKeepsTheCellsInTheirWindows : Obligations.StepKeepsTheCellsInTheirWindows := by
  intro s t ht h hst
  obtain ⟨rest, -, hcase⟩ := step_cases s t hst
  have hu : State.FlagsTruthful { s with agenda := rest } := ht.of_codeView rfl
  rcases hcase with rfl | ⟨c, i, -, -, hexec⟩ | ⟨c, e, -, -, rfl⟩ | ⟨x, rfl⟩ | ⟨b, rfl⟩
  · exact h
  · exact exec_inWindows hu h hexec
  · exact h
  · exact hostAccess_inWindows x h
  · exact driveReset_inWindows b h

end Sys2Proof.Machine
end

section
/-! PROOFS. 20_memory.md: the host port. What a BUSY block, a refused access, a read, a write of each register and cell,
and a forbidden access do. -/

namespace Sys2Proof.Machine

variable {s t : State}

/-! ## A BUSY block and a refused access -/

theorem statusWord_busy (h : s.isBusy = true) : s.statusWord.getLsbD 0 = true := by
  rw [State.statusWord, BitVec.getLsbD_append, h]
  rfl

/-- Settles O44: BUSY leaves one access, the STATUS read. -/
theorem busyPortAcceptsOnlyStatusReads : Obligations.BusyPortAcceptsOnlyStatusReads := by
  intro s x hb hr
  have hbusy : s.hostAccess x =
      if x = .read 0x00008 then s.respond (.okayData s.statusWord) else s.respond .error := by
    simp only [State.hostAccess, hb, hr]
    rfl
  refine ⟨fun hx => ⟨?_, statusWord_busy hb⟩, fun hx => ?_⟩
  · rw [hbusy, if_pos hx]
    rfl
  · rw [hbusy, if_neg hx]
    rfl

/-- Settles O45, by cases on the access: only a refused one answers ERROR. -/
theorem refusedAccessChangesNothing : Obligations.RefusedAccessChangesNothing := by
  intro s x h
  rcases hostAccess_cases s x with hx | ⟨a, v, -, -, hx⟩ | ⟨a, v, y, u, -, -, -, -, -, hx⟩
  · exact ⟨hx, rfl⟩
  · rw [hx] at h
    cases h
  · rw [hx] at h
    cases h

/-! ## Reads of an idle block -/

/-- A read answers with what its address selects and changes nothing else (R84). -/
theorem hostAccess_read (hb : s.isBusy = false) (hr : s.inReset = false) {a : Addr} {y : Target}
    (ha : targetOf a = some y) : s.hostAccess (.read a) = s.respond (.okayData (s.readTarget y)) := by
  simp [State.hostAccess, State.idleAccess, hb, hr, ha]

/-- The bits of `y` are the low ones. -/
theorem toNat_append_eq_add {m n : Nat} (x : BitVec m) (y : BitVec n) : (x ++ y).toNat = x.toNat * 2 ^ n + y.toNat := by
  rw [BitVec.toNat_append, ← Nat.shiftLeft_add_eq_or_of_lt y.isLt, Nat.shiftLeft_eq]

theorem toNat_ite_zero (b : Bool) (x : Word) : (if b then x else 0).toNat = b.toNat * x.toNat := by
  cases b <;> simp

theorem setWidth_ofBool (b : Bool) : (BitVec.ofBool b).setWidth 32 = if b then 1 else 0 := by cases b <;> rfl

/-- STATUS while IDLE: each flag at its bit and ERRCODE at bit 8 (R35). -/
theorem statusWord_idle (hb : s.isBusy = false) :
    s.statusWord = 0x100 * s.errcode.setWidth 32 + (if s.genOk then 16 else 0) + (if s.fieldOk then 8 else 0) +
      (if s.err then 4 else 0) + (if s.done then 2 else 0) := by
  have hcode := s.errcode.isLt
  have hgen := s.genOk.toNat_le
  have hfield := s.fieldOk.toNat_le
  have herr := s.err.toNat_le
  have hdone := s.done.toNat_le
  apply BitVec.eq_of_toNat_eq
  simp only [State.statusWord, hb, toNat_append_eq_add, BitVec.toNat_add, BitVec.toNat_mul, toNat_ite_zero]
  simp
  omega

/-- GEN_INFO: K above NP (R44). -/
theorem genInfoWord_eq (s : State) :
    s.genInfoWord = if s.genOk then 0x10000 * s.genK.setWidth 32 + s.genNp.setWidth 32 else 0 := by
  have hk := s.genK.isLt
  have hnp := s.genNp.isLt
  unfold State.genInfoWord
  congr 1
  apply BitVec.eq_of_toNat_eq
  rw [toNat_append_eq_add]
  simp
  omega

/-- Settles O46: every address of R81 selects its register or cell. -/
theorem readsReturnWhatTheyAddress : Obligations.ReadsReturnWhatTheyAddress := by
  intro s hb hr reads
  have cell (w : Win) (i : Nat) (hi : i < winSize w) : reads (winBase w + 4 * i) ((s.rd w i).setWidth 32) :=
    hostAccess_read hb hr (targetOf_cell hi)
  have reg (r : Reg) : reads (regAddr r) (s.readReg r) := hostAccess_read hb hr (targetOf_reg r)
  have hstatus := reg .status
  have hie := reg .ctrl
  have hbch := reg .cfgMode
  have hinfo := reg .genInfo
  simp only [State.readReg, setWidth_ofBool, statusWord_idle hb, genInfoWord_eq] at hstatus hie hbch hinfo
  exact ⟨fun i hi => cell .gen i (Nat.lt_succ_of_le hi), fun i hi => cell .syn i (Nat.lt_succ_of_le hi),
    fun i hi => cell .lambda i (Nat.lt_succ_of_le hi), fun i hi => cell .omega i (Nat.lt_succ_of_le hi),
    fun i hi => cell .loc i (Nat.lt_succ_of_le hi), fun i hi => cell .mag i (Nat.lt_succ_of_le hi),
    fun i hi => cell .eras i (Nat.lt_succ_of_le hi), fun i hi => cell .expt i (Nat.lt_succ_of_le hi),
    fun i hi => cell .logt i (Nat.lt_succ_of_le hi), fun i hi => cell .code i (Nat.lt_succ_of_le hi),
    fun i hi => hostAccess_read hb hr (targetOf_minpoly (Nat.lt_succ_of_le hi)),
    reg .caps, reg .cmd, hstatus, hie, reg .result, reg .cfgM, reg .cfgPoly, reg .cfgNr, reg .cfgFcr, hbch,
    reg .cfgNmp, hinfo, reg .neras, reg .deg, reg .loccnt, reg .opa, reg .opb, reg .opc, reg .opr⟩

/-! ## Writes of registers and cells -/

/-- Settles O47: CTRL.IE is a field of 1 bit, the counts are fields of 16, and an operand takes every word. -/
theorem registerWritesStoreOrAreRefused : Obligations.RegisterWritesStoreOrAreRefused := by
  intro s v hb hr writes refuses
  have hie := hostAccess_write_field hb hr (targetOf_reg .ctrl) v rfl
  have hneras := hostAccess_write_field hb hr (targetOf_reg .neras) v rfl
  have hdeg := hostAccess_write_field hb hr (targetOf_reg .deg) v rfl
  have hloccnt := hostAccess_write_field hb hr (targetOf_reg .loccnt) v rfl
  have hbit : (v.setWidth 1).getLsbD 0 = v.getLsbD 0 := by simp
  rw [hbit] at hie
  exact ⟨hie.1, hie.2, fun h => ⟨hneras.1 h, hdeg.1 h, hloccnt.1 h⟩, fun h => ⟨hneras.2 h, hdeg.2 h, hloccnt.2 h⟩,
    hostAccess_write_accepted hb hr (targetOf_reg .opa) rfl, hostAccess_write_accepted hb hr (targetOf_reg .opb) rfl,
    hostAccess_write_accepted hb hr (targetOf_reg .opc) rfl⟩

theorem writeTarget_writable {w : Win} (hw : winWritable w = true) (i : Nat) (v : Word) :
    s.writeTarget (.cell w i) v = (fieldOf 16 v).map fun x => s.store w i [x] := by
  simp [State.writeTarget, hw]

/-- A store of one cell changes that cell only. -/
theorem store_cell (s : State) (w : Win) (i : Nat) (x : Sym) :
    (s.store w i [x]).rd w i = x ∧ s.SameCells (s.store w i [x]) fun u j => u = w ∧ j = i := by
  refine ⟨by simp [State.store_rd_same], fun u j hne => ?_, fun j => s.mem.rdMinpoly_write w i j [x]⟩
  by_cases hu : u = w
  · subst hu
    have hj : j ≠ i := fun hj => hne ⟨rfl, hj⟩
    rw [State.store_rd_same, dif_neg (by simp; omega)]
  · exact State.store_rd_other j hu

/-- A write of a cell of a writable array (R85). -/
theorem hostAccess_write_cell (hb : s.isBusy = false) (hr : s.inReset = false) {w : Win} (hw : winWritable w = true)
    {i : Nat} (hi : i < winSize w) (v : Word) :
    let t := s.hostAccess (.write (BitVec.ofNat 20 (winBase w + 4 * i)) v)
    (v.toNat < 65536 → t = { s with response := some .okay, mem := t.mem } ∧ t.rd w i = v.setWidth 16 ∧
      s.SameCells t (fun u j => u = w ∧ j = i)) ∧
    (65536 ≤ v.toNat → t = { s with response := some .error }) := by
  intro t
  obtain ⟨hstore, hrefuse⟩ := hostAccess_write_field hb hr (targetOf_cell hi) v (writeTarget_writable hw i v)
  refine ⟨fun h => ?_, hrefuse⟩
  have ht : t = (s.store w i [v.setWidth 16]).respond .okay := hstore h
  rw [ht]
  exact ⟨rfl, store_cell s w i _⟩

/-- Settles O49: each window of R81 the host may write, and MINPOLY. -/
theorem cellWritesStoreOrAreRefused : Obligations.CellWritesStoreOrAreRefused := by
  intro s v hb hr
  refine ⟨fun w base last i hwin hi => ?_, fun i hi => ?_⟩
  · have hmap : winWritable w = true ∧ base = winBase w ∧ last < winSize w := by
      rcases hwin with ⟨rfl, rfl, rfl⟩ | ⟨rfl, rfl, rfl⟩ | ⟨rfl, rfl, rfl⟩ | ⟨rfl, rfl, rfl⟩ | ⟨rfl, rfl, rfl⟩ |
        ⟨rfl, rfl, rfl⟩ <;>
      decide
    obtain ⟨hw, rfl, hlast⟩ := hmap
    exact hostAccess_write_cell hb hr hw (Nat.lt_of_le_of_lt hi hlast) v
  · intro t
    obtain ⟨hstore, hrefuse⟩ := hostAccess_write_field hb hr (targetOf_minpoly hi) v rfl
    refine ⟨fun h => ?_, hrefuse⟩
    have ht : t = State.respond { s with mem := s.mem.writeMinpoly i (v.setWidth 17), genOk := false } .okay := hstore h
    rw [ht]
    exact ⟨rfl, fun j => s.mem.rdMinpoly_writeMinpoly i j _, fun w j => s.mem.rd_writeMinpoly i j _ w⟩

/-! ## Forbidden accesses -/

/-- An unaligned or a reserved address selects nothing (R87, R90). -/
theorem targetOf_eq_none {a : Addr}
    (h : a.toNat % 4 ≠ 0 ∨ (0x0004C ≤ a.toNat ∧ a.toNat ≤ 0x00FFF) ∨ (0x01404 ≤ a.toNat ∧ a.toNat ≤ 0x01FFF) ∨
      (0x02400 ≤ a.toNat ∧ a.toNat ≤ 0x02FFF) ∨ (0x03400 ≤ a.toNat ∧ a.toNat ≤ 0x03FFF) ∨
      (0x04404 ≤ a.toNat ∧ a.toNat ≤ 0x04FFF) ∨ (0x05400 ≤ a.toNat ∧ a.toNat ≤ 0x05FFF) ∨
      (0x06400 ≤ a.toNat ∧ a.toNat ≤ 0x06FFF) ∨ (0x07400 ≤ a.toNat ∧ a.toNat ≤ 0x07FFF) ∨
      (0x08400 ≤ a.toNat ∧ a.toNat ≤ 0x3FFFF) ∨ 0xFFFFC ≤ a.toNat) : targetOf a = none := by
  refine Option.eq_none_iff_forall_ne_some.mpr fun y hy => ?_
  rcases targetOf_eq_some hy with ⟨r, -, ha⟩ | ⟨i, hi, -, ha⟩ | ⟨w, i, hi, -, ha⟩
  · cases r <;> simp only [regAddr] at ha <;> omega
  · simp only [minpolyBase, minpolySize] at hi ha
    omega
  · cases w <;> simp only [winBase, winSize] at hi ha <;> omega

theorem writeReg_readOnly {r : Reg} {v : Word} (h : s.writeReg r v = some t) :
    r ≠ .caps ∧ r ≠ .result ∧ r ≠ .genInfo ∧ r ≠ .opr := by
  refine ⟨?_, ?_, ?_, ?_⟩ <;> (rintro rfl; cases h)

/-- No accepted write is at the address of a read-only register or window (R90). -/
theorem writeTarget_address {a : Addr} {y : Target} {v : Word} (ha : targetOf a = some y)
    (hw : s.writeTarget y v = some t) :
    ¬ (a.toNat = 0x00000 ∨ a.toNat = 0x00010 ∨ a.toNat = 0x0002C ∨ a.toNat = 0x00048 ∨
      (0x01000 ≤ a.toNat ∧ a.toNat ≤ 0x01400) ∨ (0x05000 ≤ a.toNat ∧ a.toNat ≤ 0x053FC) ∨
      (0x40000 ≤ a.toNat ∧ a.toNat ≤ 0xBFFFC)) := by
  rcases targetOf_eq_some ha with ⟨r, rfl, haddr⟩ | ⟨i, hi, rfl, haddr⟩ | ⟨w, i, hi, rfl, haddr⟩
  · obtain ⟨hcaps, hresult, hinfo, hopr⟩ := writeReg_readOnly hw
    cases r with
    | caps => exact absurd rfl hcaps
    | result => exact absurd rfl hresult
    | genInfo => exact absurd rfl hinfo
    | opr => exact absurd rfl hopr
    | cmd | status | ctrl | cfgM | cfgPoly | cfgNr | cfgFcr | cfgMode | cfgNmp | neras | deg | loccnt | opa | opb
    | opc =>
      simp only [regAddr] at haddr
      omega
  · simp only [minpolyBase, minpolySize] at hi haddr
    omega
  · have hwin := (writeTarget_cell hw).1
    cases w with
    | gen | omega | expt | logt => cases hwin
    | code | syn | lambda | loc | mag | eras =>
      simp only [winBase, winSize] at hi haddr
      omega

section idle

variable (hb : s.isBusy = false) (hr : s.inReset = false) {a : Addr}
include hb hr

theorem hostAccess_narrow (d : Dir) : s.hostAccess (.narrow d a) = s.respond .error := by
  simp [State.hostAccess, State.idleAccess, hb, hr]

theorem hostAccess_unmapped (ha : targetOf a = none) (v : Word) :
    s.hostAccess (.read a) = s.respond .error ∧ s.hostAccess (.write a v) = s.respond .error := by
  simp [State.hostAccess, State.idleAccess, hb, hr, ha]

end idle

/-- Settles O50, by the address: it selects nothing, or what it selects is not written. -/
theorem forbiddenAccessesAreRefused : Obligations.ForbiddenAccessesAreRefused := by
  intro s a v d hb hr refused n
  refine ⟨hostAccess_narrow hb hr d, fun hn => hostAccess_unmapped hb hr (targetOf_eq_none hn) v, fun hn => ?_, ?_,
    hostAccess_read hb hr (targetOf_reg .cmd)⟩
  · rcases hostAccess_cases s (.write a v) with h | ⟨b, w, hx, -, -⟩ | ⟨b, w, y, t, hx, -, -, ha, hw, -⟩
    · exact h
    · cases hx
    · cases hx
      exact absurd hn (writeTarget_address ha hw)
  · exact congrArg State.response (hostAccess_write_accepted hb hr (targetOf_reg .status) (v := v) rfl)

end Sys2Proof.Machine
end

section
/-! PROOFS. 30_encoding.md R111 to R115: a command's word is its fields in order, so the decoder and the encoder invert
each other, and a word outside the map is no command's. -/

namespace Sys2Proof.Machine

variable {c : Word} {i : Instr}

/-! ## The decoder -/

/-- The flag bits [9:8] as a word holds them: NOVFY above CLR (R111). -/
def flagBits (f : CmdFields) : BitVec 2 := BitVec.ofBool f.novfy ++ BitVec.ofBool f.clr

/-- A word is its fields in order (R111). -/
theorem append_cmdFields (c : Word) : (cmdFields c).rsv ++ flagBits (cmdFields c) ++ (cmdFields c).op = c := by
  apply BitVec.eq_of_getLsbD_eq
  intro b hb
  simp only [cmdFields, flagBits, BitVec.getLsbD_append]
  by_cases h8 : b < 8
  · simp [h8]
  obtain rfl | rfl | h10 : b = 8 ∨ b = 9 ∨ 10 ≤ b := by omega
  · simp
  · simp
  · simp [h8, show ¬ b - 8 < 2 by omega, show b - 8 - 2 < 22 by omega, show 10 + (b - 8 - 2) = b by omega]

/-- A word decodes to a command when its opcode is listed and its reserved bits are 0 (R112). -/
theorem decode_eq_ok :
    decode c = .ok i ↔
      commandOf (cmdFields c).op (cmdFields c).clr (cmdFields c).novfy = some i ∧
        (cmdFields c).rsvClear = true ∧ (cmdFields c).flagsClear = true := by
  unfold decode
  dsimp only
  cases commandOf (cmdFields c).op (cmdFields c).clr (cmdFields c).novfy <;> simp [ite_eq_iff, and_comm]

/-- A row of the opcode map gives the opcode, and the word's flag bits to DECODE only (R113). -/
theorem commandOf_eq_some {f : CmdFields} (h : commandOf f.op f.clr f.novfy = some i) :
    opcodeOf i = f.op ∧ flagBitsOf i = if f.op = 0x36 then flagBits f else 0 := by
  unfold commandOf at h
  split at h <;> cases h <;> simp [opcodeOf, flagBitsOf, flagBits, *]

/-- The flag bits of another command than DECODE are reserved and 0 (R111). -/
theorem flagBits_eq_zero {f : CmdFields} (h : f.flagsClear = true) (hop : f.op ≠ 0x36) : flagBits f = 0 := by
  have h : f.op = 0x36 ∨ f.clr = false ∧ f.novfy = false := by simpa [CmdFields.flagsClear] using h
  obtain ⟨hclr, hnovfy⟩ := h.resolve_left hop
  rw [flagBits, hclr, hnovfy]
  rfl

/-- Settles O3: the decoder has checked that the word's fields are those the encoder puts together. -/
theorem decodedWordIsItsEncoding : Obligations.DecodedWordIsItsEncoding := by
  intro c i h
  obtain ⟨hcmd, hrsv, hclear⟩ := decode_eq_ok.mp h
  obtain ⟨hop, hbits⟩ := commandOf_eq_some hcmd
  have hrsv : (cmdFields c).rsv = 0 := by simpa [CmdFields.rsvClear] using hrsv
  have hflags : flagBitsOf i = flagBits (cmdFields c) := by
    by_cases hd : (cmdFields c).op = 0x36
    · rw [hbits, if_pos hd]
    · rw [hbits, if_neg hd, flagBits_eq_zero hclear hd]
  calc c = (cmdFields c).rsv ++ flagBits (cmdFields c) ++ (cmdFields c).op := (append_cmdFields c).symm
    _ = encode i := by rw [encode, hop, hflags, hrsv]

/-- Settles O2, by cases on the command and on DECODE's flags. -/
theorem encodedCommandDecodes : Obligations.EncodedCommandDecodes := by
  intro i
  cases i with
  | decode clr novfy => cases clr <;> cases novfy <;> rfl
  | _ => rfl

/-- Settles O1: each word of the opcode map is its command's. -/
theorem listedWordsDecode : Obligations.ListedWordsDecode := by
  unfold Obligations.ListedWordsDecode
  decide

/-! ## Illegal words -/

/-- The low byte of a command's word is its opcode (R111). -/
theorem toNat_encode_mod (i : Instr) : (encode i).toNat % 256 = (opcodeOf i).toNat := by
  rw [encode, toNat_append_eq_add]
  exact Nat.mul_add_mod_of_lt (opcodeOf i).isLt

/-- The rows of the opcode map (R113). -/
theorem opcodeOf_ranges (i : Instr) :
    (opcodeOf i).toNat ≤ 0x01 ∨ (0x10 ≤ (opcodeOf i).toNat ∧ (opcodeOf i).toNat ≤ 0x11) ∨
      (0x20 ≤ (opcodeOf i).toNat ∧ (opcodeOf i).toNat ≤ 0x29) ∨
      (0x30 ≤ (opcodeOf i).toNat ∧ (opcodeOf i).toNat ≤ 0x36) := by
  cases i <;> simp [opcodeOf]

theorem flagBitsOf_eq_zero (h : (opcodeOf i).toNat ≠ 0x36) : flagBitsOf i = 0#2 := by
  cases i with
  | decode clr novfy => exact absurd rfl h
  | _ => rfl

/-- Above the opcode a command's word has its flag bits only (R111). -/
theorem getLsbD_encode {b : Nat} (hb : 8 ≤ b) : (encode i).getLsbD b = (flagBitsOf i).getLsbD (b - 8) := by
  rw [encode, BitVec.getLsbD_append, if_neg (by omega), BitVec.getLsbD_append]
  split
  · rfl
  · rw [BitVec.getLsbD_of_ge (flagBitsOf i) (b - 8) (by omega)]
    exact BitVec.getLsbD_zero

/-- Settles O4: an illegal word is no command's, for a command's word has a listed opcode and no reserved bit set. -/
theorem illegalWordFaults : Obligations.IllegalWordFaults := by
  intro s c hc ha hbad
  rw [(step_engine (rest := []) (.inl ⟨ha, rfl⟩)).1, engineTurn_busy hc]
  cases hd : decode c with
  | error e => exact runWord_error hd
  | ok i =>
    exfalso
    obtain rfl := decodedWordIsItsEncoding c i hd
    have hop := opcodeOf_ranges i
    rw [toNat_encode_mod] at hbad
    obtain h | h | h | h | ⟨b, hb, h⟩ | ⟨hne, b, hb, h⟩ := hbad
    · omega
    · omega
    · omega
    · omega
    · rw [getLsbD_encode (by omega), BitVec.getLsbD_of_ge _ _ (by omega)] at h
      cases h
    · rw [getLsbD_encode hb, flagBitsOf_eq_zero hne, BitVec.getLsbD_zero] at h
      cases h

end Sys2Proof.Machine
end

section
/-! PROOFS. R113's "writes" column: the arrays and the registers a command may change. -/

namespace Sys2Proof.Machine

variable {s t : State}

/-- Settles O59: a write of an array leaves the cells of the others and MINPOLY alone, and a command makes no other. -/
theorem commandsWriteOnlyTheirArrays : Obligations.CommandsWriteOnlyTheirArrays := by
  intro s t i h
  refine ⟨fun w j hw => ?_, fun j => ?_⟩
  · refine exec_mem (P := fun m => m.rd w j = s.mem.rd w j) (fun v hv m k vs hm => ?_) h rfl
    have hwv : w ≠ v := by rintro rfl; simp [hw] at hv
    exact (m.rd_write_other k j vs hwv).trans hm
  · exact exec_mem (P := fun m => m.rdMinpoly j = s.mem.rdMinpoly j)
      (fun v _ m k vs hm => (m.rdMinpoly_write v k j vs).trans hm) h rfl

/-! ## Registers -/

/-- `s` with STATUS, the arrays and the registers that command `i` may write (R113) taken from `t`. -/
def State.withWritesOf (i : Instr) (s t : State) : State :=
  let u := { s with engine := t.engine, done := t.done, err := t.err, errcode := t.errcode, mem := t.mem }
  match i with
  | .nop => u
  | .srst => t
  | .buildField => { u with fieldOk := t.fieldOk, genOk := false, result := t.result, draws := t.draws }
  | .buildGen => { u with genOk := t.genOk, genNp := t.genNp, genK := t.genK, result := t.result }
  | .gfAdd | .gfMul | .gfDiv | .gfInv | .gfFma | .gfExp | .gfLog | .gfPow | .gfTrace | .gfQsolve =>
    { u with opr := t.opr, result := t.result }
  | .encode | .syndromes | .forney | .apply => { u with result := t.result }
  | .bm => { u with deg := t.deg, result := t.result }
  | .roots | .decode _ _ => { u with deg := t.deg, loccnt := t.loccnt, result := t.result }

/-- `t` differs from `s` in STATUS, the arrays and what command `i` may write only. -/
def State.WritesOnlyOf (i : Instr) (s t : State) : Prop := t = s.withWritesOf i t

/-- A fault writes STATUS (R322), so a completion step writes no more than its effect does. -/
theorem finish_writesOnlyOf {i : Instr} {check : Option ErrCode} {f : State → State}
    (h : s.finish check f = .next t) (hfault : ∀ e, s.WritesOnlyOf i (s.raiseFault e))
    (hf : s.WritesOnlyOf i (f s).complete) : s.WritesOnlyOf i t := by
  rcases (finish_eq_next ..).mp h with ⟨e, -, rfl⟩ | ⟨-, rfl⟩
  · exact hfault e
  · exact hf

theorem execBuildField_writesOnlyOf (h : execBuildField s = .next t) : s.WritesOnlyOf .buildField t := by
  unfold execBuildField at h
  dsimp only at h
  split at h
  · cases h; rfl
  split at h
  · cases h; rfl
  split at h <;> cases h <;> rfl

theorem findRoots_writesOnlyOf (s : State) : s.WritesOnlyOf .roots s.findRoots.complete := by
  unfold State.findRoots
  split <;> rfl

/-- APPLY's corrections write the arrays only. -/
theorem correctCells_eq (s : State) (cs : List (Nat × Sym)) :
    cs.foldl State.correctCell s = { s with mem := (cs.foldl State.correctCell s).mem } := by
  induction cs generalizing s with
  | nil => rfl
  | cons c cs ih => exact ih (s.correctCell c)

theorem applyCorrections_writesOnlyOf (s : State) : s.WritesOnlyOf .apply s.applyCorrections.complete := by
  unfold State.applyCorrections State.WritesOnlyOf
  dsimp only
  rw [correctCells_eq]
  rfl

theorem decodeApply_opr (s : State) (novfy : Bool) (orig w : List Sym) (cs : List (Nat × Sym)) :
    (s.decodeApply novfy orig w cs).opr = s.opr := by
  unfold State.decodeApply
  dsimp only
  split <;> rfl

theorem decodeMagnitudes_opr (s : State) (novfy : Bool) (orig w syn lam : List Sym) (ps : List Nat) :
    (s.decodeMagnitudes novfy orig w syn lam ps).opr = s.opr := by
  unfold State.decodeMagnitudes
  split
  · rfl
  dsimp only
  split
  · rfl
  · exact decodeApply_opr ..

theorem decodeRoots_opr (s : State) (novfy : Bool) (orig w syn c : List Sym) (len : Nat) :
    (s.decodeRoots novfy orig w syn c len).opr = s.opr := by
  unfold State.decodeRoots
  split
  · rfl
  dsimp only
  split
  · rfl
  split
  · rfl
  · exact decodeMagnitudes_opr ..

theorem runDecode_opr (clr novfy : Bool) (s : State) : (State.runDecode clr novfy s).opr = s.opr := by
  unfold State.runDecode State.decodeLocate
  dsimp only
  split
  · rfl
  split
  · rfl
  · exact decodeRoots_opr ..

/-- DECODE has results only, and OPR is none of them. -/
theorem runDecode_writesOnlyOf (clr novfy : Bool) (s : State) :
    s.WritesOnlyOf (.decode clr novfy) (State.runDecode clr novfy s).complete := by
  have hr := runDecode_resultsOnly clr novfy s
  have ho := runDecode_opr clr novfy s
  rw [State.WritesOnlyOf, hr, State.withResults, ho]
  rfl

/-- Both answers of GF.QSOLVE are OPR and RESULT (R165). -/
theorem execGfQsolve_writesOnlyOf (h : execGfQsolve s = .next t) : s.WritesOnlyOf .gfQsolve t := by
  refine finish_writesOnlyOf (s := s) h (fun _ => rfl) ?_
  split <;> rfl

/-- A command writes the registers of its row and no other (R113). -/
theorem exec_writesOnlyOf {i : Instr} (h : exec i s = .next t) : s.WritesOnlyOf i t := by
  cases i with
  | srst => rfl
  | buildField => exact execBuildField_writesOnlyOf h
  | buildGen =>
    rcases (finish_eq_next ..).mp h with ⟨e, -, rfl⟩ | ⟨-, rfl⟩
    · rfl
    · rfl
  | nop => exact finish_writesOnlyOf (s := s) (check := none) (f := fun t => t) h (fun _ => rfl) rfl
  | roots => exact finish_writesOnlyOf h (fun _ => rfl) (findRoots_writesOnlyOf s)
  | apply => exact finish_writesOnlyOf h (fun _ => rfl) (applyCorrections_writesOnlyOf s)
  | decode clr novfy => exact finish_writesOnlyOf h (fun _ => rfl) (runDecode_writesOnlyOf clr novfy s)
  | gfQsolve => exact execGfQsolve_writesOnlyOf h
  | encode | syndromes | bm | forney => exact finish_writesOnlyOf h (fun _ => rfl) rfl
  | gfAdd | gfMul | gfDiv | gfInv | gfFma | gfExp | gfLog | gfPow | gfTrace =>
    simp only [exec, execGfAdd, execGfMul, execGfDiv, execGfInv, execGfFma, execGfExp, execGfLog, execGfPow,
      execGfTrace] at h
    exact finish_writesOnlyOf h (fun _ => rfl) rfl

/-- Settles O60: the next state is `s` but for what the command's row writes, where each clause is read off. -/
theorem commandsWriteOnlyTheirRegisters : Obligations.CommandsWriteOnlyTheirRegisters := by
  intro s t i h hi
  have hw : t = s.withWritesOf i t := exec_writesOnlyOf h
  rw [hw]
  cases i with
  | srst => exact absurd rfl hi
  | _ => simp [State.withWritesOf, isFieldCommand]

end Sys2Proof.Machine
end

section
/-! PROOFS. BUILD_FIELD (40_field.md R141, R142): the cells its tables occupy, its success and its three faults. -/

namespace Sys2Proof.Machine

variable {s t : State}

/-- Lists of Q cells stored from cell 0 of EXPT and LOGT change EXPT[0..N] and LOGT[0..N] only (R141). -/
theorem sameCells_of_tables {es ls : List Sym} (he : es.length = s.n + 1) (hl : ls.length = s.n + 1)
    (ht : t.mem = ((s.store .expt 0 es).store .logt 0 ls).mem) :
    s.SameCells t fun w i => (w = .expt ∨ w = .logt) ∧ i ≤ s.n := by
  have hrd : ∀ w i, t.rd w i = ((s.store .expt 0 es).store .logt 0 ls).rd w i := fun w i => by
    rw [State.rd, ht]; rfl
  refine ⟨fun w i hw => ?_, fun i => by simp [ht]⟩
  rw [hrd]
  by_cases hlogt : w = .logt
  · subst hlogt
    have hi : ¬ i ≤ s.n := fun hi => hw ⟨.inr rfl, hi⟩
    rw [State.store_rd_same, dif_neg (by omega), State.store_rd_other _ (by decide)]
  rw [State.store_rd_other _ hlogt]
  by_cases hexpt : w = .expt
  · subst hexpt
    have hi : ¬ i ≤ s.n := fun hi => hw ⟨.inl rfl, hi⟩
    rw [State.store_rd_same, dif_neg (by omega)]
  · rw [State.store_rd_other _ hexpt]

/-- A configuration of R141 passes BUILD_FIELD's primitivity check. -/
theorem State.FieldConfigOk.primitive (h : s.FieldConfigOk) : primitive s.cfgM.toNat s.cfgPoly = true :=
  (primitive_iff (by have := h.m_range.1; omega) _).mpr ⟨h.first_return, h.returns⟩

/-! ## The branches of the command, in checking order (R141) -/

theorem execBuildField_cfgM (h : s.cfgM.toNat < 2 ∨ 16 < s.cfgM.toNat) :
    execBuildField s = .next (s.invalidateField.raiseFault .cfgM) := if_pos h

theorem execBuildField_cfgPoly (hm : ¬ (s.cfgM.toNat < 2 ∨ 16 < s.cfgM.toNat))
    (hd : polyDegreeOk s.cfgM.toNat s.cfgPoly = false) :
    execBuildField s = .next (s.invalidateField.raiseFault .cfgPoly) :=
  (if_neg hm).trans (if_pos (by simp [hd]))

theorem execBuildField_notPrimitive (hm : ¬ (s.cfgM.toNat < 2 ∨ 16 < s.cfgM.toNat))
    (hd : polyDegreeOk s.cfgM.toNat s.cfgPoly = true) (hp : primitive s.cfgM.toNat s.cfgPoly = false) :
    execBuildField s = .next (s.invalidateField.drawTables.raiseFault .notPrimitive) :=
  ((if_neg hm).trans (if_neg (by simp [hd]))).trans (if_pos (by simp [hp]))

theorem execBuildField_accepted (hm : ¬ (s.cfgM.toNat < 2 ∨ 16 < s.cfgM.toNat))
    (hd : polyDegreeOk s.cfgM.toNat s.cfgPoly = true) (hp : primitive s.cfgM.toNat s.cfgPoly = true) :
    execBuildField s = .next s.invalidateField.installTables.complete :=
  ((if_neg hm).trans (if_neg (by simp [hd]))).trans (if_neg (by simp [hp]))

/-- Settles O9: the tables stored are the field's, whose laws give the rest: a power below N is a nonzero value, and its
logarithm is its index. -/
theorem buildFieldBuildsTheTables : Obligations.BuildFieldBuildsTheTables := by
  intro s h
  have hb : s.invalidateField.installTables.TablesBuilt := installTables_tablesBuilt (s := s.invalidateField)
    ⟨h.m_range, h.degree, h.first_return, h.returns⟩
  have hq := State.FieldConfigOk.two_pow_eq (s := s)
  refine ⟨_, execBuildField_accepted (by have := h.m_range; omega) ((polyDegreeOk_iff _ _).mpr h.degree) h.primitive,
    fun i hi => ?_, fun v hv hn => ?_, hb.exp_marker, hb.log_marker,
    sameCells_of_tables ((length_expTable _ _).trans hq) ((length_logTable _ _).trans hq) rfl, rfl⟩
  · have hi' : State.rd _ .expt i = s.power i := hb.exp i hi
    rw [State.complete_rd, hi']
    exact ⟨rfl, h.power_ne_zero i, h.power_le_n i⟩
  · obtain ⟨hlt, hexp⟩ := hb.log v hv hn
    refine ⟨hlt, hexp, fun i hi hiv => ?_⟩
    rw [State.complete_rd, hb.exp i hi] at hiv
    exact hb.power_inj hi hlt (hiv.trans (hexp.symm.trans (hb.exp _ hlt)))

/-- Settles O10: each clause falls under one check, and the tables drawn anew have Q cells each. -/
theorem buildFieldFaults : Obligations.BuildFieldFaults := by
  intro s
  refine ⟨execBuildField_cfgM, fun h2 h16 hdeg => ?_, fun h2 h16 hbit habove hret => ?_⟩
  · refine execBuildField_cfgPoly (by omega) (Bool.eq_false_iff.mpr fun hd => ?_)
    obtain ⟨hbit, habove⟩ := (polyDegreeOk_iff _ _).mp hd
    rcases hdeg with hclear | ⟨b, hb, hset⟩
    · simp [hbit] at hclear
    · simp [habove b hb] at hset
  · have hq := State.FieldConfigOk.two_pow_eq (s := s)
    refine ⟨_, execBuildField_notPrimitive (by omega) ((polyDegreeOk_iff _ _).mpr ⟨hbit, habove⟩)
      (Bool.eq_false_iff.mpr fun hp => ?_), sameCells_of_tables (by simp [hq]) (by simp [hq]) rfl, rfl⟩
    obtain ⟨hfirst, hreturns⟩ := (primitive_iff (by omega) s.cfgPoly).mp hp
    rcases hret with ⟨i, h0, hi, h1⟩ | hne
    · exact hfirst i h0 hi h1
    · exact hne hreturns

end Sys2Proof.Machine
end

section
/-! PROOFS. The field-arithmetic commands (40_field.md R155 to R163): their checks, said once for all ten, and what each
answers from the cells of the tables. -/

namespace Sys2Proof.Machine

variable {s : State}

/-! ## The checks -/

/-- The operands a field-arithmetic command checks: GF.EXP's index, the values of any other (R155). -/
def checkedOperands (s : State) (i : Instr) : List Word := if i = .gfExp then [s.opa] else valueOperands s i

/-- Their bound: N for an index, Q for a value (R155). -/
def operandBound (s : State) (i : Instr) : Nat := if i = .gfExp then s.n else s.q

/-- A command whose operands may all be 0 has no check for E_ZERO. -/
theorem finish_noZero (s : State) (check : Option ErrCode) (f : State → State) :
    s.finish check f = s.finish (firstFault check (faultIf false .zero)) f := by cases check <;> rfl

/-- Every field-arithmetic command makes R155's checks, then at most the check for E_ZERO, and then answers. -/
theorem exec_fieldCommand (s : State) {i : Instr} (hi : isFieldCommand i = true) :
    ∃ (z : Bool) (f : State → State) (opr result : Word),
      exec i s = s.finish (firstFault (s.operandCheck (checkedOperands s i) (operandBound s i)) (faultIf z .zero)) f ∧
      f s = s.answer opr result ∧ (result = 0 ∨ (i = .gfQsolve ∧ result = minusOne)) := by
  cases i with simp only [exec]
  | nop | srst | buildField | buildGen | encode | syndromes | bm | roots | forney | apply | decode => cases hi
  | gfAdd | gfMul | gfFma | gfExp | gfTrace => exact ⟨false, _, _, 0, finish_noZero _ _ _, rfl, .inl rfl⟩
  | gfDiv | gfInv | gfLog | gfPow => exact ⟨_, _, _, 0, rfl, rfl, .inl rfl⟩
  | gfQsolve =>
    cases hy : gqsolve s.gf (symOf s.opa) with
    | none => exact ⟨false, _, 0, minusOne, finish_noZero _ _ _, by simp only [hy], .inr ⟨trivial, rfl⟩⟩
    | some y => exact ⟨false, _, wordOf y, 0, finish_noZero _ _ _, by simp only [hy], .inl rfl⟩

/-- Settles O11: FIELD_OK and the operands are the first checks of every field-arithmetic command, and after them only
E_ZERO stands between the command and its answer. -/
theorem fieldCommandsCheckTheirOperands : Obligations.FieldCommandsCheckTheirOperands := by
  intro s i hi
  obtain ⟨z, f, opr, result, hexec, hf, hresult⟩ := exec_fieldCommand s hi
  rw [hexec]
  refine ⟨fun hok => ?_, fun hok hx => ?_, fun hok he hn => ?_, fun hok hx hn => ?_⟩
  · rw [operandCheck_noField _ _ hok]; rfl
  · have hne : i ≠ .gfExp := by
      rintro rfl
      obtain ⟨x, hx, -⟩ := hx
      cases hx
    rw [checkedOperands, operandBound, if_neg hne, if_neg hne, operandCheck_range hok hx]; rfl
  · rw [checkedOperands, operandBound, if_pos he, if_pos he, operandCheck_range hok ⟨_, .head _, hn⟩]
    rfl
  · have hc : s.operandCheck (checkedOperands s i) (operandBound s i) = none := by
      rw [operandCheck_eq_none, checkedOperands, operandBound]
      refine ⟨hok, ?_⟩
      split
      · rename_i he
        simpa using hn he
      · exact hx
    rw [hc]
    cases z with
    | true => exact .inl rfl
    | false => exact .inr ⟨opr, result, by rw [firstFault_none, faultIf_false, finish_none, hf]; rfl, hresult⟩

/-! ## The answers -/

/-- Where R155's checks pass and no other is left, the command answers. -/
theorem finish_operands_ok {xs : List Word} {bound : Nat} (hok : s.fieldOk = true) (hx : ∀ x ∈ xs, x.toNat < bound)
    (f : State → State) : s.finish (s.operandCheck xs bound) f = .next (f s).complete := by
  rw [(operandCheck_eq_none xs bound).mpr ⟨hok, hx⟩, finish_none]

/-- Where R155's checks pass, the check for E_ZERO decides. -/
theorem finish_operands_zero {xs : List Word} {bound : Nat} (hok : s.fieldOk = true) (hx : ∀ x ∈ xs, x.toNat < bound)
    (z : Bool) (f : State → State) :
    s.finish (firstFault (s.operandCheck xs bound) (faultIf z .zero)) f =
      .next (if z then s.faulted 0x0C else (f s).complete) := by
  rw [(operandCheck_eq_none xs bound).mpr ⟨hok, hx⟩]
  cases z <;> rfl

/-- Settles O12: each command's answer is its field function's, read off the tables. -/
theorem addMulFmaAnswer : Obligations.AddMulFmaAnswer := by
  intro s hok ha hb a b c prod
  have hab : ∀ x ∈ [s.opa, s.opb], x.toNat < s.q := by simp [ha, hb]
  simp only [exec]
  exact ⟨finish_operands_ok hok hab _, finish_operands_ok hok hab _,
    fun hc => finish_operands_ok hok (by simp [ha, hb, hc]) _⟩

/-- Settles O13: the range check passes, then a zero divisor is E_ZERO and any other divides. -/
theorem divInvAnswer : Obligations.DivInvAnswer := by
  intro s hok ha a b
  have ha' : ∀ x ∈ [s.opa], x.toNat < s.q := by simpa using ha
  have hab : s.opb.toNat < s.q → ∀ x ∈ [s.opa, s.opb], x.toNat < s.q := fun hb => by simp [ha, hb]
  have hq : 0 < s.q := Nat.two_pow_pos _
  simp only [exec]
  refine ⟨fun hb h0 => ?_, fun h0 => ?_, fun h0 => ?_, fun h0 => ?_⟩
  · exact (finish_operands_zero hok (hab hb) _ _).trans (by rw [beq_false_of_ne h0]; rfl)
  · exact (finish_operands_zero hok (hab (by simp [h0, hq])) _ _).trans (by rw [beq_iff_eq.mpr h0]; rfl)
  · exact (finish_operands_zero hok ha' _ _).trans (by rw [beq_false_of_ne h0]; rfl)
  · exact (finish_operands_zero hok ha' _ _).trans (by rw [beq_iff_eq.mpr h0]; rfl)

/-- Settles O14: an index and a nonzero value read their tables, and 0 has no logarithm. -/
theorem expLogAnswer : Obligations.ExpLogAnswer := by
  intro s hok
  have hq : 0 < s.q := Nat.two_pow_pos _
  simp only [exec]
  refine ⟨fun hn => finish_operands_ok hok (by simpa using hn) _, fun h0 ha => ?_, fun h0 => ?_⟩
  · refine (finish_operands_zero hok (by simpa using ha) _ _).trans ?_
    rw [beq_false_of_ne h0]
    change Host.Outcome.next { s with
      opr := BitVec.ofNat 32 (s.rd .logt (s.opa.setWidth 16 : Sym).toNat).toNat, result := 0, engine := .idle,
      done := true } = _
    rw [BitVec.ofNat_toNat]
  · exact (finish_operands_zero hok (by simp [h0, hq]) _ _).trans (by rw [beq_iff_eq.mpr h0]; rfl)

/-- An operand below Q is the same number as a value (R114). -/
theorem toNat_symOf {x : Word} {m : Nat} (hm : m ≤ 16) (hx : x.toNat < 2 ^ m) : (symOf x).toNat = x.toNat := by
  rw [symOf, BitVec.toNat_setWidth]
  exact Nat.mod_eq_of_lt (Nat.lt_of_lt_of_le hx (Nat.pow_le_pow_right (by omega) hm))

theorem symOf_eq_zero_iff {x : Word} {m : Nat} (hm : m ≤ 16) (hx : x.toNat < 2 ^ m) : symOf x = 0 ↔ x = 0 := by
  rw [← BitVec.toNat_inj, ← BitVec.toNat_inj, toNat_symOf hm hx]
  rfl

/-- Settles O15: the exponent's sign decides the power of 0, and the logarithm any other. -/
theorem powAnswers : Obligations.PowAnswers := by
  intro s hok ht ha
  have h := ht.field hok
  have ha' : ∀ x ∈ [s.opa], x.toNat < s.q := by simpa using ha
  have hexec := finish_operands_zero hok ha' (s.opa == 0 && decide (exponentOf s.opb < 0))
    fun t => t.answer (wordOf (gpow t.gf (symOf t.opa) (exponentOf t.opb))) 0
  have h0pow : s.opa = 0 → 0 ≤ s.opb.toInt →
      gpow s.gf (symOf s.opa) (exponentOf s.opb) = if s.opb.toInt = 0 then 1 else 0 := fun h0 he => by
    rw [h0]; exact if_pos ⟨rfl, he⟩
  refine ⟨fun h0 hneg => hexec.trans ?_, fun h0 hzero => hexec.trans ?_, fun h0 hpos => hexec.trans ?_,
    fun h0 => hexec.trans ?_⟩
  · rw [if_pos (by simp [h0, exponentOf, hneg])]
  · rw [if_neg (by simp [hzero, exponentOf]), h0pow h0 (by simp [hzero]), if_pos (by simp [hzero])]
    rfl
  · have hnonneg : ¬ exponentOf s.opb < 0 := hpos.le.not_gt
    rw [decide_eq_false hnonneg, Bool.and_false, if_neg Bool.false_ne_true, h0pow h0 hpos.le, if_neg hpos.ne']
    rfl
  · rw [if_neg (by simpa using fun hz => absurd hz h0)]
    have hz : symOf s.opa ≠ 0 := fun hz => h0 ((symOf_eq_zero_iff h.config.m_range.2 ha).mp hz)
    rw [State.TablesBuilt.gpow_eq hz]
    rfl

end Sys2Proof.Machine
end

section
/-! PROOFS. The absolute trace of a finite field of characteristic 2, and the equation y² + y = c, for any field of 2^m
elements (93_implementation_defined.md K3). -/

namespace Sys2Proof.Machine

variable {K : Type} [Field K] [CharP K 2] {m : Nat}

/-- The absolute trace x + x^2 + x^4 + … + x^(2^(m-1)), as a map of sums. -/
def traceHom (K : Type) [Field K] [CharP K 2] (m : Nat) : K →+ K :=
  ∑ k ∈ Finset.range m, (iterateFrobenius K 2 k : K →+ K)

/-- y² + y, as a map of sums. -/
def quadraticHom (K : Type) [Field K] [CharP K 2] : K →+ K := (frobenius K 2 : K →+ K) + AddMonoidHom.id K

theorem traceHom_apply (x : K) : traceHom K m x = ∑ k ∈ Finset.range m, x ^ 2 ^ k := by
  simp [traceHom, iterateFrobenius_def]

theorem quadraticHom_apply (y : K) : quadraticHom K y = y ^ 2 + y := rfl

/-- The kernel of y² + y is the prime field. -/
theorem quadraticHom_eq_zero_iff {y : K} : quadraticHom K y = 0 ↔ y = 0 ∨ y = 1 := by
  rw [quadraticHom_apply, sq, ← mul_add_one, mul_eq_zero, CharTwo.add_eq_zero]

/-! ## The trace as a polynomial -/

/-- X + X^2 + X^4 + … + X^(2^(m-1)). -/
noncomputable def tracePoly (K : Type) [Field K] (m : Nat) : Polynomial K :=
  ∑ k ∈ Finset.range m, Polynomial.X ^ 2 ^ k

theorem eval_tracePoly (x : K) : (tracePoly K m).eval x = traceHom K m x := by
  simp [tracePoly, traceHom_apply, Polynomial.eval_finsetSum]

variable (K)

omit [CharP K 2] in
/-- The coefficient of X is 1. -/
theorem tracePoly_ne_zero (hm : 1 ≤ m) : tracePoly K m ≠ 0 := by
  have hcoeff : (tracePoly K m).coeff 1 = 1 := by
    have hk : ∀ k, 1 = 2 ^ k ↔ k = 0 := fun k => by rw [eq_comm]; simp
    simp only [tracePoly, Polynomial.finsetSum_coeff, Polynomial.coeff_X_pow, hk, Finset.sum_ite_eq', Finset.mem_range]
    exact if_pos hm
  exact fun h0 => by simp [h0] at hcoeff

omit [CharP K 2] in
theorem natDegree_tracePoly (hm : 1 ≤ m) : (tracePoly K m).natDegree ≤ 2 ^ (m - 1) :=
  Polynomial.natDegree_sum_le_of_forall_le _ _ fun k hk => by
    rw [Polynomial.natDegree_X_pow]
    have := Finset.mem_range.mp hk
    exact Nat.pow_le_pow_right (by omega) (by omega)

variable {K}

/-! ## With 2^m elements -/

section card

variable [Finite K] (hm : 1 ≤ m) (hK : Nat.card K = 2 ^ m)

/-- y² + y takes half of all values: its kernel has two. -/
theorem index_range_quadraticHom : (quadraticHom K).range.index = 2 := by
  have hker : Nat.card (quadraticHom K).ker = 2 := by
    have hset : ((quadraticHom K).ker : Set K) = {0, 1} := Set.ext fun y => quadraticHom_eq_zero_iff
    rw [← SetLike.coe_sort_coe, hset, Nat.card_coe_set_eq, Set.ncard_pair zero_ne_one]
  have h1 := (quadraticHom K).ker.card_mul_index
  have h2 := (quadraticHom K).range.card_mul_index
  rw [AddSubgroup.index_ker, hker] at h1
  have hpos : 0 < Nat.card (quadraticHom K).range := Nat.card_pos
  exact Nat.eq_of_mul_eq_mul_left hpos (by rw [h2, ← h1, Nat.mul_comm])

include hK

omit [CharP K 2] in
theorem pow_two_pow_eq_self (x : K) : x ^ 2 ^ m = x := by
  have := Fintype.ofFinite K
  rw [← hK, Nat.card_eq_fintype_card, FiniteField.pow_card]

/-- Squaring permutes the terms of the trace. -/
theorem traceHom_sq (x : K) : traceHom K m (x ^ 2) = traceHom K m x := by
  have hshift : ∑ k ∈ Finset.range m, x ^ 2 ^ (k + 1) + x = ∑ k ∈ Finset.range m, x ^ 2 ^ k + x := by
    have := (Finset.sum_range_succ' (fun k => x ^ 2 ^ k) m).symm.trans (Finset.sum_range_succ _ m)
    simpa only [pow_zero, pow_one, pow_two_pow_eq_self hK] using this
  simpa only [traceHom_apply, ← pow_mul, ← pow_succ'] using add_right_cancel hshift

/-- The trace is its own square, so it is 0 or 1 (R151). -/
theorem traceHom_eq_zero_or_one (x : K) : traceHom K m x = 0 ∨ traceHom K m x = 1 := by
  have hsq : traceHom K m x ^ 2 = traceHom K m x := by
    calc traceHom K m x ^ 2 = traceHom K m (x ^ 2) := by
          simp only [traceHom_apply, CharTwo.sum_sq, ← pow_mul, Nat.mul_comm]
      _ = traceHom K m x := traceHom_sq hK x
  rw [← quadraticHom_eq_zero_iff, quadraticHom_apply, hsq, CharTwo.add_self_eq_zero]

theorem traceHom_quadraticHom (y : K) : traceHom K m (quadraticHom K y) = 0 := by
  rw [quadraticHom_apply, map_add, traceHom_sq hK, CharTwo.add_self_eq_zero]

include hm

/-- The trace's polynomial has degree 2^(m-1), too low to vanish on all 2^m elements. -/
theorem exists_traceHom_ne_zero : ∃ x : K, traceHom K m x ≠ 0 := by
  have hlt : (tracePoly K m).natDegree < Nat.card K := by
    have := natDegree_tracePoly K hm
    have := Nat.pow_lt_pow_right (a := 2) (by omega) (show m - 1 < m by omega)
    omega
  obtain ⟨x, hx⟩ := Polynomial.exists_eval_ne_zero_of_natDegree_lt_card (tracePoly K m) (tracePoly_ne_zero K hm)
    (by rw [← Nat.cast_card]; exact_mod_cast hlt)
  exact ⟨x, by rwa [eval_tracePoly] at hx⟩

/-- y² + y = c has a solution exactly when the trace of c is 0 (R152, K3). -/
theorem exists_quadraticHom_eq_iff (c : K) : (∃ y, quadraticHom K y = c) ↔ traceHom K m c = 0 := by
  constructor
  · rintro ⟨y, rfl⟩
    exact traceHom_quadraticHom hK y
  · intro hc
    by_contra hno
    obtain ⟨x, hx⟩ := exists_traceHom_ne_zero (K := K) hm hK
    have hxno : x ∉ (quadraticHom K).range := by
      rintro ⟨y, rfl⟩
      exact hx (traceHom_quadraticHom hK y)
    obtain ⟨y, hy⟩ := (AddSubgroup.add_mem_iff_of_index_two index_range_quadraticHom).mpr
      (iff_of_false (show c ∉ (quadraticHom K).range from hno) hxno)
    have hsum := traceHom_quadraticHom hK y
    rw [hy, map_add, hc, zero_add] at hsum
    exact hx hsum

end card

end Sys2Proof.Machine
end

section
/-! PROOFS. With built tables the values below Q are a field of Q elements (40_field.md R140 to R150), so that the
library's theory of finite fields speaks of the commands' field functions. -/

namespace Sys2Proof.Machine

variable {s : State}

/-- The values below Q. -/
abbrev State.Value (s : State) : Type := { v : Sym // v.toNat < s.q }

/-- A value as a number below Q. -/
def State.valueIndex (s : State) (v : s.Value) : Fin s.q := ⟨v.1.toNat, v.2⟩

namespace State.TablesBuilt

/-- The field the tables describe: XOR is its sum, gmul its product, ginv its reciprocal (R143 to R146). -/
@[reducible] def field (h : s.TablesBuilt) : Field s.Value :=
  letI : Add s.Value := ⟨fun a b => ⟨a.1 ^^^ b.1, xor_lt a.2 b.2⟩⟩
  letI : Mul s.Value := ⟨fun a b => ⟨gmul s.gf a.1 b.1, h.gmul_lt a.2 b.2⟩⟩
  letI : Neg s.Value := ⟨id⟩
  letI : Zero s.Value := ⟨⟨0, h.zero_lt⟩⟩
  letI : One s.Value := ⟨⟨1, h.one_lt⟩⟩
  letI : Inv s.Value := ⟨fun a => if a.1 = 0 then 0 else ⟨ginv s.gf a.1, h.ginv_lt⟩⟩
  Field.ofMinimalAxioms s.Value
    (fun _ _ _ => Subtype.ext (BitVec.xor_assoc _ _ _))
    (fun _ => Subtype.ext BitVec.zero_xor)
    (fun _ => Subtype.ext BitVec.xor_self)
    (fun a b c => Subtype.ext (h.gmul_assoc a.2 b.2 c.2))
    (fun _ _ => Subtype.ext (gmul_comm _ _ _))
    (fun a => Subtype.ext (h.one_gmul a.2))
    (fun a ha => by
      have h0 : a.1 ≠ 0 := fun h0 => ha (Subtype.ext h0)
      have hinv : a⁻¹ = ⟨ginv s.gf a.1, h.ginv_lt⟩ := if_neg h0
      rw [hinv]
      exact Subtype.ext ((gmul_comm _ _ _).trans (h.ginv_gmul h0 a.2)))
    (if_pos rfl)
    (fun a b c => Subtype.ext (h.gmul_xor a.2 b.2 c.2))
    ⟨0, 1, fun he => absurd (congrArg Subtype.val he) (show (0 : Sym) ≠ 1 by decide)⟩

variable (h : s.TablesBuilt)

theorem coe_one : letI := h.field; ((1 : s.Value) : Sym) = 1 := rfl

theorem coe_add (a b : s.Value) : letI := h.field; ((a + b : s.Value) : Sym) = a.1 ^^^ b.1 := rfl

theorem coe_mul (a b : s.Value) : letI := h.field; ((a * b : s.Value) : Sym) = gmul s.gf a.1 b.1 := rfl

theorem coe_pow (a : s.Value) (k : Nat) : letI := h.field; ((a ^ k : s.Value) : Sym) = gpow s.gf a.1 (k : Int) := by
  let := h.field
  induction k with
  | zero => rw [pow_zero, Nat.cast_zero, h.gpow_zero, h.coe_one]
  | succ k ih => rw [pow_succ, h.coe_mul, ih, h.gpow_succ a.2]

theorem coe_sum (n : Nat) (f : Nat → s.Value) :
    letI := h.field; ((∑ k ∈ Finset.range n, f k : s.Value) : Sym) = xorSum n fun k => (f k).1 := by
  let := h.field
  induction n with
  | zero => rfl
  | succ n ih => rw [Finset.sum_range_succ, h.coe_add, ih, xorSum_succ]

/-- The field has characteristic 2: every value is its own negative (R143). -/
theorem charP_two : letI := h.field; CharP s.Value 2 := by
  let := h.field
  refine CharTwo.of_one_ne_zero_of_two_eq_zero one_ne_zero ?_
  rw [← one_add_one_eq_two]
  exact Subtype.ext BitVec.xor_self

include h in
/-- The field has Q = 2^M elements (R6). -/
theorem natCard_value : Nat.card s.Value = 2 ^ s.cfgM.toNat := by
  have hbij : Function.Bijective s.valueIndex := by
    refine ⟨fun v w hvw => Subtype.ext (BitVec.eq_of_toNat_eq (Fin.mk.inj hvw)), fun k => ?_⟩
    have hk : (BitVec.ofNat 16 k).toNat = k := by
      rw [BitVec.toNat_ofNat, Nat.mod_eq_of_lt (Nat.lt_of_lt_of_le k.2 h.q_le)]
    exact ⟨⟨BitVec.ofNat 16 k, by rw [hk]; exact k.2⟩, Fin.ext hk⟩
  rw [Nat.card_eq_of_bijective _ hbij, Nat.card_fin]
  rfl

end State.TablesBuilt

end Sys2Proof.Machine
end

section
/-! PROOFS. GF.TRACE and GF.QSOLVE (40_field.md R151, R152, R164, R165): the trace and the solver are those of the field
the tables describe. -/

namespace Sys2Proof.Machine

variable {s : State}

/-! ## The trace -/

theorem foldl_xor_eq (n : Nat) (f : Nat → Sym) (a : Sym) :
    (List.range n).foldl (fun t k => t ^^^ f k) a = a ^^^ xorSum n f := by
  induction n with
  | zero => exact BitVec.xor_zero.symm
  | succ n ih => rw [List.range_succ, List.foldl_append, ih, xorSum_succ, ← BitVec.xor_assoc]; rfl

namespace State.TablesBuilt

variable (h : s.TablesBuilt)

/-- GF.TRACE's sum is the field's absolute trace (R151). -/
theorem gtrace_eq_traceHom (x : s.Value) :
    letI := h.field; haveI := h.charP_two; gtrace s.gf x.1 = (traceHom s.Value s.cfgM.toNat x).1 := by
  let := h.field
  have := h.charP_two
  have hm := h.config.m_range.1
  have hsplit := xorSum_succ' (s.cfgM.toNat - 1) fun k => gpow s.gf x.1 ((2 ^ k : Nat) : Int)
  rw [Nat.sub_add_cancel (by omega), pow_zero, Nat.cast_one, h.gpow_one x.2] at hsplit
  rw [traceHom_apply, h.coe_sum]
  simp only [h.coe_pow]
  rw [hsplit]
  exact foldl_xor_eq _ _ _

/-- The repeated squares are the powers to 2^k (R151). -/
theorem iterate_square (x : s.Value) (k : Nat) :
    letI := h.field; (fun y => gmul s.gf y y)^[k] x.1 = ((x ^ 2 ^ k : s.Value) : Sym) := by
  let := h.field
  induction k with
  | zero => rw [pow_zero, pow_one]; rfl
  | succ k ih => rw [Function.iterate_succ_apply', ih, pow_succ, pow_mul, sq, h.coe_mul]

theorem coe_quadraticHom (y : s.Value) :
    letI := h.field; haveI := h.charP_two; (quadraticHom s.Value y).1 = gmul s.gf y.1 y.1 ^^^ y.1 := by
  let := h.field
  have := h.charP_two
  rw [quadraticHom_apply, sq]
  rfl

include h

theorem gtrace_eq_xorSum {a : Sym} (ha : a.toNat < s.q) :
    gtrace s.gf a = xorSum s.cfgM.toNat fun k => (fun y => gmul s.gf y y)^[k] a := by
  let := h.field
  have := h.charP_two
  rw [h.gtrace_eq_traceHom ⟨a, ha⟩, traceHom_apply, h.coe_sum]
  exact xorSum_congr fun k _ => (h.iterate_square ⟨a, ha⟩ k).symm

theorem gtrace_eq_zero_or_one {a : Sym} (ha : a.toNat < s.q) : gtrace s.gf a = 0 ∨ gtrace s.gf a = 1 := by
  let := h.field
  have := h.charP_two
  rw [h.gtrace_eq_traceHom ⟨a, ha⟩]
  exact (traceHom_eq_zero_or_one h.natCard_value _).imp (congrArg Subtype.val) (congrArg Subtype.val)

theorem gtrace_zero : gtrace s.gf 0 = 0 := by
  let := h.field
  have := h.charP_two
  exact (h.gtrace_eq_traceHom 0).trans (congrArg Subtype.val (map_zero _))

/-- The trace of 1 is a sum of M ones. -/
theorem gtrace_one : gtrace s.gf 1 = BitVec.ofNat 16 (s.cfgM.toNat % 2) := by
  let := h.field
  have := h.charP_two
  have hone : traceHom s.Value s.cfgM.toNat 1 = ((s.cfgM.toNat % 2 : Nat) : s.Value) := by
    rw [← CharTwo.natCast_eq_mod, traceHom_apply]
    simp
  refine (h.gtrace_eq_traceHom 1).trans ?_
  rw [hone]
  rcases Nat.mod_two_eq_zero_or_one s.cfgM.toNat with h2 | h2
  · rw [h2, Nat.cast_zero]; rfl
  · rw [h2, Nat.cast_one]; rfl

/-! ## The quadratic -/

/-- y² ⊕ y = c has a solution exactly when the trace of c is 0 (R152, K3). -/
theorem exists_solution_iff {c : Sym} (hc : c.toNat < s.q) :
    (∃ y : Sym, y.toNat < s.q ∧ gmul s.gf y y ^^^ y = c) ↔ gtrace s.gf c = 0 := by
  let := h.field
  have := h.charP_two
  have hm := h.config.m_range.1
  rw [h.gtrace_eq_traceHom ⟨c, hc⟩]
  refine Iff.trans ?_ ((exists_quadraticHom_eq_iff (by omega) h.natCard_value ⟨c, hc⟩).trans Subtype.ext_iff)
  constructor
  · rintro ⟨y, hy, rfl⟩
    exact ⟨⟨y, hy⟩, Subtype.ext (h.coe_quadraticHom _)⟩
  · rintro ⟨y, hy⟩
    exact ⟨y.1, y.2, (h.coe_quadraticHom y).symm.trans (congrArg Subtype.val hy)⟩

/-- Two values with the same y² ⊕ y differ in bit 0 at most (R152). -/
theorem eq_or_eq_xor_one {y z : Sym} (hy : y.toNat < s.q) (hz : z.toNat < s.q)
    (he : gmul s.gf y y ^^^ y = gmul s.gf z z ^^^ z) : y = z ∨ y = z ^^^ 1 := by
  let := h.field
  have := h.charP_two
  have hq : quadraticHom s.Value (⟨y, hy⟩ - ⟨z, hz⟩) = 0 := by
    rw [map_sub, sub_eq_zero]
    exact Subtype.ext ((h.coe_quadraticHom _).trans (he.trans (h.coe_quadraticHom ⟨z, hz⟩).symm))
  rcases quadraticHom_eq_zero_iff.mp hq with h0 | h1
  · exact .inl (congrArg Subtype.val (sub_eq_zero.mp h0))
  · exact .inr (congrArg Subtype.val (sub_eq_iff_eq_add'.mp h1) :)

/-- With a solution y, y ⊕ 1 is the other one, so one of the two has bit 0 clear (R152). -/
theorem exists_even_solution {c : Sym} (hex : ∃ y : Sym, y.toNat < s.q ∧ gmul s.gf y y ^^^ y = c) :
    ∃ y : Sym, y.toNat < s.q ∧ y.getLsbD 0 = false ∧ gmul s.gf y y ^^^ y = c := by
  obtain ⟨y, hy, hyc⟩ := hex
  cases hbit : y.getLsbD 0 with
  | false => exact ⟨y, hy, hbit, hyc⟩
  | true =>
    refine ⟨y ^^^ 1, xor_lt hy h.one_lt, by simp [hbit], ?_⟩
    let := h.field
    have := h.charP_two
    have hsame : quadraticHom s.Value (⟨y, hy⟩ + 1) = quadraticHom s.Value ⟨y, hy⟩ := by
      rw [map_add, quadraticHom_eq_zero_iff.mpr (.inr rfl), add_zero]
    exact (h.coe_quadraticHom _).symm.trans ((congrArg Subtype.val hsame).trans ((h.coe_quadraticHom _).trans hyc))

/-- The solver answers the solution with bit 0 clear (R152). -/
theorem gqsolve_of_solution {y : Sym} (hy : y.toNat < s.q) (hbit : y.getLsbD 0 = false) :
    gqsolve s.gf (gmul s.gf y y ^^^ y) = some y := by
  have htrace : gtrace s.gf (gmul s.gf y y ^^^ y) ≠ 1 := by
    rw [(h.exists_solution_iff (xor_lt (h.gmul_lt hy hy) hy)).mp ⟨y, hy, rfl⟩]
    decide
  rw [gqsolve, if_neg htrace]
  have hmem : y ∈ (List.range s.gf.q).map (BitVec.ofNat 16) :=
    List.mem_map.mpr ⟨y.toNat, List.mem_range.mpr hy, by simp⟩
  cases hfind : List.find? _ _ with
  | none => exact absurd (by simp only [hbit, beq_self_eq_true]; rfl) (List.find?_eq_none.mp hfind y hmem)
  | some z =>
    obtain ⟨k, hk, rfl⟩ := List.mem_map.mp (List.mem_of_find?_eq_some hfind)
    have hz : (BitVec.ofNat 16 k).toNat < s.q := by
      rw [BitVec.toNat_ofNat]
      exact Nat.lt_of_le_of_lt (Nat.mod_le _ _) (List.mem_range.mp hk)
    have hsol := List.find?_some hfind
    rw [Bool.and_eq_true, Bool.not_eq_true', beq_iff_eq] at hsol
    rcases h.eq_or_eq_xor_one hz hy hsol.2 with he | he
    · rw [he]
    · rw [he, BitVec.getLsbD_xor, hbit] at hsol
      cases hsol.1

/-- The solver answers NONE exactly when the trace is 1 (R152). -/
theorem gqsolve_eq_none_iff {c : Sym} (hc : c.toNat < s.q) : gqsolve s.gf c = none ↔ gtrace s.gf c = 1 := by
  refine ⟨fun hnone => ?_, fun hone => if_pos hone⟩
  refine (h.gtrace_eq_zero_or_one hc).resolve_left fun h0 => ?_
  obtain ⟨y, hy, hbit, rfl⟩ := h.exists_even_solution ((h.exists_solution_iff hc).mpr h0)
  rw [h.gqsolve_of_solution hy hbit] at hnone
  cases hnone

end State.TablesBuilt

/-! ## The commands -/

theorem symOf_lt {x : Word} (hx : x.toNat < s.q) : (symOf x).toNat < s.q := by
  rw [symOf, BitVec.toNat_setWidth]
  exact Nat.lt_of_le_of_lt (Nat.mod_le _ _) hx

/-- OPR holds a value whole (R49). -/
theorem toNat_wordOf (v : Sym) : (wordOf v).toNat = v.toNat := by
  rw [wordOf, BitVec.toNat_setWidth]
  exact Nat.mod_eq_of_lt (by have := v.isLt; omega)

theorem wordOf_injective : Function.Injective wordOf := fun v w hvw =>
  BitVec.eq_of_toNat_eq (by rw [← toNat_wordOf, hvw, toNat_wordOf])

/-- GF.TRACE on an operand in range (R164). -/
theorem execGfTrace_ok (hok : s.fieldOk = true) (ha : s.opa.toNat < s.q) :
    execGfTrace s = .next (s.answer (wordOf (gtrace s.gf (symOf s.opa))) 0).complete :=
  finish_operands_ok hok (by simpa using ha) _

/-- GF.QSOLVE on an operand in range (R165). -/
theorem execGfQsolve_ok (hok : s.fieldOk = true) (ha : s.opa.toNat < s.q) :
    execGfQsolve s = .next (((gqsolve s.gf (symOf s.opa)).elim (s.answer 0 minusOne) fun y =>
      s.answer (wordOf y) 0).complete) := by
  refine (finish_operands_ok hok (by simpa using ha) _).trans ?_
  cases gqsolve s.gf (symOf s.opa) <;> rfl

/-- Settles O16: the sum is the field's trace, its own square. -/
theorem traceAnswersABit : Obligations.TraceAnswersABit := by
  intro s hok ht ha
  have h := ht.field hok
  have hlt := symOf_lt ha
  refine ⟨gtrace s.gf (symOf s.opa), execGfTrace_ok hok ha, h.gtrace_eq_xorSum hlt, h.gtrace_eq_zero_or_one hlt,
    fun h0 => ?_, fun h1 => ?_⟩
  · rw [h0]; exact h.gtrace_zero
  · rw [h1]; exact h.gtrace_one

/-- Settles O17: the solution with bit 0 clear is the only one there is, and NONE comes with trace 1 only. -/
theorem qsolveAnswersTheSolution : Obligations.QsolveAnswersTheSolution := by
  intro s hok ht ha
  have h := ht.field hok
  have hlt := symOf_lt ha
  refine ⟨fun y hy hbit hyc => (execGfQsolve_ok hok ha).trans ?_, fun hno => (execGfQsolve_ok hok ha).trans ?_⟩
  · have hsolve := h.gqsolve_of_solution hy hbit
    rw [hyc] at hsolve
    rw [symOf, hsolve]
    rfl
  · have hne : gtrace s.gf (symOf s.opa) ≠ 0 := fun h0 => by
      obtain ⟨y, hy, hyc⟩ := (h.exists_solution_iff hlt).mpr h0
      exact hno y hy hyc
    rw [(h.gqsolve_eq_none_iff hlt).mpr ((h.gtrace_eq_zero_or_one hlt).resolve_left hne)]
    rfl

/-- Settles O18: a solution exists exactly when the trace is 0, and the solver finds it. -/
theorem qsolveFailsExactlyOnTraceOne : Obligations.QsolveFailsExactlyOnTraceOne := by
  intro s t u hok ht ha hexect hexecu
  have h := ht.field hok
  have hlt := symOf_lt ha
  cases (execGfTrace_ok hok ha).symm.trans hexect
  cases (execGfQsolve_ok hok ha).symm.trans hexecu
  refine ⟨(h.exists_solution_iff hlt).trans (wordOf_injective.eq_iff (b := 0)).symm, ?_⟩
  refine Iff.trans ?_ ((h.gqsolve_eq_none_iff hlt).trans (wordOf_injective.eq_iff (b := 1)).symm)
  cases gqsolve s.gf (symOf s.opa) with
  | none => exact iff_of_true rfl rfl
  | some y => exact iff_of_false (show (0 : Word) ≠ 0xFFFFFFFF by decide) (Option.some_ne_none y)

end Sys2Proof.Machine
end

section
/-! PROOFS. GF.MUL as a product of polynomials over GF(2) modulo POLY (40_field.md R144, 93_implementation_defined.md K1):
next is a product by x, so a power of the primitive element is a power of x. -/

namespace Sys2Proof.Machine

open Polynomial

variable {s : State}

/-! ## Numbers as polynomials -/

/-- The polynomial over GF(2) whose coefficients are the low 32 bits of a number. -/
noncomputable def polyOf (v : Nat) : (ZMod 2)[X] := ∑ i ∈ Finset.range 32, if v.testBit i then X ^ i else 0

theorem coeff_polyOf (v i : Nat) : (polyOf v).coeff i = if i < 32 ∧ v.testBit i then 1 else 0 := by
  have hterm : ∀ k, ((if v.testBit k then X ^ k else 0 : (ZMod 2)[X])).coeff i =
      if i = k then (if v.testBit k then 1 else 0) else 0 := fun k => by
    split <;> simp [coeff_X_pow]
  simp only [polyOf, finsetSum_coeff, hterm, Finset.sum_ite_eq, Finset.mem_range, ite_and]

/-- XOR is the sum (R143). -/
theorem polyOf_xor (v w : Nat) : polyOf (v ^^^ w) = polyOf v + polyOf w := by
  ext i
  rw [coeff_add, coeff_polyOf, coeff_polyOf, coeff_polyOf, Nat.testBit_xor]
  cases v.testBit i <;> cases w.testBit i <;> by_cases hi : i < 32 <;> simp [hi, CharTwo.add_self_eq_zero]

/-- A shift is a product by x. -/
theorem polyOf_double {v : Nat} (hv : v < 2 ^ 31) : polyOf (2 * v) = X * polyOf v := by
  ext i
  cases i with
  | zero => simp [coeff_polyOf]
  | succ i =>
    rw [coeff_X_mul, coeff_polyOf, coeff_polyOf, Nat.testBit_succ, Nat.mul_div_cancel_left v (by omega)]
    by_cases hi : i = 31
    · subst hi
      simp [Nat.testBit_lt_two_pow hv]
    · have : i + 1 < 32 ↔ i < 32 := by omega
      simp only [this]

theorem polyOf_one : polyOf 1 = 1 := by
  ext i
  rw [coeff_polyOf, coeff_one]
  cases i <;> simp [Nat.testBit_succ]

/-- A number below 2^m has degree below m. -/
theorem degree_polyOf_lt {v m : Nat} (hv : v < 2 ^ m) : (polyOf v).degree < m := by
  rw [degree_lt_iff_coeff_zero]
  intro i hi
  rw [coeff_polyOf, Nat.testBit_lt_two_pow (Nat.lt_of_lt_of_le hv (Nat.pow_le_pow_right (by omega) hi))]
  simp

/-- A number whose highest bit is bit m is monic of degree m. -/
theorem monic_polyOf {v m : Nat} (hm : m < 32) (hbit : v.testBit m = true) (hv : v < 2 ^ (m + 1)) :
    (polyOf v).Monic ∧ (polyOf v).degree = m := by
  have hcoeff : (polyOf v).coeff m = 1 := by rw [coeff_polyOf, if_pos ⟨hm, hbit⟩]
  have hle : (polyOf v).natDegree ≤ m := natDegree_le_iff_coeff_eq_zero.mpr fun i hi =>
    coeff_eq_zero_of_degree_lt (lt_of_lt_of_le (degree_polyOf_lt hv) (by exact_mod_cast hi))
  exact ⟨monic_of_natDegree_le_of_coeff_eq_one m hle hcoeff,
    degree_eq_of_le_of_coeff_ne_zero (natDegree_le_iff_degree_le.mp hle) (by rw [hcoeff]; exact one_ne_zero)⟩

/-! ## next is a product by x modulo POLY -/

/-- The double of a 16-bit value, in 17 bits. -/
theorem toNat_double (a : Sym) : (a.setWidth 17 <<< 1 : Mask).toNat = 2 * a.toNat := by
  have := a.isLt
  rw [BitVec.toNat_shiftLeft, BitVec.toNat_setWidth, Nat.mod_eq_of_lt (by omega), Nat.shiftLeft_eq]
  omega

namespace State.FieldConfigOk

variable (h : s.FieldConfigOk)
include h

theorem poly_lt : s.cfgPoly.toNat < 2 ^ (s.cfgM.toNat + 1) :=
  (lt_two_pow_iff _ _).mpr fun b hb => h.degree.2 b hb

theorem monic_poly : (polyOf s.cfgPoly.toNat).Monic ∧ (polyOf s.cfgPoly.toNat).degree = s.cfgM.toNat :=
  monic_polyOf (by have := h.m_range.2; omega) h.degree.1 h.poly_lt

/-- The double of a value is below 2Q, and below Q when bit M-1 is clear. -/
theorem double_lt {a : Sym} (ha : a.toNat < 2 ^ s.cfgM.toNat) (hbit : a.getLsbD (s.cfgM.toNat - 1) = false) :
    2 * a.toNat < 2 ^ s.cfgM.toNat := by
  have hm := h.m_range.1
  have hlow : a.toNat < 2 ^ (s.cfgM.toNat - 1) := (lt_two_pow_iff _ _).mpr fun i hi => by
    by_cases hi' : i = s.cfgM.toNat - 1
    · rw [hi', hbit]
    · exact (lt_two_pow_iff _ _).mp ha i (by omega)
  have := Nat.pow_succ (n := 2) (m := s.cfgM.toNat - 1)
  rw [Nat.succ_eq_add_one, Nat.sub_add_cancel (by omega)] at this
  omega

/-- When bit M-1 is set, the double and POLY both have bit M as their highest, which cancels. -/
theorem double_xor_poly_lt {a : Sym} (ha : a.toNat < 2 ^ s.cfgM.toNat)
    (hbit : a.getLsbD (s.cfgM.toNat - 1) = true) : (2 * a.toNat) ^^^ s.cfgPoly.toNat < 2 ^ s.cfgM.toNat := by
  have hm := h.m_range.1
  refine Nat.lt_pow_two_of_testBit _ fun i hi => ?_
  rw [Nat.testBit_xor]
  rcases Nat.eq_or_lt_of_le hi with rfl | hi
  · obtain ⟨d, hd⟩ : ∃ d, s.cfgM.toNat = d + 1 := ⟨s.cfgM.toNat - 1, by omega⟩
    have hpoly : s.cfgPoly.toNat.testBit s.cfgM.toNat = true := h.degree.1
    have hdouble : (2 * a.toNat).testBit s.cfgM.toNat = true := by
      rw [hd, Nat.testBit_succ, Nat.mul_div_cancel_left _ (by omega)]
      rw [hd] at hbit
      exact hbit
    rw [hpoly, hdouble]
    rfl
  · have hlt : 2 * a.toNat < 2 ^ i :=
      Nat.lt_of_lt_of_le (by rw [Nat.pow_succ]; omega) (Nat.pow_le_pow_right (n := 2) (by omega) hi)
    have hpoly : s.cfgPoly.toNat.testBit i = false := h.degree.2 i hi
    rw [hpoly, Nat.testBit_lt_two_pow hlt]
    rfl

/-- next(a) as a number: the double of a, reduced by POLY when bit M-1 was set (R140). -/
theorem toNat_nextPower {a : Sym} (ha : a.toNat < 2 ^ s.cfgM.toNat) :
    (nextPower s.cfgM.toNat s.cfgPoly a).toNat =
      if a.getLsbD (s.cfgM.toNat - 1) then (2 * a.toNat) ^^^ s.cfgPoly.toNat else 2 * a.toNat := by
  have hfit : 2 ^ s.cfgM.toNat ≤ 2 ^ 16 := Nat.pow_le_pow_right (by omega) h.m_range.2
  unfold nextPower
  dsimp only
  rw [BitVec.toNat_setWidth]
  cases hbit : a.getLsbD (s.cfgM.toNat - 1) with
  | false =>
    have := h.double_lt ha hbit
    rw [if_neg Bool.false_ne_true, if_neg Bool.false_ne_true, toNat_double, Nat.mod_eq_of_lt (by omega)]
  | true =>
    have := h.double_xor_poly_lt ha hbit
    rw [if_pos rfl, if_pos rfl, BitVec.toNat_xor, toNat_double, Nat.mod_eq_of_lt (by omega)]

/-- Modulo POLY, next is a product by x (R140). -/
theorem polyOf_nextPower {a : Sym} (ha : a.toNat < 2 ^ s.cfgM.toNat) :
    AdjoinRoot.mk (polyOf s.cfgPoly.toNat) (polyOf (nextPower s.cfgM.toNat s.cfgPoly a).toNat) =
      AdjoinRoot.mk (polyOf s.cfgPoly.toNat) (X * polyOf a.toNat) := by
  have ha31 : a.toNat < 2 ^ 31 := by have := a.isLt; omega
  rw [h.toNat_nextPower ha, ← polyOf_double ha31]
  split
  · rw [polyOf_xor, map_add, AdjoinRoot.mk_self, add_zero]
  · rfl

end State.FieldConfigOk

namespace State.TablesBuilt

variable (h : s.TablesBuilt)
include h

theorem polyOf_iterate {a : Sym} (ha : a.toNat < s.q) (i : Nat) :
    AdjoinRoot.mk (polyOf s.cfgPoly.toNat) (polyOf ((nextPower s.cfgM.toNat s.cfgPoly)^[i] a).toNat) =
      AdjoinRoot.mk (polyOf s.cfgPoly.toNat) (X ^ i * polyOf a.toNat) := by
  induction i with
  | zero => rw [pow_zero, one_mul]; rfl
  | succ i ih =>
    rw [Function.iterate_succ_apply', h.config.polyOf_nextPower (h.iterate_lt i ha), map_mul, ih, ← map_mul, ← mul_assoc,
      ← pow_succ']

/-- A product of values is the product of their polynomials modulo POLY (R144). -/
theorem polyOf_gmul {a b : Sym} (ha : a.toNat < s.q) (hb : b.toNat < s.q) :
    AdjoinRoot.mk (polyOf s.cfgPoly.toNat) (polyOf (gmul s.gf a b).toNat) =
      AdjoinRoot.mk (polyOf s.cfgPoly.toNat) (polyOf a.toNat * polyOf b.toNat) := by
  by_cases h0 : a = 0
  · have hz : polyOf (0 : Sym).toNat = 0 := by simp [polyOf]
    rw [h0, zero_gmul, hz, zero_mul]
  · obtain ⟨i, -, rfl⟩ := h.exists_power h0 ha
    have hpow := h.polyOf_iterate h.one_lt i
    rw [show (1 : Sym).toNat = 1 from rfl, polyOf_one, mul_one] at hpow
    rw [h.gmul_power i hb, h.polyOf_iterate hb, map_mul, map_mul, ← hpow]
    rfl

end State.TablesBuilt

/-- Settles O19: the answer has degree below M and is congruent to the product, so it is the remainder. -/
theorem mulIsThePolynomialProduct : Obligations.MulIsThePolynomialProduct := by
  intro s hok ht ha hb poly
  have h := ht.field hok
  have hm := h.config.m_range.2
  have hlt := h.gmul_lt (symOf_lt ha) (symOf_lt hb)
  obtain ⟨hmonic, hdegree⟩ := h.config.monic_poly
  simp only [exec]
  refine ⟨_, finish_operands_ok hok (by simp [ha, hb]) _, ?_⟩
  rw [State.complete_opr, State.answer_opr, toNat_wordOf]
  refine ⟨hlt, ?_⟩
  have hself := (modByMonic_eq_self_iff hmonic).mpr ((degree_polyOf_lt hlt).trans_eq hdegree.symm)
  have hmk := h.polyOf_gmul (symOf_lt ha) (symOf_lt hb)
  rw [toNat_symOf hm ha, toNat_symOf hm hb] at hmk
  exact hself.symm.trans (modByMonic_eq_of_dvd_sub hmonic (AdjoinRoot.mk_eq_mk.mp hmk))

end Sys2Proof.Machine
end

section
/-! PROOFS. BUILD_GEN (41_generator.md R190, R195) by its checks: what each fault leaves, and what a success stores. -/

namespace Sys2Proof.Machine

variable {s : State}

/-! ## The checks in order -/

theorem generatorCheck_noField (hf : s.fieldOk = false) : s.generatorCheck = some .noField :=
  if_pos (by simp [hf])

theorem generatorCheck_cfgNr (hf : s.fieldOk = true) (hnr : s.nr < 1 ∨ min 256 (s.n - 1) < s.nr) :
    s.generatorCheck = some .cfgNr :=
  (if_neg (by simp [hf])).trans (if_pos hnr)

theorem generatorCheck_cfgFcr (hf : s.fieldOk = true) (hnr : 1 ≤ s.nr ∧ s.nr ≤ min 256 (s.n - 1))
    (hfcr : s.n - 1 < s.fcr) : s.generatorCheck = some .cfgFcr :=
  ((if_neg (by simp [hf])).trans (if_neg (by simp only [Config.nrMax]; omega))).trans (if_pos hfcr)

/-- What is left to check for NR and FCR in range (R190, R193, R195). -/
theorem generatorCheck_of_range (hf : s.fieldOk = true) (hnr : 1 ≤ s.nr ∧ s.nr ≤ min 256 (s.n - 1))
    (hfcr : s.fcr ≤ s.n - 1) :
    s.generatorCheck = if s.cfgBch && !s.minpolyOk then some .cfgMinpoly
      else if !vanishesAtRoots s.gf s.generator s.nr s.fcr then some .genVerify else none :=
  ((if_neg (by simp [hf])).trans (if_neg (by simp only [Config.nrMax]; omega))).trans (if_neg (by omega))

/-- The verification of R195, root by root. -/
theorem vanishesAtRoots_iff (g : List Sym) :
    vanishesAtRoots s.gf g s.nr s.fcr = true ↔ ∀ i, i < s.nr → peval s.gf g (s.targetRoot i) = 0 := by
  simp [vanishesAtRoots, State.targetRoot]

theorem generator_rs (h : s.cfgBch = false) : s.generator = rsGenerator s.gf s.nr s.fcr := if_neg (by simp [h])

theorem generator_bch (h : s.cfgBch = true) : s.generator = bchGenerator s.minpolys := if_pos h

/-! ## The two ends of the command -/

/-- A fault leaves GEN_OK = 0 and, but for STATUS, nothing else changed (R190, R322). -/
theorem execBuildGen_fault {e : ErrCode} (h : s.generatorCheck = some e) :
    exec .buildGen s = .next { s.faulted e.code with genOk := false } :=
  (finish_eq_next ..).mpr (.inl ⟨e, h, rfl⟩)

/-- A list of `d + 1` cells stored from GEN[0] changes GEN[0..d] only. -/
theorem sameCells_store_gen {g : List Sym} {d : Nat} (hg : g.length = d + 1) :
    s.SameCells (s.store .gen 0 g) fun w j => w = .gen ∧ j ≤ d := by
  refine ⟨fun w j hw => ?_, fun j => Memory.rdMinpoly_write _ _ _ _ _⟩
  by_cases hgen : w = .gen
  · subst hgen
    have hj : ¬ j ≤ d := fun hj => hw ⟨rfl, hj⟩
    rw [State.store_rd_same, dif_neg (by omega)]
  · exact State.store_rd_other _ hgen

/-- A success stores the generator and its parameters, and changes nothing else (R190, R197). -/
theorem execBuildGen_success {d : Nat} (hc : s.generatorCheck = none) (hg : MonicList s.generator d) :
    ∃ t, exec .buildGen s = .next t ∧ (∀ j, j ≤ d → t.rd .gen j = s.generator.getD j 0) ∧
      s.SameCells t (fun w j => w = .gen ∧ j ≤ d) ∧
      t = { s with genNp := BitVec.ofNat 16 d, genK := BitVec.ofNat 16 (s.n - d), genOk := true, result := 0,
                   engine := .idle, done := true, mem := t.mem } := by
  have hlen := hg.1
  have hd : s.generator.length - 1 = d := by omega
  refine ⟨s.invalidateGen.installGenerator.complete, (finish_eq_next ..).mpr (.inr ⟨hc, rfl⟩), fun j hj => ?_,
    sameCells_store_gen hlen, ?_⟩
  · have hlist : s.installGenerator.rdList .gen s.generator.length = s.generator := installGenerator_rdList s
    have hj : j < s.generator.length := by omega
    exact (Memory.getD_rdList s.installGenerator.mem .gen hj).symm.trans (congrArg (List.getD · j 0) hlist)
  · rw [← hd]
    rfl

end Sys2Proof.Machine
end

section
/-! PROOFS. BUILD_GEN in RS mode (41_generator.md R191, R192, R196): the generator as a function of x is the product of
its linear factors, so it vanishes at every target root. -/

namespace Sys2Proof.Machine

variable {s : State}

/-! ## One factor -/

theorem length_timesRoot (F : GF) (r : Sym) (g : List Sym) : (timesRoot F r g).length = g.length + 1 := by
  simp [timesRoot]

/-- Cell j of x·G ⊕ r·G (R191). -/
theorem getD_timesRoot (F : GF) (r : Sym) (g : List Sym) (j : Nat) :
    (timesRoot F r g).getD j 0 = (0 :: g).getD j 0 ^^^ gmul F r (g.getD j 0) := by
  have hscale : (g.map (gmul F r) ++ [0]).getD j 0 = gmul F r (g.getD j 0) := by
    by_cases hj : j < g.length
    · rw [List.getD_append _ _ _ _ (by simpa using hj)]
      simp [hj]
    · rw [List.getD_append_right _ _ _ _ (by simpa using hj), List.getD_eq_default g _ (by omega), gmul_zero]
      cases j - (g.map (gmul F r)).length <;> rfl
  rw [← hscale]
  by_cases hj : j < g.length + 1
  · simp [timesRoot, hj]
  · rw [List.getD_eq_default _ _ (by rw [length_timesRoot]; omega), List.getD_eq_default _ _ (by simpa using hj),
      List.getD_eq_default _ _ (by simpa using hj)]
    rfl

/-- Every coefficient is a value below Q. -/
def State.ValueList (s : State) (g : List Sym) : Prop := ∀ j, (g.getD j 0).toNat < s.q

namespace State.TablesBuilt

variable (h : s.TablesBuilt)
include h

theorem valueList_one : s.ValueList [1] := fun j => by
  cases j
  · exact h.one_lt
  · exact h.zero_lt

theorem valueList_zero_cons {g : List Sym} (hg : s.ValueList g) : s.ValueList (0 :: g) := fun j => by
  cases j with
  | zero => exact h.zero_lt
  | succ j => exact hg j

theorem valueList_timesRoot {r : Sym} (hr : r.toNat < s.q) {g : List Sym} (hg : s.ValueList g) :
    s.ValueList (timesRoot s.gf r g) := fun j => by
  rw [getD_timesRoot]
  exact xor_lt (h.valueList_zero_cons hg j) (h.gmul_lt hr (hg j))

/-- The product by x - r, as a function of x (R191). -/
theorem peval_timesRoot {r x : Sym} (hr : r.toNat < s.q) (hx : x.toNat < s.q) {g : List Sym} (hg : s.ValueList g) :
    peval s.gf (timesRoot s.gf r g) x = gmul s.gf (peval s.gf g x) (x ^^^ r) := by
  have hterm : ∀ j, (gmul s.gf (g.getD j 0) (gpow s.gf x (j : Int))).toNat < s.q := fun j =>
    h.gmul_lt (hg j) (h.gpow_lt _)
  have hshift : evalAt s.gf (g.length + 1) (fun j => (0 :: g).getD j 0) x = gmul s.gf (peval s.gf g x) x := by
    rw [evalAt, xorSum_succ', List.getD_cons_zero, zero_gmul, peval_eq_evalAt, evalAt,
      h.xorSum_gmul (fun j _ => hterm j) hx]
    refine BitVec.zero_xor.trans (xorSum_congr fun j _ => ?_)
    rw [List.getD_cons_succ, h.gmul_assoc (hg j) (h.gpow_lt _) hx, ← h.gpow_succ hx]
  have hscale : evalAt s.gf (g.length + 1) (fun j => gmul s.gf r (g.getD j 0)) x = gmul s.gf (peval s.gf g x) r := by
    rw [evalAt_succ, List.getD_eq_default _ _ (Nat.le_refl _), gmul_zero, zero_gmul, peval_eq_evalAt, evalAt, evalAt,
      h.xorSum_gmul (fun j _ => hterm j) hr]
    refine BitVec.xor_zero.trans (xorSum_congr fun j _ => ?_)
    rw [h.gmul_assoc hr (hg j) (h.gpow_lt _), gmul_comm]
  have hlt : (peval s.gf g x).toNat < s.q := by
    rw [peval_eq_evalAt]
    exact h.evalAt_lt (fun j _ => hg j) x
  rw [h.gmul_xor hlt hx hr, ← hshift, ← hscale, evalAt, evalAt, ← xorSum_xor, peval_eq_evalAt, length_timesRoot,
    evalAt]
  refine xorSum_congr fun j _ => ?_
  rw [getD_timesRoot, h.xor_gmul (h.valueList_zero_cons hg j) (h.gmul_lt hr (hg j)) (h.gpow_lt _)]

end State.TablesBuilt

/-! ## The product -/

/-- The product of the linear factors x - pe^(FCR+i), i < n, at x (R191). -/
def State.rootProduct (s : State) (x : Sym) (n : Nat) : Sym :=
  (List.range n).foldl (fun p i => gmul s.gf p (x ^^^ s.targetRoot i)) 1

theorem rootProduct_succ (x : Sym) (n : Nat) :
    s.rootProduct x (n + 1) = gmul s.gf (s.rootProduct x n) (x ^^^ s.targetRoot n) := by
  simp [State.rootProduct, List.range_succ, List.foldl_append]

theorem rsGenerator_succ (n : Nat) :
    rsGenerator s.gf (n + 1) s.fcr = timesRoot s.gf (s.targetRoot n) (rsGenerator s.gf n s.fcr) := by
  simp [rsGenerator, State.targetRoot, List.range_succ, List.foldl_append]

namespace State.TablesBuilt

variable (h : s.TablesBuilt)
include h

theorem targetRoot_lt (i : Nat) : (s.targetRoot i).toNat < s.q := h.pe_lt _

theorem rootProduct_lt {x : Sym} (hx : x.toNat < s.q) (n : Nat) : (s.rootProduct x n).toNat < s.q := by
  induction n with
  | zero => exact h.one_lt
  | succ n ih =>
    rw [rootProduct_succ]
    exact h.gmul_lt ih (xor_lt hx (h.targetRoot_lt n))

/-- The product vanishes at the target roots and nowhere else (R192). -/
theorem rootProduct_eq_zero {x : Sym} (hx : x.toNat < s.q) (n : Nat) :
    s.rootProduct x n = 0 ↔ ∃ i, i < n ∧ x = s.targetRoot i := by
  induction n with
  | zero => simp [State.rootProduct]
  | succ n ih =>
    rw [rootProduct_succ, h.gmul_eq_zero (h.rootProduct_lt hx n) (xor_lt hx (h.targetRoot_lt n)), ih]
    have hfactor : x ^^^ s.targetRoot n = 0 ↔ x = s.targetRoot n := BitVec.xor_eq_zero_iff
    simp only [hfactor, Nat.lt_succ_iff_lt_or_eq, or_and_right, exists_or, exists_eq_left]

theorem valueList_rsGenerator (n : Nat) : s.ValueList (rsGenerator s.gf n s.fcr) := by
  induction n with
  | zero => exact h.valueList_one
  | succ n ih =>
    rw [rsGenerator_succ]
    exact h.valueList_timesRoot (h.targetRoot_lt n) ih

theorem peval_one (x : Sym) : peval s.gf [1] x = 1 := by
  change 0 ^^^ gmul s.gf 1 (gpow s.gf x 0) = 1
  rw [h.gpow_zero, h.gmul_one h.one_lt]
  rfl

theorem peval_rsGenerator {x : Sym} (hx : x.toNat < s.q) (n : Nat) :
    peval s.gf (rsGenerator s.gf n s.fcr) x = s.rootProduct x n := by
  induction n with
  | zero => exact h.peval_one x
  | succ n ih =>
    rw [rsGenerator_succ, h.peval_timesRoot (h.targetRoot_lt n) hx (h.valueList_rsGenerator n), ih, rootProduct_succ]

/-- In RS mode the verification never fails (R196). -/
theorem vanishesAtRoots_rsGenerator : vanishesAtRoots s.gf (rsGenerator s.gf s.nr s.fcr) s.nr s.fcr = true :=
  (vanishesAtRoots_iff _).mpr fun i hi =>
    (h.peval_rsGenerator (h.targetRoot_lt i) s.nr).trans
      ((h.rootProduct_eq_zero (h.targetRoot_lt i) s.nr).mpr ⟨i, hi, rfl⟩)

/-- G[0] is the product of the roots, which are nonzero (R192). -/
theorem rsGenerator_constant_ne_zero (n : Nat) : (rsGenerator s.gf n s.fcr).getD 0 0 ≠ 0 := by
  induction n with
  | zero => exact (by decide : (1 : Sym) ≠ 0)
  | succ n ih =>
    have hzero : (0 : Sym) ^^^ gmul s.gf (s.targetRoot n) ((rsGenerator s.gf n s.fcr).getD 0 0) = _ := BitVec.zero_xor
    rw [rsGenerator_succ, getD_timesRoot, List.getD_cons_zero, hzero, Ne,
      h.gmul_eq_zero (h.targetRoot_lt n) (h.valueList_rsGenerator n 0)]
    exact not_or.mpr ⟨h.pe_ne_zero _, ih⟩

end State.TablesBuilt

/-- Settles O20: the checks left in RS mode pass, and what is stored is the product of the factors. -/
theorem rsGeneratorIsBuilt : Obligations.RsGeneratorIsBuilt := by
  intro s hok ht hmode h1 h256 hn hfcr
  have h := ht.field hok
  have hgen : s.generator = rsGenerator s.gf s.nr s.fcr := generator_rs hmode
  have hmonic : MonicList s.generator s.nr := hgen ▸ rsGenerator_monic s.gf s.nr s.fcr
  have hcheck : s.generatorCheck = none := by
    rw [generatorCheck_of_range hok (by omega) hfcr, hgen, h.vanishesAtRoots_rsGenerator, hmode]
    rfl
  obtain ⟨t, hexec, hcell, hsame, hstate⟩ := execBuildGen_success hcheck hmonic
  have heval : ∀ x, evalAt s.gf (s.nr + 1) (t.rd .gen) x = peval s.gf s.generator x := fun x => by
    rw [peval_eq_evalAt, hmonic.1]
    exact evalAt_congr (fun j hj => hcell j (by omega)) x
  refine ⟨t, hexec, fun x hx => ?_, ?_, ?_, fun j hj => ?_, hsame, ?_⟩
  · rw [heval, hgen]
    exact h.peval_rsGenerator hx s.nr
  · rw [hcell _ (Nat.le_refl _), hmonic.2]
  · rw [hcell _ (Nat.zero_le _), hgen]
    exact h.rsGenerator_constant_ne_zero s.nr
  · rw [hcell j hj, hgen]
    exact h.valueList_rsGenerator s.nr j
  · rwa [State.nr, BitVec.ofNat_toNat, BitVec.setWidth_eq] at hstate

end Sys2Proof.Machine
end

section
/-! PROOFS. BUILD_GEN in BCH mode (41_generator.md R193, R196, R198): R193's checks on the cells of MINPOLY, the
generator as the product over GF(2), and its roots as those of the minimal polynomials. -/

namespace Sys2Proof.Machine

open Polynomial

variable {s : State}

/-! ## The checks of R193 -/

theorem mask_shift_eq_zero_iff (m : Mask) (k : Nat) : m >>> k = 0 ↔ m.toNat < 2 ^ k := by
  rw [← BitVec.toNat_inj, BitVec.toNat_ushiftRight, Nat.shiftRight_eq_div_pow]
  simp [Nat.div_eq_zero_iff]

/-- The degree of a minimal polynomial as a natural number; 0 for the zero polynomial too. -/
theorem toNat_highestBit (m : Mask) : (highestBit m).toNat = m.toNat.log2 := by
  unfold highestBit
  split
  · next h0 => rw [h0]; rfl
  · exact Int.toNat_natCast _

/-- A factor has degree at least 1 when it is neither 0 nor 1 (R193). -/
theorem one_le_highestBit_iff (m : Mask) : 1 ≤ highestBit m ↔ 2 ≤ m.toNat := by
  have hlog : 1 ≤ m.toNat.log2 ↔ 2 ≤ m.toNat := by
    by_cases h0 : m.toNat = 0
    · simp [h0]
    · exact Nat.le_log2 h0
  rw [← hlog, ← toNat_highestBit]
  omega

theorem degreeSum_minpolys (s : State) :
    degreeSum s.minpolys = ∑ k ∈ Finset.range s.cfgNmp.toNat, (s.mem.rdMinpoly k).toNat.log2 := by
  simp only [degreeSum, State.minpolys, List.map_map, Function.comp_def, toNat_highestBit]
  rfl

/-- R193's checks on the cells of MINPOLY. -/
theorem minpolyOk_iff_cells :
    s.minpolyOk = true ↔
      (1 ≤ s.cfgNmp.toNat ∧ s.cfgNmp.toNat ≤ 256) ∧
      (∀ k, k < s.cfgNmp.toNat →
        2 ≤ (s.mem.rdMinpoly k).toNat ∧ (s.mem.rdMinpoly k).toNat < 2 ^ (s.cfgM.toNat + 1)) ∧
      ∑ k ∈ Finset.range s.cfgNmp.toNat, (s.mem.rdMinpoly k).toNat.log2 ≤ min 256 (s.n - 1) := by
  rw [minpolyOk_iff, degreeSum_minpolys]
  simp only [State.minpolys, List.forall_mem_map, List.mem_range, mask_shift_eq_zero_iff, one_le_highestBit_iff,
    and_comm]

/-! ## Binary coefficients -/

/-- Every coefficient is 0 or 1. -/
def Binary (f : Nat → Sym) : Prop := ∀ j, f j = 0 ∨ f j = 1

/-- The polynomial over GF(2) with the coefficients `f j`, j < n. -/
noncomputable def binaryPoly (n : Nat) (f : Nat → Sym) : (ZMod 2)[X] :=
  ∑ j ∈ Finset.range n, if f j = 1 then X ^ j else 0

/-- The coefficients of a minimal polynomial are its bits (R193). -/
def maskBit (m : Mask) (b : Nat) : Sym := if m.getLsbD b then 1 else 0

/-- A minimal polynomial, of degree at most M ≤ 16. -/
noncomputable def maskPoly (m : Mask) : (ZMod 2)[X] := binaryPoly 17 (maskBit m)

theorem coeff_binaryPoly (n : Nat) (f : Nat → Sym) (k : Nat) :
    (binaryPoly n f).coeff k = if k < n ∧ f k = 1 then 1 else 0 := by
  have hterm : ∀ j, ((if f j = 1 then X ^ j else 0 : (ZMod 2)[X])).coeff k =
      if k = j then (if f j = 1 then 1 else 0) else 0 := fun j => by
    split <;> simp [coeff_X_pow]
  simp only [binaryPoly, finsetSum_coeff, hterm, Finset.sum_ite_eq, Finset.mem_range, ite_and]

theorem binaryPoly_congr {n : Nat} {f g : Nat → Sym} (h : ∀ j, j < n → f j = g j) :
    binaryPoly n f = binaryPoly n g :=
  Finset.sum_congr rfl fun j hj => by rw [h j (Finset.mem_range.mp hj)]

theorem binary_maskBit (m : Mask) : Binary (maskBit m) := fun b => by
  unfold maskBit
  split
  · exact .inr rfl
  · exact .inl rfl

theorem maskBit_eq_one_iff (m : Mask) (b : Nat) : maskBit m b = 1 ↔ m.getLsbD b = true := by
  unfold maskBit
  cases m.getLsbD b <;> decide

theorem coeff_maskPoly (m : Mask) (b : Nat) : (maskPoly m).coeff b = if m.getLsbD b then 1 else 0 := by
  have hb : m.getLsbD b = true → b < 17 := BitVec.lt_of_getLsbD
  simp only [maskPoly, coeff_binaryPoly, maskBit_eq_one_iff, and_iff_right_of_imp hb]

/-! ## One factor -/

/-- A coefficient in GF(2) as a cell holds it. -/
def cellOf (c : ZMod 2) : Sym := if c = 1 then 1 else 0

theorem cellOf_eq_zero_or_one (c : ZMod 2) : cellOf c = 0 ∨ cellOf c = 1 := by revert c; decide

theorem ite_cellOf (c : ZMod 2) : (if cellOf c = 1 then 1 else 0 : ZMod 2) = c := by revert c; decide

theorem cellOf_xor_one (c : ZMod 2) : cellOf c ^^^ 1 = cellOf (c + 1) := by revert c; decide

/-- R193's inner sum counts, modulo 2, the terms that meet the condition. -/
theorem foldl_flip_eq_cellOf (n : Nat) (p : Nat → Prop) [DecidablePred p] :
    (List.range n).foldl (fun t a => if p a then t ^^^ 1 else t) 0 =
      cellOf (∑ a ∈ Finset.range n, if p a then 1 else 0) := by
  induction n with
  | zero => rfl
  | succ n ih =>
    rw [List.range_succ, List.foldl_append, ih, Finset.sum_range_succ]
    by_cases hn : p n
    · rw [if_pos hn, ← cellOf_xor_one]
      exact if_pos hn
    · rw [if_neg hn, add_zero]
      exact if_neg hn

theorem numbered_eq_map_range (g : List Sym) :
    numbered 0 g = (List.range g.length).map fun a => (a, g.getD a 0) := by
  refine List.ext_getElem? fun k => ?_
  rw [getElem?_numbered, List.getElem?_map]
  by_cases hk : k < g.length
  · simp [hk]
  · simp [hk]

/-- The polynomial of a generator list. -/
noncomputable def listPoly (g : List Sym) : (ZMod 2)[X] := binaryPoly g.length fun j => g.getD j 0

theorem coeff_listPoly (g : List Sym) (k : Nat) : (listPoly g).coeff k = if g.getD k 0 = 1 then 1 else 0 := by
  rw [listPoly, coeff_binaryPoly]
  by_cases hk : k < g.length
  · simp only [hk, true_and]
  · rw [List.getD_eq_default _ _ (Nat.le_of_not_lt hk), if_neg (fun hc => hk hc.1), if_neg (by decide)]

theorem coeff_listPoly_mul (g : List Sym) (p : (ZMod 2)[X]) (k : Nat) :
    (listPoly g * p).coeff k =
      ∑ a ∈ Finset.range g.length, if a ≤ k ∧ g.getD a 0 = 1 then p.coeff (k - a) else 0 := by
  rw [listPoly, binaryPoly, Finset.sum_mul, finsetSum_coeff]
  refine Finset.sum_congr rfl fun a _ => ?_
  by_cases hone : g.getD a 0 = 1
  · simp only [hone, and_true, if_true, coeff_X_pow_mul']
  · simp only [hone, and_false, if_false, zero_mul, coeff_zero]

/-- Each cell of the product list is the coefficient of the product (R193). -/
theorem getD_timesMinpoly (g : List Sym) {m : Mask} (hm : 1 ≤ highestBit m) (k : Nat) :
    (timesMinpoly g m).getD k 0 = cellOf ((listPoly g * maskPoly m).coeff k) := by
  rw [coeff_listPoly_mul]
  by_cases hk : k < g.length + (highestBit m).toNat
  · have hsum : ∀ a, (if a ≤ k ∧ g.getD a 0 = 1 then (maskPoly m).coeff (k - a) else 0) =
        if a ≤ k ∧ g.getD a 0 = 1 ∧ m.getLsbD (k - a) = true then (1 : ZMod 2) else 0 := fun a => by
      simp only [coeff_maskPoly, ← ite_and, and_assoc]
    rw [Finset.sum_congr rfl fun a _ => hsum a, ← foldl_flip_eq_cellOf]
    simp [timesMinpoly, hk, numbered_eq_map_range, List.foldl_map]
  · rw [List.getD_eq_default _ _ (by simp [timesMinpoly]; omega), Finset.sum_eq_zero]
    · rfl
    · intro a ha
      have hlt := Finset.mem_range.mp ha
      rw [coeff_maskPoly, (getLsbD_highestBit hm).2 _ (by omega)]
      simp

theorem binary_timesMinpoly (g : List Sym) {m : Mask} (hm : 1 ≤ highestBit m) :
    Binary fun j => (timesMinpoly g m).getD j 0 := fun j => by
  dsimp only
  rw [getD_timesMinpoly g hm]
  exact cellOf_eq_zero_or_one _

/-- The product over GF(2) (R193). -/
theorem listPoly_timesMinpoly (g : List Sym) {m : Mask} (hm : 1 ≤ highestBit m) :
    listPoly (timesMinpoly g m) = listPoly g * maskPoly m := by
  ext k
  rw [coeff_listPoly, getD_timesMinpoly g hm, ite_cellOf]

/-! ## All factors -/

theorem foldl_timesMinpoly_binary {ms : List Mask} (hms : ∀ m ∈ ms, 1 ≤ highestBit m) {g : List Sym}
    (hg : Binary fun j => g.getD j 0) : Binary fun j => (ms.foldl timesMinpoly g).getD j 0 :=
  List.foldlRecOn (motive := fun g : List Sym => Binary fun j => g.getD j 0) ms _ hg
    fun g _ m hm => binary_timesMinpoly g (hms m hm)

theorem listPoly_foldl_timesMinpoly {ms : List Mask} (hms : ∀ m ∈ ms, 1 ≤ highestBit m) (g : List Sym) :
    listPoly (ms.foldl timesMinpoly g) = listPoly g * (ms.map maskPoly).prod := by
  induction ms generalizing g with
  | nil => exact (mul_one _).symm
  | cons m ms ih =>
    rw [List.foldl_cons, ih fun m hm => hms m (by simp [hm]), listPoly_timesMinpoly g (hms m (by simp)), List.map_cons,
      List.prod_cons, mul_assoc]

/-- Every generator coefficient is 0 or 1 (R198). -/
theorem bchGenerator_binary {ms : List Mask} (hms : ∀ m ∈ ms, 1 ≤ highestBit m) :
    Binary fun j => (bchGenerator ms).getD j 0 :=
  foldl_timesMinpoly_binary hms fun j => by cases j <;> simp

/-- The generator is the product of the minimal polynomials (R193). -/
theorem listPoly_bchGenerator {ms : List Mask} (hms : ∀ m ∈ ms, 1 ≤ highestBit m) :
    listPoly (bchGenerator ms) = (ms.map maskPoly).prod := by
  have hone : listPoly [1] = 1 := by simp [listPoly, binaryPoly]
  rw [bchGenerator, listPoly_foldl_timesMinpoly hms, hone, one_mul]

theorem prod_minpolys (s : State) :
    (s.minpolys.map maskPoly).prod = ∏ k ∈ Finset.range s.cfgNmp.toNat, maskPoly (s.mem.rdMinpoly k) := by
  rw [State.minpolys, List.map_map]
  rfl

theorem highestBit_minpolys (hok : s.minpolyOk = true) : ∀ m ∈ s.minpolys, 1 ≤ highestBit m := fun m hm =>
  ((minpolyOk_iff.mp hok).2.1 m hm).2

/-! ## Roots -/

namespace State.TablesBuilt

variable (h : s.TablesBuilt)

/-- The value of a polynomial over GF(2) at x. -/
noncomputable def evalHom (x : s.Value) : letI := h.field; (ZMod 2)[X] →+* s.Value :=
  letI := h.field
  haveI := h.charP_two
  eval₂RingHom (ZMod.castHom (dvd_refl 2) s.Value) x

/-- A polynomial with binary coefficients is evaluated as the commands do (R153). -/
theorem coe_evalHom_binaryPoly (x : s.Value) {f : Nat → Sym} (hf : Binary f) (n : Nat) :
    letI := h.field; ((h.evalHom x (binaryPoly n f) : s.Value) : Sym) = evalAt s.gf n f x.1 := by
  let := h.field
  have := h.charP_two
  rw [binaryPoly, map_sum, h.coe_sum]
  refine xorSum_congr fun j _ => ?_
  rcases hf j with h0 | h1
  · rw [h0, zero_gmul, if_neg (by decide), map_zero]
    rfl
  · rw [h1, if_pos rfl, h.one_gmul (h.gpow_lt _), map_pow, ← h.coe_pow]
    simp [evalHom]

include h in
/-- A target root is a root of the generator exactly when it is one of some minimal polynomial (R196). -/
theorem peval_bchGenerator_eq_zero {x : Sym} (hx : x.toNat < s.q) (hok : s.minpolyOk = true) :
    peval s.gf (bchGenerator s.minpolys) x = 0 ↔ ∃ k, k < s.cfgNmp.toNat ∧ s.minpolyAt k x = 0 := by
  let := h.field
  have hms := highestBit_minpolys hok
  have hcoe : ∀ {f : Nat → Sym} (_ : Binary f) (n : Nat),
      evalAt s.gf n f x = 0 ↔ h.evalHom ⟨x, hx⟩ (binaryPoly n f) = 0 := fun hf n => by
    rw [← h.coe_evalHom_binaryPoly ⟨x, hx⟩ hf n]
    exact ⟨fun h0 => Subtype.ext h0, fun h0 => congrArg Subtype.val h0⟩
  rw [peval_eq_evalAt, hcoe (bchGenerator_binary hms), ← listPoly, listPoly_bchGenerator hms, prod_minpolys, map_prod,
    Finset.prod_eq_zero_iff]
  simp only [Finset.mem_range]
  exact exists_congr fun k => and_congr_right fun _ => (hcoe (binary_maskBit _) 17).symm

include h in
/-- In BCH mode the verification passes exactly when every target root is a root of some minimal polynomial (R196). -/
theorem vanishesAtRoots_bchGenerator (hok : s.minpolyOk = true) :
    vanishesAtRoots s.gf (bchGenerator s.minpolys) s.nr s.fcr = true ↔
      ∀ i, i < s.nr → ∃ k, k < s.cfgNmp.toNat ∧ s.minpolyAt k (s.targetRoot i) = 0 := by
  rw [vanishesAtRoots_iff]
  exact forall₂_congr fun i _ => h.peval_bchGenerator_eq_zero (h.targetRoot_lt i) hok

end State.TablesBuilt

/-! ## The obligations -/

/-- Settles O21: the checks pass, for R196 ties the verification to the minimal polynomials' roots, and what is stored
is their product. -/
theorem bchGeneratorIsBuilt : Obligations.BchGeneratorIsBuilt := by
  intro s hok ht hmode h1 h256 hn hfcr hnmp hnmp256 hcells np hnp hnp' hroots poly
  have h := ht.field hok
  have hmp : s.minpolyOk = true := minpolyOk_iff_cells.mpr ⟨⟨hnmp, hnmp256⟩, hcells, le_min hnp hnp'⟩
  have hms := highestBit_minpolys hmp
  have hgen : s.generator = bchGenerator s.minpolys := generator_bch hmode
  have hmonic : MonicList s.generator np := by
    rw [hgen, show np = degreeSum s.minpolys from (degreeSum_minpolys s).symm]
    exact bchGenerator_monic hms
  have hcheck : s.generatorCheck = none := by
    rw [generatorCheck_of_range hok (by omega) hfcr, hgen, (h.vanishesAtRoots_bchGenerator hmp).mpr hroots, hmp]
    simp
  obtain ⟨t, hexec, hcell, hsame, hstate⟩ := execBuildGen_success hcheck hmonic
  refine ⟨t, hexec, fun j hj => ?_, ?_, ?_, hsame, hstate⟩
  · rw [hcell j hj, hgen]
    exact bchGenerator_binary hms j
  · rw [hcell _ (Nat.le_refl _), hmonic.2]
  · have hpoly : ∀ m : Mask, poly m.toNat = maskPoly m := fun m => by
      simp only [maskPoly, binaryPoly, maskBit_eq_one_iff]
      rfl
    calc binaryPoly (np + 1) (t.rd .gen)
        = listPoly s.generator := by
          rw [listPoly, hmonic.1]
          exact binaryPoly_congr fun j hj => hcell j (by omega)
      _ = ∏ k ∈ Finset.range s.cfgNmp.toNat, maskPoly (s.mem.rdMinpoly k) := by
          rw [hgen, listPoly_bchGenerator hms, prod_minpolys]
      _ = _ := Finset.prod_congr rfl fun k _ => (hpoly _).symm

/-- Settles O22: each clause falls under one check, and the two of BCH mode under those of R193 and R196. -/
theorem buildGenFaults : Obligations.BuildGenFaults := by
  intro s
  refine ⟨fun hf => execBuildGen_fault (generatorCheck_noField hf),
    fun hf hnr => execBuildGen_fault (generatorCheck_cfgNr hf (by omega)),
    fun hf h1 h256 hn => ⟨fun hfcr => execBuildGen_fault (generatorCheck_cfgFcr hf (by omega) hfcr),
      fun hfcr hmode hbad => execBuildGen_fault (e := .cfgMinpoly) ?_,
      fun hfcr hmode ht hmp hmiss => execBuildGen_fault (e := .genVerify) ?_⟩⟩
  · have hmp : s.minpolyOk = false := Bool.eq_false_iff.mpr fun hmp => by
      obtain ⟨hnmp, hcells, hsum⟩ := minpolyOk_iff_cells.mp hmp
      obtain hbad | hbad | ⟨k, hk, hbad⟩ | hbad := hbad
      · omega
      · omega
      · have := hcells k hk
        omega
      · omega
    rw [generatorCheck_of_range hf (by omega) hfcr, hmode, hmp]
    rfl
  · have hgen : s.generator = bchGenerator s.minpolys := generator_bch hmode
    have hv : vanishesAtRoots s.gf (bchGenerator s.minpolys) s.nr s.fcr = false := Bool.eq_false_iff.mpr fun hv => by
      obtain ⟨i, hi, hne⟩ := hmiss
      obtain ⟨k, hk, h0⟩ := ((ht.field hf).vanishesAtRoots_bchGenerator hmp).mp hv i hi
      exact hne k hk h0
    rw [generatorCheck_of_range hf (by omega) hfcr, hgen, hv, hmp]
    simp

end Sys2Proof.Machine
end

section
/-! PROOFS. The checks of the pipeline commands (42_encoder.md R200, R201, 60_exceptions.md R325, R326): FIELD_OK and
GEN_OK before all others, then each command's own in their order. -/

namespace Sys2Proof.Machine

variable {s : State}

/-! ## The shape of a pipeline command -/

/-- A pipeline command makes R200's checks, then its own, and then writes results only. -/
theorem exec_pipelineCommand (s : State) {i : Instr} (hi : isPipelineCommand i = true) :
    ∃ (own : Option ErrCode) (f : State → State),
      exec i s = s.finish (firstFault s.pipelineCheck own) f ∧ s.ResultsOnly (f s) := by
  cases i with
  | nop | srst | buildField | buildGen | gfAdd | gfMul | gfDiv | gfInv | gfFma | gfExp | gfLog | gfPow | gfTrace
  | gfQsolve => cases hi
  | encode | syndromes | bm | forney => exact ⟨_, _, rfl, rfl⟩
  | roots => exact ⟨_, _, rfl, findRoots_resultsOnly s⟩
  | apply => exact ⟨_, _, rfl, applyCorrections_resultsOnly s⟩
  | decode clr novfy => exact ⟨_, _, rfl, runDecode_resultsOnly clr novfy s⟩

/-- Settles O23: R200's checks come first, a fault of any check changes STATUS only, and a success leaves ERR and
ERRCODE alone. -/
theorem pipelineCommandsNeedFieldAndGenerator : Obligations.PipelineCommandsNeedFieldAndGenerator := by
  intro s i hi
  obtain ⟨own, f, hexec, hres⟩ := exec_pipelineCommand s hi
  rw [hexec]
  refine ⟨fun hf => ?_, fun hf hg => ?_, fun t ht => ?_⟩
  · rw [pipelineCheck_noField hf]; rfl
  · rw [pipelineCheck_noGen hf hg]; rfl
  · rcases (finish_eq_next ..).mp ht with ⟨e, -, rfl⟩ | ⟨-, rfl⟩
    · exact .inl ⟨e.code, rfl⟩
    · exact .inr ⟨hres.congr State.err, hres.congr State.errcode⟩

/-! ## One check -/

/-- Every fault of a command is STATUS with its code (R322). -/
theorem finish_faulted {check : Option ErrCode} {f : State → State} {e : ErrCode} (h : check = some e) :
    s.finish check f = .next (s.faulted e.code) := by
  rw [h]; rfl

/-- A check that fails hides the later ones (R326). -/
theorem firstFault_faultIf_of_bad {bad : Bool} (h : bad = true) (e : ErrCode) (later : Option ErrCode) :
    firstFault (faultIf bad e) later = some e := by
  rw [h]; rfl

/-- A check that passes leaves the later ones (R326). -/
theorem firstFault_faultIf_of_ok {bad : Bool} (h : bad = false) (e : ErrCode) (later : Option ErrCode) :
    firstFault (faultIf bad e) later = later := by
  rw [h]; rfl

/-- Some listed cell is not below the bound (R325). -/
theorem any_rdList_iff {w : Win} {n bound : Nat} :
    ((s.rdList w n).any fun v => bound ≤ v.toNat) = true ↔ ∃ i, i < n ∧ bound ≤ (s.rd w i).toNat := by
  simp [State.rdList, Memory.rdList, State.rd]

/-- Every listed symbol is in range (R201). -/
theorem all_symbolOk_iff {w : Win} {n : Nat} :
    (s.rdList w n).all s.symbolOk = true ↔ ∀ i, i < n → s.InRange (s.rd w i) := by
  simp [← symbolOk_iff, State.rdList, Memory.rdList, State.rd]

/-- Some listed symbol is out of range (R201). -/
theorem not_all_symbolOk_iff {w : Win} {n : Nat} :
    (!(s.rdList w n).all s.symbolOk) = true ↔ ∃ i, i < n ∧ ¬ s.InRange (s.rd w i) := by
  rw [Bool.not_eq_true', Bool.eq_false_iff, Ne, all_symbolOk_iff]
  simp only [not_forall, exists_prop]

theorem any_locations_iff :
    (s.locations.any fun p => s.n ≤ p) = true ↔ ∃ k, k < s.loccnt.toNat ∧ s.n ≤ (s.rd .loc k).toNat := by
  simp [State.locations, State.rdList, Memory.rdList, State.rd]

/-- The corrections, each with its position and its magnitude (R280). -/
theorem corrections_eq_map (s : State) :
    s.corrections = (List.range s.loccnt.toNat).map fun k => ((s.rd .loc k).toNat, s.rd .mag k) := by
  simp only [State.corrections, State.locations, State.rdList, Memory.rdList, State.rd, List.map_map, List.zip_map']
  rfl

theorem any_corrections_iff :
    (s.corrections.any fun c => s.n ≤ c.1 || !s.symbolOk c.2) = true ↔
      ∃ k, k < s.loccnt.toNat ∧ (s.n ≤ (s.rd .loc k).toNat ∨ ¬ s.InRange (s.rd .mag k)) := by
  simp [corrections_eq_map, ← symbolOk_iff]

/-- The erasure check fails on a bad count or a bad position, and only with E_ERASURE (R230). -/
theorem erasureCheck_eq_erasure
    (h : s.nr < s.neras.toNat ∨ ∃ e, e < s.neras.toNat ∧ s.n ≤ (s.rd .eras e).toNat) :
    s.erasureCheck = some .erasure := by
  cases hc : s.erasureCheck with
  | some e => rw [erasureCheck_some hc]
  | none =>
    obtain ⟨hcount, hpos⟩ := erasureCheck_eq_none.mp hc
    obtain hbad | ⟨e, he, hbad⟩ := h
    · omega
    · have := hpos e he
      omega

/-! ## Each command's checks, once FIELD_OK and GEN_OK hold (R325) -/

section ready

variable (hf : s.fieldOk = true) (hg : s.genOk = true)
include hf hg

theorem firstFault_pipelineCheck (own : Option ErrCode) : firstFault s.pipelineCheck own = own := by
  rw [pipelineCheck_eq_none.mpr ⟨hf, hg⟩]; rfl

theorem encodeCheck_range (h : ∃ i, i < s.k ∧ ¬ s.InRange (s.rd .code i)) : s.encodeCheck = some .range := by
  rw [State.encodeCheck, firstFault_pipelineCheck hf hg, not_all_symbolOk_iff.mpr h, faultIf_true]

theorem encodeCheck_ok (h : ∀ i, i < s.k → s.InRange (s.rd .code i)) : s.encodeCheck = none := by
  rw [State.encodeCheck, firstFault_pipelineCheck hf hg, all_symbolOk_iff.mpr h, Bool.not_true, faultIf_false]

theorem syndromesCheck_range (h : ∃ j, j < s.n ∧ ¬ s.InRange (s.rd .code j)) : s.syndromesCheck = some .range := by
  rw [State.syndromesCheck, firstFault_pipelineCheck hf hg, State.codeword, not_all_symbolOk_iff.mpr h, faultIf_true]

theorem syndromesCheck_ok (h : ∀ j, j < s.n → s.InRange (s.rd .code j)) : s.syndromesCheck = none := by
  rw [State.syndromesCheck, firstFault_pipelineCheck hf hg, State.codeword, all_symbolOk_iff.mpr h, Bool.not_true,
    faultIf_false]

theorem bmCheck_erasure (h : s.erasureCheck = some .erasure) : s.bmCheck = some .erasure := by
  rw [State.bmCheck, firstFault_pipelineCheck hf hg, h, firstFault_some]

theorem bmCheck_range (he : s.erasureCheck = none) (h : ∃ i, i < s.nr ∧ s.q ≤ (s.rd .syn i).toNat) :
    s.bmCheck = some .range := by
  rw [State.bmCheck, firstFault_pipelineCheck hf hg, he, firstFault_none, any_rdList_iff.mpr h, faultIf_true]

theorem decodeCheck_erasure (h : s.erasureCheck = some .erasure) : s.decodeCheck = some .erasure := by
  rw [State.decodeCheck, firstFault_pipelineCheck hf hg, h, firstFault_some]

theorem decodeCheck_range (he : s.erasureCheck = none) (h : ∃ j, j < s.n ∧ ¬ s.InRange (s.rd .code j)) :
    s.decodeCheck = some .range := by
  rw [State.decodeCheck, firstFault_pipelineCheck hf hg, he, firstFault_none, State.codeword,
    not_all_symbolOk_iff.mpr h, faultIf_true]

theorem rootsCheck_count (h : s.nr < s.deg.toNat) : s.rootsCheck = some .count := by
  rw [State.rootsCheck, firstFault_pipelineCheck hf hg, firstFault_faultIf_of_bad (decide_eq_true h)]

theorem rootsCheck_range (hd : s.deg.toNat ≤ s.nr) (h : ∃ j, j ≤ s.deg.toNat ∧ s.q ≤ (s.rd .lambda j).toNat) :
    s.rootsCheck = some .range := by
  rw [State.rootsCheck, firstFault_pipelineCheck hf hg, firstFault_faultIf_of_ok (decide_eq_false (by omega)),
    any_rdList_iff.mpr (by simpa [Nat.lt_succ_iff] using h), faultIf_true]

theorem forneyCheck_count (h : s.nr < s.deg.toNat ∨ s.nr < s.loccnt.toNat) : s.forneyCheck = some .count := by
  rw [State.forneyCheck, firstFault_pipelineCheck hf hg, firstFault_faultIf_of_bad (by simpa using h)]

theorem forneyCheck_range (hd : s.deg.toNat ≤ s.nr) (hl : s.loccnt.toNat ≤ s.nr)
    (h : (∃ i, i < s.nr ∧ s.q ≤ (s.rd .syn i).toNat) ∨ (∃ j, j ≤ s.deg.toNat ∧ s.q ≤ (s.rd .lambda j).toNat) ∨
      ∃ k, k < s.loccnt.toNat ∧ s.n ≤ (s.rd .loc k).toNat) : s.forneyCheck = some .range := by
  rw [State.forneyCheck, firstFault_pipelineCheck hf hg, firstFault_faultIf_of_ok (by simp [hd, hl]),
    firstFault_faultIf_of_bad]
  rw [Bool.or_eq_true, Bool.or_eq_true, State.locator, any_rdList_iff, any_rdList_iff, any_locations_iff, or_assoc]
  simpa only [Nat.lt_succ_iff] using h

theorem applyCheck_count (h : s.nr < s.loccnt.toNat) : s.applyCheck = some .count := by
  rw [State.applyCheck, firstFault_pipelineCheck hf hg, firstFault_faultIf_of_bad (decide_eq_true h)]

theorem applyCheck_range (hl : s.loccnt.toNat ≤ s.nr)
    (h : ∃ k, k < s.loccnt.toNat ∧ (s.n ≤ (s.rd .loc k).toNat ∨ ¬ s.InRange (s.rd .mag k))) :
    s.applyCheck = some .range := by
  rw [State.applyCheck, firstFault_pipelineCheck hf hg, firstFault_faultIf_of_ok (decide_eq_false (by omega)),
    any_corrections_iff.mpr h, faultIf_true]

end ready

/-- Settles O24: each clause is the first check of its command that fails. -/
theorem pipelineChecksFault : Obligations.PipelineChecksFault := by
  intro s hf hg
  refine ⟨fun h => finish_faulted (encodeCheck_range hf hg h), fun h => finish_faulted (syndromesCheck_range hf hg h),
    fun h => ?_, fun hcount hpos => ?_,
    fun h => finish_faulted (rootsCheck_count hf hg h), fun hd h => finish_faulted (rootsCheck_range hf hg hd h),
    fun h => finish_faulted (forneyCheck_count hf hg h),
    fun hd hl h => finish_faulted (forneyCheck_range hf hg hd hl h),
    fun h => finish_faulted (applyCheck_count hf hg h), fun hl h => finish_faulted (applyCheck_range hf hg hl h)⟩
  · have he := erasureCheck_eq_erasure h
    exact ⟨finish_faulted (bmCheck_erasure hf hg he), fun _ _ => finish_faulted (decodeCheck_erasure hf hg he)⟩
  · have he := erasureCheck_eq_none.mpr ⟨hcount, hpos⟩
    exact ⟨fun h => finish_faulted (bmCheck_range hf hg he h),
      fun h _ _ => finish_faulted (decodeCheck_range hf hg he h)⟩

end Sys2Proof.Machine
end

section
/-! PROOFS. A word as a polynomial whose first symbol is the highest coefficient (00_scope.md R11): Horner's method
(43_syndromes.md R221) under concatenation, and as the evaluation of the coefficients counted from the end. -/

namespace Sys2Proof.Machine

variable {s : State}

/-! ## Any view of the field -/

/-- One more symbol (R221). -/
theorem horner_concat (F : GF) (r : Sym) (w : List Sym) (v : Sym) :
    horner F r (w ++ [v]) = gmul F (horner F r w) r ^^^ v := by
  cases w with
  | nil =>
    have hnil : horner F r [] = 0 := rfl
    rw [hnil, zero_gmul]
    exact BitVec.zero_xor.symm
  | cons c cs => simp [horner, gfma_eq]

theorem horner_replicate_zero (F : GF) (r : Sym) (n : Nat) : horner F r (List.replicate n 0) = 0 := by
  induction n with
  | zero => rfl
  | succ n ih => rw [List.replicate_succ', horner_concat, ih, zero_gmul]; rfl

/-- A sum does not depend on the order of its terms. -/
theorem xorSum_reverse (n : Nat) (f : Nat → Sym) : (xorSum n fun i => f (n - 1 - i)) = xorSum n f := by
  induction n with
  | zero => rfl
  | succ n ih =>
    have hrest : (xorSum n fun i => f (n + 1 - 1 - (i + 1))) = xorSum n fun i => f (n - 1 - i) :=
      xorSum_congr fun i _ => congrArg f (by omega)
    rw [xorSum_succ', hrest, ih, xorSum_succ, BitVec.xor_comm]
    rfl

/-- What holds of 0 and of every symbol of a word holds of the word's coefficients, and the other way round. -/
theorem forall_getD_iff {P : Sym → Prop} (h0 : P 0) {w : List Sym} : (∀ j, P (w.getD j 0)) ↔ ∀ v ∈ w, P v := by
  constructor
  · intro hw v hv
    obtain ⟨j, hj, rfl⟩ := List.getElem_of_mem hv
    exact List.getD_eq_getElem w 0 hj ▸ hw j
  · intro hw j
    by_cases hj : j < w.length
    · rw [List.getD_eq_getElem _ _ hj]
      exact hw _ (List.getElem_mem hj)
    · rw [List.getD_eq_default _ _ (by omega)]
      exact h0

/-! ## With built tables -/

namespace State.TablesBuilt

variable (h : s.TablesBuilt)
include h

/-! ### Evaluation -/

theorem evalAt_xor {n : Nat} {f g : Nat → Sym} (hf : ∀ j, j < n → (f j).toNat < s.q)
    (hg : ∀ j, j < n → (g j).toNat < s.q) (x : Sym) :
    evalAt s.gf n (fun j => f j ^^^ g j) x = evalAt s.gf n f x ^^^ evalAt s.gf n g x :=
  (xorSum_congr fun j hj => h.xor_gmul (hf j hj) (hg j hj) (h.gpow_lt _)).trans (xorSum_xor _ _ _)

/-- A constant factor comes out of every coefficient. -/
theorem evalAt_gmul {n : Nat} {c : Sym} (hc : c.toNat < s.q) {f : Nat → Sym} (hf : ∀ j, j < n → (f j).toNat < s.q)
    (x : Sym) : evalAt s.gf n (fun j => gmul s.gf c (f j)) x = gmul s.gf c (evalAt s.gf n f x) := by
  rw [gmul_comm s.gf c, evalAt, evalAt, h.xorSum_gmul (fun j hj => h.gmul_lt (hf j hj) (h.gpow_lt _)) hc]
  refine xorSum_congr fun j hj => ?_
  rw [h.gmul_assoc hc (hf j hj) (h.gpow_lt _), gmul_comm]

/-- The constant coefficient apart, and x out of the rest. -/
theorem evalAt_succ' {n : Nat} {f : Nat → Sym} (hf : ∀ j, (f j).toNat < s.q) {x : Sym} (hx : x.toNat < s.q) :
    evalAt s.gf (n + 1) f x = f 0 ^^^ gmul s.gf (evalAt s.gf n (fun j => f (j + 1)) x) x := by
  rw [evalAt, xorSum_succ', Nat.cast_zero, h.gpow_zero, h.gmul_one (hf 0), evalAt,
    h.xorSum_gmul (fun j _ => h.gmul_lt (hf _) (h.gpow_lt _)) hx]
  congr 1
  refine xorSum_congr fun j _ => ?_
  rw [h.gmul_assoc (hf _) (h.gpow_lt _) hx, ← h.gpow_succ hx]

/-! ### Horner's method -/

/-- The coefficient of x^j is the j-th symbol from the end (R11). -/
theorem horner_eq_evalAt {w : List Sym} (hw : ∀ v ∈ w, v.toNat < s.q) {x : Sym} (hx : x.toNat < s.q) :
    horner s.gf x w = evalAt s.gf w.length (fun j => w.getD (w.length - 1 - j) 0) x := by
  rw [h.horner_eq hw hx, evalAt, ← xorSum_reverse]
  refine xorSum_congr fun j hj => ?_
  rw [show w.length - 1 - (w.length - 1 - j) = j by omega]

theorem horner_lt {w : List Sym} (hw : ∀ v ∈ w, v.toNat < s.q) {x : Sym} (hx : x.toNat < s.q) :
    (horner s.gf x w).toNat < s.q := by
  rw [h.horner_eq_evalAt hw hx]
  exact h.evalAt_lt (fun j _ => (forall_getD_iff h.zero_lt).mpr hw _) x

/-- A word followed by another is shifted past it. -/
theorem horner_append {u w : List Sym} (hu : ∀ v ∈ u, v.toNat < s.q) (hw : ∀ v ∈ w, v.toNat < s.q) {x : Sym}
    (hx : x.toNat < s.q) :
    horner s.gf x (u ++ w) = gmul s.gf (horner s.gf x u) (gpow s.gf x (w.length : Int)) ^^^ horner s.gf x w := by
  induction w using List.reverseRecOn with
  | nil =>
    rw [List.append_nil, List.length_nil, Nat.cast_zero, h.gpow_zero, h.gmul_one (h.horner_lt hu hx)]
    exact BitVec.xor_zero.symm
  | append_singleton w v ih =>
    have hw' : ∀ v ∈ w, v.toNat < s.q := fun v hv => hw v (by simp [hv])
    have hlt := h.gmul_lt (h.horner_lt hu hx) (h.gpow_lt (a := x) (w.length : Int))
    rw [← List.append_assoc, horner_concat, ih hw', h.xor_gmul hlt (h.horner_lt hw' hx) hx,
      h.gmul_assoc (h.horner_lt hu hx) (h.gpow_lt _) hx, ← h.gpow_succ hx, horner_concat, BitVec.xor_assoc,
      List.length_append, List.length_singleton]

/-- A word moved up by one place, its first symbol lost. -/
theorem evalAt_shift {w : List Sym} (hw : ∀ v ∈ w, v.toNat < s.q) {x : Sym} (hx : x.toNat < s.q) :
    evalAt s.gf w.length (fun j => w.getD (w.length - j) 0) x =
      gmul s.gf (horner s.gf x w) x ^^^ gmul s.gf (w.getD 0 0) (gpow s.gf x (w.length : Int)) := by
  have hval := (forall_getD_iff h.zero_lt).mpr hw
  have htop : evalAt s.gf (w.length + 1) (fun j => w.getD (w.length - j) 0) x =
      evalAt s.gf w.length (fun j => w.getD (w.length - j) 0) x ^^^
        gmul s.gf (w.getD 0 0) (gpow s.gf x (w.length : Int)) := by
    rw [evalAt_succ, Nat.sub_self]
  have hlow : evalAt s.gf (w.length + 1) (fun j => w.getD (w.length - j) 0) x = gmul s.gf (horner s.gf x w) x := by
    rw [h.evalAt_succ' (fun _ => hval _) hx, Nat.sub_zero, List.getD_eq_default _ _ (Nat.le_refl _),
      h.horner_eq_evalAt hw hx]
    refine BitVec.zero_xor.trans (congrArg (gmul s.gf · x) (evalAt_congr (fun j _ => ?_) x))
    rw [Nat.sub_sub, Nat.add_comm 1]
  rw [← hlow, htop, BitVec.xor_assoc, BitVec.xor_self]
  exact BitVec.xor_zero.symm

end State.TablesBuilt

end Sys2Proof.Machine
end

section
/-! PROOFS. ENCODE (42_encoder.md R210 to R215): the register holds the remainder of the message times x^NP by the
generator, so the codeword is the generator times the word of the feedback terms. -/

namespace Sys2Proof.Machine

variable {s : State}

/-! ## One symbol through the register -/

theorem length_encodeSymbol (F : GF) (np : Nat) (gen : Nat → Sym) (par : List Sym) (c : Sym) :
    (encodeSymbol F np gen par c).length = np := by
  simp [encodeSymbol]

theorem parityOf_concat (F : GF) (np : Nat) (gen : Nat → Sym) (msg : List Sym) (c : Sym) :
    parityOf F np gen (msg ++ [c]) = encodeSymbol F np gen (parityOf F np gen msg) c := by
  simp [parityOf, List.foldl_append]

/-- Each cell takes its neighbour and the feedback times a generator coefficient; with zero feedback this is the pure
shift (R210, R212). -/
theorem getD_encodeSymbol (F : GF) (gen : Nat → Sym) {np : Nat} {par : List Sym} (hpar : par.length = np) (c : Sym)
    {j : Nat} (hj : j < np) :
    (encodeSymbol F np gen par c).getD j 0 =
      gmul F (c ^^^ par.getD 0 0) (gen (np - 1 - j)) ^^^ par.getD (j + 1) 0 := by
  have hcell : (encodeSymbol F np gen par c).getD j 0 =
      if c ^^^ par.getD 0 0 = 0 then (if j + 1 < np then par.getD (j + 1) 0 else 0)
      else if j + 1 < np then gfma F (c ^^^ par.getD 0 0) (gen (np - 1 - j)) (par.getD (j + 1) 0)
      else gmul F (c ^^^ par.getD 0 0) (gen 0) := by
    simp [encodeSymbol, hj]
  rw [hcell]
  by_cases hlast : j + 1 < np
  · rw [if_pos hlast, if_pos hlast, gfma_eq]
    split
    · next h0 => rw [h0, zero_gmul]; exact BitVec.zero_xor.symm
    · rfl
  · have hout : par.getD (j + 1) 0 = 0 := List.getD_eq_default _ _ (by omega)
    rw [if_neg hlast, if_neg hlast, hout, show np - 1 - j = 0 by omega]
    split
    · next h0 => rw [h0, zero_gmul]; rfl
    · exact BitVec.xor_zero.symm

/-! ## The symbols in range (R201) -/

theorem inRange_bch (hb : s.cfgBch = true) (v : Sym) : s.InRange v ↔ v.toNat ≤ 1 := by
  simp [State.InRange, hb]

theorem inRange_rs (hb : s.cfgBch = false) (v : Sym) : s.InRange v ↔ v.toNat < s.q := by
  simp [State.InRange, hb]

theorem toNat_le_one_iff (v : Sym) : v.toNat ≤ 1 ↔ v = 0 ∨ v = 1 := by
  rw [← BitVec.toNat_inj, ← BitVec.toNat_inj, Nat.le_one_iff_eq_zero_or_eq_one]
  rfl

theorem inRange_rdList {w : Win} {n : Nat} (h : ∀ i, i < n → s.InRange (s.rd w i)) :
    ∀ v ∈ s.rdList w n, s.InRange v := fun v hv => by
  obtain ⟨i, hi, rfl⟩ := mem_rdList.mp hv
  exact h i hi

namespace State.TablesBuilt

variable (h : s.TablesBuilt)
include h

theorem inRange_lt {v : Sym} (hv : s.InRange v) : v.toNat < s.q := by
  cases hb : s.cfgBch with
  | false => exact (inRange_rs hb v).mp hv
  | true =>
    have := (inRange_bch hb v).mp hv
    have := h.one_lt_q
    omega

theorem inRange_zero : s.InRange 0 := by
  cases hb : s.cfgBch with
  | false => exact (inRange_rs hb 0).mpr h.zero_lt
  | true => exact (inRange_bch hb 0).mpr (Nat.zero_le 1)

theorem inRange_xor {a b : Sym} (ha : s.InRange a) (hb : s.InRange b) : s.InRange (a ^^^ b) := by
  cases hm : s.cfgBch with
  | false => exact (inRange_rs hm _).mpr (xor_lt (h.inRange_lt ha) (h.inRange_lt hb))
  | true =>
    rw [inRange_bch hm, toNat_le_one_iff] at ha hb ⊢
    rcases ha with rfl | rfl <;> rcases hb with rfl | rfl <;> decide

/-- A product of bits is a bit (R215). -/
theorem inRange_gmul {a b : Sym} (ha : s.InRange a) (hb : s.InRange b) : s.InRange (gmul s.gf a b) := by
  cases hm : s.cfgBch with
  | false => exact (inRange_rs hm _).mpr (h.gmul_lt (h.inRange_lt ha) (h.inRange_lt hb))
  | true =>
    have ha' := (toNat_le_one_iff a).mp ((inRange_bch hm a).mp ha)
    rcases ha' with rfl | rfl
    · rw [zero_gmul]; exact h.inRange_zero
    · rwa [h.one_gmul (h.inRange_lt hb)]

/-! ## The parity -/

variable {np : Nat} {gen : Nat → Sym} (hgen : ∀ j, j ≤ np → s.InRange (gen j))
include hgen

/-- The symbols in range are closed under what the register computes (R215). -/
theorem inRange_encodeSymbol {par : List Sym} (hlen : par.length = np) (hpar : ∀ v ∈ par, s.InRange v) {c : Sym}
    (hc : s.InRange c) : ∀ v ∈ encodeSymbol s.gf np gen par c, s.InRange v := by
  have hget := (forall_getD_iff h.inRange_zero).mpr hpar
  intro v hv
  obtain ⟨j, hj, rfl⟩ := List.getElem_of_mem hv
  rw [← List.getD_eq_getElem _ 0 hj, getD_encodeSymbol _ _ hlen _ (by rwa [length_encodeSymbol] at hj)]
  exact h.inRange_xor (h.inRange_gmul (h.inRange_xor hc (hget 0)) (hgen _ (by omega))) (hget _)

theorem inRange_parityOf {msg : List Sym} (hmsg : ∀ v ∈ msg, s.InRange v) :
    ∀ v ∈ parityOf s.gf np gen msg, s.InRange v := by
  induction msg using List.reverseRecOn with
  | nil =>
    intro v hv
    rw [List.eq_of_mem_replicate hv]
    exact h.inRange_zero
  | append_singleton msg c ih =>
    rw [parityOf_concat]
    exact h.inRange_encodeSymbol hgen (length_parityOf _ _ _) (ih fun v hv => hmsg v (by simp [hv]))
      (hmsg c (by simp))

end State.TablesBuilt

/-! ## The division -/

/-- One step of a division with remainder by the monic g + y: `m` is divided with quotient `f` and remainder `p`, whose
top coefficient is `t`. -/
theorem division_step {R : Type} [CommRing R] {m p g y f x c t : R} (ih : m * y + p = (g + y) * f) :
    (m * x + c) * y + ((c + t) * g + (p * x + t * y)) = (g + y) * (f * x + (c + t)) := by
  linear_combination x * ih

namespace State.TablesBuilt

variable (h : s.TablesBuilt)
include h

theorem xor_division_step {m p g y f x c t : Sym} (hm : m.toNat < s.q) (hp : p.toNat < s.q) (hg : g.toNat < s.q)
    (hy : y.toNat < s.q) (hf : f.toNat < s.q) (hx : x.toNat < s.q) (hc : c.toNat < s.q) (ht : t.toNat < s.q)
    (ih : gmul s.gf m y ^^^ p = gmul s.gf (g ^^^ y) f) :
    gmul s.gf (gmul s.gf m x ^^^ c) y ^^^ (gmul s.gf (c ^^^ t) g ^^^ (gmul s.gf p x ^^^ gmul s.gf t y)) =
      gmul s.gf (g ^^^ y) (gmul s.gf f x ^^^ (c ^^^ t)) :=
  let := h.field
  congrArg Subtype.val (division_step (m := (⟨m, hm⟩ : s.Value)) (p := ⟨p, hp⟩) (g := ⟨g, hg⟩) (y := ⟨y, hy⟩)
    (f := ⟨f, hf⟩) (x := ⟨x, hx⟩) (c := ⟨c, hc⟩) (t := ⟨t, ht⟩) (Subtype.ext ih))

variable {np : Nat} {gen : Nat → Sym} (hgen : ∀ j, j ≤ np → s.InRange (gen j))
include hgen

/-- What one symbol does to the register, as a polynomial: it moves up one place, and the feedback times the generator's
low part comes in for the coefficient that left (R210). -/
theorem horner_encodeSymbol {par : List Sym} (hlen : par.length = np) (hpar : ∀ v ∈ par, s.InRange v) {c : Sym}
    (hc : s.InRange c) {x : Sym} (hx : x.toNat < s.q) :
    horner s.gf x (encodeSymbol s.gf np gen par c) =
      gmul s.gf (c ^^^ par.getD 0 0) (evalAt s.gf np gen x) ^^^
        (gmul s.gf (horner s.gf x par) x ^^^ gmul s.gf (par.getD 0 0) (gpow s.gf x (np : Int))) := by
  have hval := (forall_getD_iff h.zero_lt).mpr fun v hv => h.inRange_lt (hpar v hv)
  have hf := h.inRange_lt (h.inRange_xor hc ((forall_getD_iff h.inRange_zero).mpr hpar 0))
  have hg : ∀ j, j < np → (gen j).toNat < s.q := fun j hj => h.inRange_lt (hgen j hj.le)
  have hnew : ∀ v ∈ encodeSymbol s.gf np gen par c, v.toNat < s.q := fun v hv =>
    h.inRange_lt (h.inRange_encodeSymbol hgen hlen hpar hc v hv)
  have hcoeff : evalAt s.gf np (fun j => (encodeSymbol s.gf np gen par c).getD (np - 1 - j) 0) x =
      evalAt s.gf np (fun j => gmul s.gf (c ^^^ par.getD 0 0) (gen j) ^^^ par.getD (np - j) 0) x :=
    evalAt_congr (fun j hj => by
      rw [getD_encodeSymbol _ _ hlen _ (by omega), show np - 1 - (np - 1 - j) = j by omega,
        show np - 1 - j + 1 = np - j by omega]) x
  have hshift := h.evalAt_shift (fun v hv => h.inRange_lt (hpar v hv)) hx
  rw [hlen] at hshift
  rw [h.horner_eq_evalAt hnew hx, length_encodeSymbol, hcoeff,
    h.evalAt_xor (fun j hj => h.gmul_lt hf (hg j hj)) (fun _ _ => hval _), h.evalAt_gmul hf hg, hshift]

/-- The message times x^NP, with the register as the remainder, is a multiple of the generator; the quotient is the word
of the feedback terms (R213). -/
theorem exists_quotient (hmonic : gen np = 1) {msg : List Sym} (hmsg : ∀ v ∈ msg, s.InRange v) :
    ∃ fs : List Sym, fs.length = msg.length ∧ (∀ v ∈ fs, v.toNat < s.q) ∧
      ∀ x : Sym, x.toNat < s.q →
        gmul s.gf (horner s.gf x msg) (gpow s.gf x (np : Int)) ^^^ horner s.gf x (parityOf s.gf np gen msg) =
          gmul s.gf (evalAt s.gf (np + 1) gen x) (horner s.gf x fs) := by
  induction msg using List.reverseRecOn with
  | nil =>
    refine ⟨[], rfl, by simp, fun x hx => ?_⟩
    have hnil : horner s.gf x [] = 0 := rfl
    have hpar : parityOf s.gf np gen [] = List.replicate np 0 := rfl
    rw [hnil, hpar, horner_replicate_zero, zero_gmul, gmul_zero]
    rfl
  | append_singleton msg c ih =>
    have hmsg' : ∀ v ∈ msg, s.InRange v := fun v hv => hmsg v (by simp [hv])
    have hc : s.InRange c := hmsg c (by simp)
    have hlen : (parityOf s.gf np gen msg).length = np := length_parityOf _ _ _
    have hpar := h.inRange_parityOf hgen hmsg'
    have ht := (forall_getD_iff h.inRange_zero).mpr hpar 0
    obtain ⟨fs, hfslen, hfs, heq⟩ := ih hmsg'
    refine ⟨fs ++ [c ^^^ (parityOf s.gf np gen msg).getD 0 0], by simp [hfslen], ?_, fun x hx => ?_⟩
    · simpa [or_imp, forall_and] using ⟨hfs, h.inRange_lt (h.inRange_xor hc ht)⟩
    · have hone : gmul s.gf (gen np) (gpow s.gf x (np : Int)) = gpow s.gf x (np : Int) := by
        rw [hmonic, h.one_gmul (h.gpow_lt _)]
      have hstep := heq x hx
      rw [evalAt_succ, hone] at hstep ⊢
      rw [horner_concat, horner_concat, parityOf_concat, h.horner_encodeSymbol hgen hlen hpar hc hx]
      exact h.xor_division_step (h.horner_lt (fun v hv => h.inRange_lt (hmsg' v hv)) hx)
        (h.horner_lt (fun v hv => h.inRange_lt (hpar v hv)) hx)
        (h.evalAt_lt (fun j hj => h.inRange_lt (hgen j hj.le)) x) (h.gpow_lt _) (h.horner_lt hfs hx) hx
        (h.inRange_lt hc) (h.inRange_lt ht) hstep

end State.TablesBuilt

/-! ## The command -/

/-- The parity stands in the cells from CODE[K] up (R210). -/
theorem encode_rd_code (s : State) (j : Nat) :
    s.encode.rd .code j =
      if h : s.k ≤ j ∧ j < s.k + (parityOf s.gf s.np (s.rd .gen) (s.rdList .code s.k)).length then
        (parityOf s.gf s.np (s.rd .gen) (s.rdList .code s.k))[j - s.k]'(by omega)
      else s.rd .code j :=
  State.store_rd_same (s := s) (v := .code) j

/-- ENCODE leaves every cell but the NP parity cells (R210). -/
theorem encode_sameCells (hk : s.k + s.np = s.n) :
    s.SameCells s.encode fun w i => w = .code ∧ s.k ≤ i ∧ i < s.n := by
  refine ⟨fun w i hw => ?_, fun i => Memory.rdMinpoly_write _ _ _ _ _⟩
  by_cases hcode : w = .code
  · subst hcode
    rw [encode_rd_code, dif_neg fun hi => hw ⟨rfl, by rw [length_parityOf] at hi; omega⟩]
  · exact State.store_rd_other i hcode

/-- The codeword is the message and then its parity (R210, R213). -/
theorem encode_codeword (hk : s.k + s.np = s.n) :
    s.encode.codeword =
      s.rdList .code s.k ++ parityOf s.gf s.np (s.rd .gen) (s.rdList .code s.k) := by
  have hlist : (s.rdList .code s.k).length = s.k := s.mem.length_rdList .code s.k
  have hcode : s.encode.codeword.length = s.n := length_codeword s.encode
  refine List.ext_getElem (by rw [List.length_append, hlist, length_parityOf, hcode, hk]) fun j hj hj' => ?_
  have hcell : s.encode.codeword[j] = s.encode.rd .code j := Memory.getElem_rdList _ _ _ _ hj
  rw [hcell, encode_rd_code, List.getElem_append]
  by_cases hlt : j < s.k
  · rw [dif_neg (by omega), dif_pos (hlist.symm ▸ hlt)]
    exact (Memory.getElem_rdList _ _ _ _ _).symm
  · rw [List.length_append, hlist] at hj'
    rw [dif_pos ⟨by omega, hj'⟩, dif_neg (by omega)]
    simp only [hlist]

theorem encode_gf (s : State) : s.encode.gf = s.gf := State.store_gf (s := s) (v := .code) (by decide) (by decide)

namespace State.CodeReady

variable (h : s.CodeReady)
include h

theorem tablesBuilt : s.TablesBuilt := h.truthful.field h.field_ok

theorem generatorBuilt : s.GeneratorBuilt := (h.truthful.gen h.gen_ok).2

/-- The generator's coefficients are values, and bits in BCH mode (R198). -/
theorem inRange_gen {j : Nat} (hj : j ≤ s.np) : s.InRange (s.rd .gen j) := by
  rw [h.generatorBuilt.gen j hj]
  cases hb : s.cfgBch with
  | false =>
    rw [inRange_rs hb, generator_rs hb]
    exact h.tablesBuilt.valueList_rsGenerator s.nr j
  | true =>
    rw [inRange_bch hb, toNat_le_one_iff, generator_bch hb]
    exact bchGenerator_binary (highestBit_minpolys (h.generatorBuilt.minpoly_ok hb)) j

variable (hmsg : ∀ i, i < s.k → s.InRange (s.rd .code i))
include hmsg

theorem exec_encode : exec .encode s = .next s.encode.complete :=
  (finish_eq_next ..).mpr (.inr ⟨encodeCheck_ok h.field_ok h.gen_ok hmsg, rfl⟩)

/-- Every symbol of the codeword is in range, so no later check refuses it (R215). -/
theorem inRange_encode_codeword : ∀ v ∈ s.encode.codeword, s.InRange v := by
  have hlist := inRange_rdList hmsg
  rw [encode_codeword h.k_add_np]
  intro v hv
  rcases List.mem_append.mp hv with hv | hv
  · exact hlist v hv
  · exact h.tablesBuilt.inRange_parityOf (fun j hj => h.inRange_gen hj) hlist v hv

theorem inRange_encode_rd {j : Nat} (hj : j < s.n) : s.InRange (s.encode.rd .code j) :=
  h.inRange_encode_codeword hmsg _ (mem_rdList.mpr ⟨j, hj, rfl⟩)

/-- The codeword is the generator times a word of K symbols (R213). -/
theorem encode_codeword_divisible :
    ∃ fs : List Sym, fs.length = s.k ∧ (∀ v ∈ fs, v.toNat < s.q) ∧ ∀ x : Sym, x.toNat < s.q →
      horner s.gf x s.encode.codeword =
        gmul s.gf (evalAt s.gf (s.np + 1) (s.rd .gen) x) (horner s.gf x fs) := by
  have hlist := inRange_rdList hmsg
  have hT := h.tablesBuilt
  have hgen : ∀ j, j ≤ s.np → s.InRange (s.rd .gen j) := fun j hj => h.inRange_gen hj
  obtain ⟨fs, hlen, hfs, heq⟩ := hT.exists_quotient hgen h.generatorBuilt.monic hlist
  refine ⟨fs, by simpa [State.rdList] using hlen, hfs, fun x hx => ?_⟩
  rw [← heq x hx, encode_codeword h.k_add_np,
    hT.horner_append (fun v hv => hT.inRange_lt (hlist v hv))
      (fun v hv => hT.inRange_lt (hT.inRange_parityOf hgen hlist v hv)) hx, length_parityOf]

/-- Each target root is a root of the generator, and so of the codeword (R214). -/
theorem horner_encode_targetRoot {i : Nat} (hi : i < s.nr) : horner s.gf (s.targetRoot i) s.encode.codeword = 0 := by
  obtain ⟨fs, -, -, heq⟩ := h.encode_codeword_divisible hmsg
  have hroot := h.generatorBuilt.roots i hi
  rw [peval_rdList, ← State.targetRoot] at hroot
  rw [heq _ (h.tablesBuilt.targetRoot_lt i), hroot, zero_gmul]

end State.CodeReady

/-- When every syndrome of the codeword is 0, SYNDROMES writes zeros and counts none (R220). -/
theorem computeSyndromes_of_zero (hz : ∀ v ∈ syndromesOf s.gf s.nr s.fcr s.codeword, v = 0) :
    s.computeSyndromes.result = 0 ∧ ∀ i, i < s.nr → s.computeSyndromes.rd .syn i = 0 := by
  constructor
  · have hcount : (syndromesOf s.gf s.nr s.fcr s.codeword).countP (fun v => v != 0) = 0 :=
      List.countP_eq_zero.mpr fun v hv => by simp [hz v hv]
    exact congrArg (BitVec.ofNat 32) hcount
  · intro i hi
    have hlen : (syndromesOf s.gf s.nr s.fcr s.codeword).length = s.nr := length_syndromesOf _ _ _
    exact ((State.store_rd_same (s := s) (v := .syn) i).trans (dif_pos ⟨Nat.zero_le i, by omega⟩)).trans
      (hz _ (List.getElem_mem _))

/-! ## The obligations -/

/-- Settles O25: Horner's method on the codeword is the evaluation of its coefficients counted from the end. -/
theorem encodedWordIsDivisible : Obligations.EncodedWordIsDivisible := by
  intro s h hmsg
  have hT := h.tablesBuilt
  obtain ⟨fs, hlen, hfs, heq⟩ := h.encode_codeword_divisible hmsg
  have hword : ∀ v ∈ s.encode.codeword, v.toNat < s.q := fun v hv =>
    hT.inRange_lt (h.inRange_encode_codeword hmsg v hv)
  refine ⟨s.encode.complete, h.exec_encode hmsg, encode_sameCells h.k_add_np, rfl,
    fun j _ hj => hT.inRange_lt (h.inRange_encode_rd hmsg hj), fun j => fs.getD (s.k - 1 - j) 0,
    fun j => (forall_getD_iff hT.zero_lt).mpr hfs _, fun x hx => ?_⟩
  have hquot := hT.horner_eq_evalAt hfs hx
  have hcode := hT.horner_eq_evalAt hword hx
  have hn : s.encode.codeword.length = s.n := length_codeword s.encode
  rw [hlen] at hquot
  rw [hn] at hcode
  rw [← hquot, ← heq x hx, hcode]
  have hcell : ∀ j, j < s.n → s.encode.codeword.getD j 0 = s.encode.rd .code j := fun j hj =>
    Memory.getD_rdList s.encode.mem .code hj
  exact evalAt_congr (fun j hj => (hcell _ (by omega)).symm) x

/-- Settles O26: every target root is a root of the generator, so of the codeword, whose symbols pass the checks. -/
theorem encodedWordHasZeroSyndromes : Obligations.EncodedWordHasZeroSyndromes := by
  intro s h hmsg
  have hzero : ∀ v ∈ syndromesOf s.encode.gf s.nr s.fcr s.encode.codeword, v = 0 := by
    rw [encode_gf, syndromesOf, List.forall_mem_map]
    exact fun i hi => h.horner_encode_targetRoot hmsg (List.mem_range.mp hi)
  have hcheck : s.encode.complete.syndromesCheck = none :=
    syndromesCheck_ok h.field_ok h.gen_ok fun j hj => h.inRange_encode_rd hmsg hj
  obtain ⟨hresult, hsyn⟩ := computeSyndromes_of_zero (s := s.encode.complete) hzero
  exact ⟨s.encode.complete, s.encode.complete.computeSyndromes.complete, h.exec_encode hmsg,
    (finish_eq_next ..).mpr (.inr ⟨hcheck, rfl⟩), hresult, hsyn⟩

/-- Settles O27: in BCH mode the range of R201 is the bits. -/
theorem bchParityIsBinary : Obligations.BchParityIsBinary := by
  intro s t h hb hmsg ht j hj
  have hmsg' : ∀ i, i < s.k → s.InRange (s.rd .code i) := fun i hi => (inRange_bch hb _).mpr (hmsg i hi)
  rw [h.exec_encode hmsg'] at ht
  cases ht
  exact (inRange_bch hb _).mp (h.inRange_encode_rd hmsg' hj)

end Sys2Proof.Machine
end

section
/-! PROOFS. SYNDROMES (43_syndromes.md R220 to R222): the syndromes are the values of the received word at the target
roots, so they add up when words do, and those of a single error are powers of its locator. -/

namespace Sys2Proof.Machine

variable {s : State}

/-! ## Lists of symbols -/

/-- Adding words of one length adds their symbols. -/
theorem getD_zipWith_xor {w e : List Sym} (hlen : w.length = e.length) (j : Nat) :
    (List.zipWith (fun a b => a ^^^ b) w e).getD j 0 = w.getD j 0 ^^^ e.getD j 0 := by
  by_cases hj : j < w.length
  · rw [List.getD_eq_getElem _ _ (by simp; omega), List.getElem_zipWith, List.getD_eq_getElem _ _ hj,
      List.getD_eq_getElem _ _ (hlen ▸ hj)]
  · rw [List.getD_eq_default _ _ (by simp; omega), List.getD_eq_default _ _ (by omega),
      List.getD_eq_default _ _ (by omega)]
    rfl

/-- The word of a single error: the error at its position, 0 elsewhere. -/
theorem getD_single {n p : Nat} (hp : p < n) (v : Sym) (j : Nat) :
    ((List.replicate n 0).set p v).getD j 0 = if j = p then v else 0 := by
  by_cases hj : j = p
  · subst hj
    simp [hp]
  · rw [if_neg hj, List.getD_eq_getElem?_getD, List.getElem?_set_ne (Ne.symm hj),
      List.getElem?_getD_replicate_default_eq]

/-- A list stored from cell 0 changes the cells below its length only. -/
theorem sameCells_store_zero (s : State) (v : Win) (vs : List Sym) :
    s.SameCells (s.store v 0 vs) fun w j => w = v ∧ j < vs.length := by
  refine ⟨fun w j hw => ?_, fun j => Memory.rdMinpoly_write _ _ _ _ _⟩
  by_cases hv : w = v
  · subst hv
    exact (State.store_rd_same j).trans (dif_neg fun hj => hw ⟨rfl, by omega⟩)
  · exact State.store_rd_other j hv

/-! ## The syndrome function -/

theorem getD_syndromesOf (w : List Sym) {i : Nat} (hi : i < s.nr) :
    (syndromesOf s.gf s.nr s.fcr w).getD i 0 = horner s.gf (s.targetRoot i) w := by
  simp [syndromesOf, State.targetRoot, hi]

namespace State.TablesBuilt

variable (h : s.TablesBuilt)
include h

/-- The value at x of the sum of two words is the sum of their values. -/
theorem horner_xor {w e : List Sym} (hlen : w.length = e.length) (hw : ∀ v ∈ w, v.toNat < s.q)
    (he : ∀ v ∈ e, v.toNat < s.q) {x : Sym} (hx : x.toNat < s.q) :
    horner s.gf x (List.zipWith (fun a b => a ^^^ b) w e) = horner s.gf x w ^^^ horner s.gf x e := by
  have hw' := (forall_getD_iff h.zero_lt).mpr hw
  have he' := (forall_getD_iff h.zero_lt).mpr he
  have hsum : ∀ v ∈ List.zipWith (fun a b => a ^^^ b) w e, v.toNat < s.q :=
    (forall_getD_iff h.zero_lt).mp fun j => getD_zipWith_xor hlen j ▸ xor_lt (hw' j) (he' j)
  rw [h.horner_eq_evalAt hsum hx, h.horner_eq_evalAt hw hx, h.horner_eq_evalAt he hx, List.length_zipWith, ← hlen,
    Nat.min_self, ← h.evalAt_xor (fun _ _ => hw' _) (fun _ _ => he' _)]
  exact evalAt_congr (fun j _ => getD_zipWith_xor hlen _) x

/-- The value at x of a single error is its one term. -/
theorem horner_single {n p : Nat} (hp : p < n) {v x : Sym} (hv : v.toNat < s.q) (hx : x.toNat < s.q) :
    horner s.gf x ((List.replicate n 0).set p v) = gmul s.gf v (gpow s.gf x ((n - 1 - p : Nat) : Int)) := by
  have hword : ∀ u ∈ (List.replicate n 0).set p v, u.toNat < s.q :=
    (forall_getD_iff h.zero_lt).mp fun j => by
      rw [getD_single hp]
      split
      · exact hv
      · exact h.zero_lt
  rw [h.horner_eq hword hx, List.length_set, List.length_replicate, xorSum_single hp, getD_single hp, if_pos rfl]
  intro j _ hj
  rw [getD_single hp, if_neg hj, zero_gmul]

/-- Syndromes are linear (R222). -/
theorem syndromesOf_xor {w e : List Sym} (hlen : w.length = e.length) (hw : ∀ v ∈ w, v.toNat < s.q)
    (he : ∀ v ∈ e, v.toNat < s.q) :
    syndromesOf s.gf s.nr s.fcr (List.zipWith (fun a b => a ^^^ b) w e) =
      List.zipWith (fun a b => a ^^^ b) (syndromesOf s.gf s.nr s.fcr w) (syndromesOf s.gf s.nr s.fcr e) := by
  simp only [syndromesOf, List.zipWith_map, List.zipWith_self]
  exact List.map_congr_left fun i _ => h.horner_xor hlen hw he (h.targetRoot_lt i)

/-- A target root to the power of a position's place value is the position's locator to the power of the root's
exponent: both are pe to the product (00_scope.md R12). -/
theorem gpow_targetRoot {p : Nat} (hp : p < s.n) (i : Nat) :
    gpow s.gf (s.targetRoot i) ((s.n - 1 - p : Nat) : Int) =
      gpow s.gf (s.gf.pe ((s.n : Int) - 1 - (p : Int))) ((s.fcr + i : Nat) : Int) := by
  rw [State.targetRoot, h.gpow_pe, h.gpow_pe, mul_comm, show ((s.n - 1 - p : Nat) : Int) = s.n - 1 - p by omega]

end State.TablesBuilt

/-! ## The command -/

/-- SYN holds the syndromes of the codeword (R220). -/
theorem computeSyndromes_rdList (s : State) :
    s.computeSyndromes.rdList .syn s.nr = syndromesOf s.gf s.nr s.fcr s.codeword := by
  have hstore := State.store_rdList_same (s := s) (v := .syn) (vs := syndromesOf s.gf s.nr s.fcr s.codeword)
  rwa [length_syndromesOf] at hstore

theorem computeSyndromes_rd {i : Nat} (hi : i < s.nr) :
    s.computeSyndromes.rd .syn i = horner s.gf (s.targetRoot i) s.codeword := by
  rw [← getD_syndromesOf _ hi, ← computeSyndromes_rdList]
  exact (Memory.getD_rdList s.computeSyndromes.mem .syn hi).symm

/-- RESULT counts the nonzero cells of SYN, and 32 bits hold the count (R220). -/
theorem computeSyndromes_result (hnr : s.nr ≤ 256) :
    s.computeSyndromes.result.toNat = (List.range s.nr).countP fun i => s.computeSyndromes.rd .syn i != 0 := by
  have hcount : (List.range s.nr).countP (fun i => s.computeSyndromes.rd .syn i != 0) =
      (syndromesOf s.gf s.nr s.fcr s.codeword).countP (fun v => v != 0) := by
    rw [← computeSyndromes_rdList, State.rdList, Memory.rdList, List.countP_map]
    rfl
  have hle : (syndromesOf s.gf s.nr s.fcr s.codeword).countP (fun v => v != 0) ≤ s.nr :=
    List.countP_le_length.trans (length_syndromesOf ..).le
  rw [hcount]
  exact (BitVec.toNat_ofNat ..).trans (Nat.mod_eq_of_lt (by omega))

theorem computeSyndromes_sameCells (s : State) : s.SameCells s.computeSyndromes fun w i => w = .syn ∧ i < s.nr := by
  have hstore := sameCells_store_zero s .syn (syndromesOf s.gf s.nr s.fcr s.codeword)
  rwa [length_syndromesOf] at hstore

/-! ## The obligations -/

/-- Settles O28: Horner's method on the codeword is the sum of its terms. -/
theorem syndromesEvaluateTheCode : Obligations.SyndromesEvaluateTheCode := by
  intro s h hcode
  have hT := h.tablesBuilt
  have hword : ∀ v ∈ s.codeword, v.toNat < s.q := fun v hv => hT.inRange_lt (inRange_rdList hcode v hv)
  refine ⟨s.computeSyndromes.complete,
    (finish_eq_next ..).mpr (.inr ⟨syndromesCheck_ok h.field_ok h.gen_ok hcode, rfl⟩), fun i hi => ?_,
    computeSyndromes_result h.nr_le, computeSyndromes_sameCells s, rfl⟩
  rw [State.complete_rd, computeSyndromes_rd hi, hT.horner_eq hword (hT.targetRoot_lt i), length_codeword]
  exact xorSum_congr fun j hj => congrArg (gmul s.gf · _) (Memory.getD_rdList s.mem .code hj)

/-- Settles O29: evaluation is linear, and at a target root the one term of a single error is a power of its locator. -/
theorem syndromesAreLinear : Obligations.SyndromesAreLinear := by
  intro s h w e hwlen helen hw he
  refine ⟨h.syndromesOf_xor (hwlen.trans helen.symm) hw he, ?_⟩
  rintro p v hp hv rfl i hi
  rw [getD_syndromesOf _ hi, h.horner_single hp hv (h.targetRoot_lt i), h.gpow_targetRoot hp]

end Sys2Proof.Machine
end

section
/-! PROOFS. BM (44_berlekamp_massey.md R230 to R233): the erasure seed is the product of its linear factors, and every
step of the iteration keeps a locator of constant coefficient 1 and the bounds of its degree. -/

namespace Sys2Proof.Machine

variable {s : State}

/-! ## One factor of the erasure locator -/

/-- Cell j of C·(1 ⊕ X·x) (R231). -/
theorem getD_timesLocator (F : GF) (x : Sym) {c : List Sym} {j : Nat} (hj : j < c.length) :
    (timesLocator F x c).getD j 0 = c.getD j 0 ^^^ gmul F x ((0 :: c).getD j 0) := by
  have hj' : j < c.length + 1 := by omega
  simp [timesLocator, hj, hj']

/-! ## The erasure seed -/

theorem erasureSeed_concat (F : GF) (nr : Nat) (eras : List Nat) (p : Nat) :
    erasureSeed F nr (eras ++ [p]) =
      timesLocator F (F.pe ((F.n : Int) - 1 - (p : Int))) (erasureSeed F nr eras) := by
  simp [erasureSeed, List.foldl_append]

/-- Cell j of the seed with one more erasure (R231). -/
theorem getD_erasureSeed_concat (F : GF) {nr j : Nat} (hj : j ≤ nr) (eras : List Nat) (p : Nat) :
    (erasureSeed F nr (eras ++ [p])).getD j 0 =
      (erasureSeed F nr eras).getD j 0 ^^^
        gmul F (F.pe ((F.n : Int) - 1 - (p : Int))) ((0 :: erasureSeed F nr eras).getD j 0) := by
  rw [erasureSeed_concat, getD_timesLocator _ _ (by rw [length_erasureSeed]; omega)]

theorem getD_erasureSeed_beyond (F : GF) {nr j : Nat} (hj : nr < j) (eras : List Nat) :
    (erasureSeed F nr eras).getD j 0 = 0 :=
  List.getD_eq_default _ _ (by rw [length_erasureSeed]; omega)

/-- The seed before any erasure is the constant 1 (R231). -/
theorem getD_erasureSeed_nil (F : GF) (nr j : Nat) : (erasureSeed F nr []).getD j 0 = if j = 0 then 1 else 0 := by
  cases j with
  | zero => rfl
  | succ j =>
    rw [if_neg (Nat.succ_ne_zero j)]
    exact List.getElem?_getD_replicate_default_eq 0 nr j

theorem erasureSeed_constant (F : GF) (nr : Nat) (eras : List Nat) : (erasureSeed F nr eras).getD 0 0 = 1 := by
  induction eras using List.reverseRecOn with
  | nil => rfl
  | append_singleton eras p ih =>
    rw [getD_erasureSeed_concat F (Nat.zero_le nr), ih, List.getD_cons_zero, gmul_zero]
    rfl

/-- The seed's degree is at most the number of erasures (R231). -/
theorem getD_erasureSeed_above (F : GF) (nr : Nat) (eras : List Nat) {j : Nat} (hj : eras.length < j) :
    (erasureSeed F nr eras).getD j 0 = 0 := by
  induction eras using List.reverseRecOn generalizing j with
  | nil => rw [getD_erasureSeed_nil, if_neg (Nat.ne_zero_of_lt hj)]
  | append_singleton eras p ih =>
    rw [List.length_append, List.length_singleton] at hj
    obtain ⟨k, rfl⟩ := Nat.exists_eq_add_one.mpr (Nat.zero_lt_of_lt hj)
    by_cases hk : k + 1 ≤ nr
    · rw [getD_erasureSeed_concat F hk, ih (by omega), List.getD_cons_succ, ih (by omega), gmul_zero]
      rfl
    · exact getD_erasureSeed_beyond F (by omega) _

/-- The factor 1 ⊕ X·x of the erasure at position p, X = pe^(N-1-p), at x (R231). -/
def State.erasureFactor (s : State) (x : Sym) (p : Nat) : Sym :=
  1 ^^^ gmul s.gf (s.gf.pe ((s.n : Int) - 1 - (p : Int))) x

namespace State.TablesBuilt

variable (h : s.TablesBuilt)
include h

theorem valueList_erasureSeed (nr : Nat) (eras : List Nat) : s.ValueList (erasureSeed s.gf nr eras) := by
  induction eras using List.reverseRecOn with
  | nil =>
    intro j
    rw [getD_erasureSeed_nil]
    split
    · exact h.one_lt
    · exact h.zero_lt
  | append_singleton eras p ih =>
    intro j
    by_cases hj : j ≤ nr
    · rw [getD_erasureSeed_concat s.gf hj]
      exact xor_lt (ih j) (h.gmul_lt (h.pe_lt _) (h.valueList_zero_cons ih j))
    · rw [getD_erasureSeed_beyond s.gf (by omega)]
      exact h.zero_lt

/-- Moving a list up by one cell is the product by x. -/
theorem evalAt_zero_cons {n : Nat} {c : List Sym} (hc : s.ValueList c) {x : Sym} (hx : x.toNat < s.q) :
    evalAt s.gf (n + 1) (fun j => (0 :: c).getD j 0) x = gmul s.gf (evalAt s.gf n (fun j => c.getD j 0) x) x :=
  (h.evalAt_succ' (h.valueList_zero_cons hc) hx).trans BitVec.zero_xor

/-- The product by 1 ⊕ X·x, as a function of x: C's top cell is 0, so no coefficient is lost (R231). -/
theorem evalAt_timesLocator {nr : Nat} {c : List Sym} (hlen : c.length = nr + 1) (hc : s.ValueList c)
    (htop : c.getD nr 0 = 0) {r x : Sym} (hr : r.toNat < s.q) (hx : x.toNat < s.q) :
    evalAt s.gf (nr + 1) (fun j => (timesLocator s.gf r c).getD j 0) x =
      gmul s.gf (evalAt s.gf (nr + 1) (fun j => c.getD j 0) x) (1 ^^^ gmul s.gf r x) := by
  have hval := h.evalAt_lt (n := nr + 1) (fun j _ => hc j) x
  have hlow : evalAt s.gf nr (fun j => c.getD j 0) x = evalAt s.gf (nr + 1) (fun j => c.getD j 0) x := by
    rw [evalAt_succ, htop, zero_gmul]
    exact BitVec.xor_zero.symm
  rw [evalAt_congr fun j hj => getD_timesLocator s.gf r (hlen ▸ hj),
    h.evalAt_xor (fun j _ => hc j) fun j _ => h.gmul_lt hr (h.valueList_zero_cons hc j),
    h.evalAt_gmul hr fun j _ => h.valueList_zero_cons hc j, h.evalAt_zero_cons hc hx, hlow,
    h.gmul_xor hval h.one_lt (h.gmul_lt hr hx), h.gmul_one hval, gmul_comm s.gf r, h.gmul_assoc hval hx hr,
    gmul_comm s.gf x]

/-- The seed is the product of the factors of the erasures (R231). -/
theorem evalAt_erasureSeed {nr : Nat} {eras : List Nat} (hlen : eras.length ≤ nr) {x : Sym} (hx : x.toNat < s.q) :
    evalAt s.gf (nr + 1) (fun j => (erasureSeed s.gf nr eras).getD j 0) x =
      eras.foldl (fun v p => gmul s.gf v (s.erasureFactor x p)) 1 := by
  induction eras using List.reverseRecOn with
  | nil =>
    have hrest : xorSum nr (fun j => gmul s.gf ((erasureSeed s.gf nr []).getD (j + 1) 0)
        (gpow s.gf x ((j + 1 : Nat) : Int))) = 0 :=
      (xorSum_congr fun j _ => by rw [getD_erasureSeed_above _ _ _ (Nat.succ_pos j), zero_gmul]).trans
        (xorSum_const_zero nr)
    rw [evalAt, xorSum_succ', hrest, erasureSeed_constant, Nat.cast_zero, h.gpow_zero, h.gmul_one h.one_lt]
    rfl
  | append_singleton eras p ih =>
    rw [List.length_append, List.length_singleton] at hlen
    rw [erasureSeed_concat, h.evalAt_timesLocator (length_erasureSeed nr eras) (h.valueList_erasureSeed nr eras)
      (getD_erasureSeed_above _ _ _ (by omega)) (h.pe_lt _) hx, ih (by omega), List.foldl_append]
    rfl

end State.TablesBuilt

/-! ## The iteration -/

/-- What a step can do: nothing but count, correct C and take over as B, or correct C only (R232). -/
theorem bmStep_cases (F : GF) (nr : Nat) (syn : List Sym) (f : Nat) (r : BMRun) (n : Nat) :
    (discrepancy F syn r n = 0 ∧ bmStep F nr syn f r n = { r with gap := r.gap + 1 }) ∨
    (discrepancy F syn r n ≠ 0 ∧ 2 * r.len ≤ n + f ∧ bmStep F nr syn f r n =
      { c := corrected F nr r (discrepancy F syn r n), prev := r.c, len := n + f + 1 - r.len, gap := 1,
        disc := discrepancy F syn r n }) ∨
    (discrepancy F syn r n ≠ 0 ∧ n + f < 2 * r.len ∧ bmStep F nr syn f r n =
      { r with c := corrected F nr r (discrepancy F syn r n), gap := r.gap + 1 }) := by
  by_cases hd : discrepancy F syn r n = 0
  · exact .inl ⟨hd, if_pos hd⟩
  · by_cases hl : 2 * r.len ≤ n + f
    · exact .inr (.inl ⟨hd, hl, (if_neg hd).trans (if_pos hl)⟩)
    · exact .inr (.inr ⟨hd, Nat.lt_of_not_le hl, (if_neg hd).trans (if_neg hl)⟩)

/-- A correction leaves the cells below m alone, so the constant coefficient (R233). -/
theorem corrected_constant (F : GF) (nr : Nat) {r : BMRun} (hgap : 1 ≤ r.gap) (d : Sym) :
    (corrected F nr r d).getD 0 0 = r.c.getD 0 0 := by
  have hg : 0 < r.gap := hgap
  simp [corrected, hg]

/-- What holds of a run before step n (R233). -/
structure State.BmInvariant (s : State) (f n : Nat) (r : BMRun) : Prop where
  constant : r.c.getD 0 0 = 1
  values : s.ValueList r.c
  prev_values : s.ValueList r.prev
  one_le_gap : 1 ≤ r.gap
  le_len : f ≤ r.len
  len_le : r.len ≤ n

namespace State.TablesBuilt

variable (h : s.TablesBuilt)
include h

theorem valueList_corrected (nr : Nat) {r : BMRun} (hc : s.ValueList r.c) (hp : s.ValueList r.prev) (d : Sym) :
    s.ValueList (corrected s.gf nr r d) := by
  refine (forall_getD_iff (P := fun v => v.toNat < s.q) h.zero_lt).mpr ?_
  rw [corrected, List.forall_mem_map]
  intro i _
  split
  · exact hc i
  · rw [gfma_eq]
    exact xor_lt (h.gmul_lt h.gdiv_lt (hp _)) (hc i)

theorem bmStart_invariant (nr : Nat) (eras : List Nat) :
    s.BmInvariant eras.length eras.length (bmStart s.gf nr eras) where
  constant := erasureSeed_constant s.gf nr eras
  values := h.valueList_erasureSeed nr eras
  prev_values := h.valueList_erasureSeed nr eras
  one_le_gap := Nat.le_refl 1
  le_len := Nat.le_refl _
  len_le := Nat.le_refl _

/-- An update sets L' = n + f + 1 - L, between f and n + 1 because L is between f and n (R233). -/
theorem bmStep_invariant {nr f n : Nat} {syn : List Sym} {r : BMRun} (hr : s.BmInvariant f n r) :
    s.BmInvariant f (n + 1) (bmStep s.gf nr syn f r n) := by
  obtain ⟨hconst, hval, hprev, hgap, hle, hlen⟩ := hr
  have hconst' := fun d => (corrected_constant s.gf nr hgap d).trans hconst
  have hval' := h.valueList_corrected nr hval hprev
  obtain ⟨-, hstep⟩ | ⟨-, hl, hstep⟩ | ⟨-, -, hstep⟩ := bmStep_cases s.gf nr syn f r n
  · rw [hstep]
    exact ⟨hconst, hval, hprev, Nat.le_add_left _ _, hle, Nat.le_succ_of_le hlen⟩
  · rw [hstep]
    exact ⟨hconst' _, hval' _, hval, Nat.le_refl _, by dsimp only; omega, by dsimp only; omega⟩
  · rw [hstep]
    exact ⟨hconst' _, hval' _, hprev, Nat.le_add_left _ _, hle, Nat.le_succ_of_le hlen⟩

/-- The invariant after k steps from step f. -/
theorem bmSteps_invariant {nr f : Nat} {syn : List Sym} {r : BMRun} (hr : s.BmInvariant f f r) (k : Nat) :
    s.BmInvariant f (f + k) ((List.range' f k).foldl (bmStep s.gf nr syn f) r) := by
  induction k with
  | zero => exact hr
  | succ k ih =>
    rw [List.range'_1_concat, List.foldl_append]
    exact h.bmStep_invariant ih

theorem bmRun_invariant {nr : Nat} {eras : List Nat} (hlen : eras.length ≤ nr) (syn : List Sym) :
    s.BmInvariant eras.length nr (bmRun s.gf nr syn eras) := by
  have hinv := h.bmSteps_invariant (nr := nr) (syn := syn) (h.bmStart_invariant nr eras) (nr - eras.length)
  rwa [Nat.add_sub_cancel' hlen] at hinv

end State.TablesBuilt

/-- With NR erasures there is no iteration (R230). -/
theorem bmRun_full (F : GF) {nr : Nat} {eras : List Nat} (hlen : eras.length = nr) (syn : List Sym) :
    bmRun F nr syn eras = bmStart F nr eras := by
  rw [bmRun, hlen, Nat.sub_self]
  rfl

/-! ## The command -/

theorem erasures_eq_map (s : State) :
    s.erasures = (List.range s.neras.toNat).map fun e => (s.rd .eras e).toNat := by
  simp only [State.erasures, State.rdList, Memory.rdList, State.rd, List.map_map]
  rfl

theorem length_erasures (s : State) : s.erasures.length = s.neras.toNat := by simp [erasures_eq_map]

/-- BM's checks pass on erasures and syndromes in range (R230). -/
theorem bmCheck_ok (hf : s.fieldOk = true) (hg : s.genOk = true) (hcount : s.neras.toNat ≤ s.nr)
    (hpos : ∀ e, e < s.neras.toNat → (s.rd .eras e).toNat < s.n)
    (hsyn : ∀ i, i < s.nr → (s.rd .syn i).toNat < s.q) : s.bmCheck = none := by
  have hany : ((s.rdList .syn s.nr).any fun v => s.q ≤ v.toNat) = false := by
    rw [Bool.eq_false_iff, Ne, any_rdList_iff]
    rintro ⟨i, hi, hbad⟩
    exact Nat.not_lt.mpr hbad (hsyn i hi)
  rw [State.bmCheck, firstFault_pipelineCheck hf hg, erasureCheck_eq_none.mpr ⟨hcount, hpos⟩, firstFault_none, hany,
    faultIf_false]

/-- The run whose result BM stores (R230). -/
def State.bmResult (s : State) : BMRun := bmRun s.gf s.nr (s.rdList .syn s.nr) s.erasures

theorem length_bmResult (s : State) : s.bmResult.c.length = s.nr + 1 := length_bmRun _ _ _

/-- LAMBDA holds C (R230). -/
theorem solveLocator_rd {j : Nat} (hj : j ≤ s.nr) : s.solveLocator.rd .lambda j = s.bmResult.c.getD j 0 := by
  have hj' : j < s.bmResult.c.length := by rw [length_bmResult]; omega
  rw [List.getD_eq_getElem _ _ hj']
  exact (State.store_rd_same (s := s) (v := .lambda) j).trans (dif_pos ⟨Nat.zero_le j, by rwa [Nat.zero_add]⟩)

/-- BM leaves every cell but LAMBDA[0..NR] (R230). -/
theorem solveLocator_sameCells (s : State) : s.SameCells s.solveLocator fun w j => w = .lambda ∧ j ≤ s.nr := by
  have hstore := sameCells_store_zero s .lambda s.bmResult.c
  simp only [length_bmResult, Nat.lt_succ_iff] at hstore
  exact hstore

/-- DEG and RESULT hold L, which fits (R230). -/
theorem solveLocator_deg_result (hlen : s.bmResult.len ≤ 256) :
    s.solveLocator.deg.toNat = s.bmResult.len ∧ s.solveLocator.result.toNat = s.bmResult.len :=
  ⟨(BitVec.toNat_ofNat ..).trans (Nat.mod_eq_of_lt (hlen.trans_lt (by decide))),
    (BitVec.toNat_ofNat ..).trans (Nat.mod_eq_of_lt (hlen.trans_lt (by decide)))⟩

namespace State.CodeReady

variable (h : s.CodeReady) (hcount : s.neras.toNat ≤ s.nr)
include h hcount

theorem exec_bm (hpos : ∀ e, e < s.neras.toNat → (s.rd .eras e).toNat < s.n)
    (hsyn : ∀ i, i < s.nr → (s.rd .syn i).toNat < s.q) : exec .bm s = .next s.solveLocator.complete :=
  (finish_eq_next ..).mpr (.inr ⟨bmCheck_ok h.field_ok h.gen_ok hcount hpos hsyn, rfl⟩)

theorem bmResult_invariant : s.BmInvariant s.neras.toNat s.nr s.bmResult := by
  have hinv := h.tablesBuilt.bmRun_invariant ((length_erasures s).trans_le hcount) (s.rdList .syn s.nr)
  rwa [length_erasures] at hinv

theorem deg_result_eq_len :
    s.solveLocator.deg.toNat = s.bmResult.len ∧ s.solveLocator.result.toNat = s.bmResult.len :=
  solveLocator_deg_result ((h.bmResult_invariant hcount).len_le.trans h.nr_le)

end State.CodeReady

/-! ## The obligations -/

/-- Settles O30: the run's invariant, read off the cells and registers BM stores it in. -/
theorem bmAnswersALocator : Obligations.BmAnswersALocator := by
  intro s h hcount hpos hsyn r
  have hinv : s.BmInvariant s.neras.toNat s.nr r := h.bmResult_invariant hcount
  obtain ⟨hdeg, hresult⟩ := h.deg_result_eq_len hcount
  have hcell : ∀ j, j ≤ s.nr → s.solveLocator.rd .lambda j = r.c.getD j 0 := fun j hj => solveLocator_rd hj
  refine ⟨s.solveLocator.complete, h.exec_bm hcount hpos hsyn, ?_, ?_, hresult.trans hdeg.symm,
    (hcell 0 (Nat.zero_le _)).trans hinv.constant, fun j hj => ⟨?_, hcell j hj⟩, hdeg, solveLocator_sameCells s, rfl⟩
  · exact hdeg ▸ hinv.le_len
  · exact hdeg ▸ hinv.len_le
  · exact hcell j hj ▸ hinv.values j

/-- Settles O31: with as many erasures as NR the run is its start, whose C is the product over the erasures. -/
theorem fullErasureListGivesTheErasureLocator : Obligations.FullErasureListGivesTheErasureLocator := by
  intro s h hneras hpos hsyn
  have hcount : s.neras.toNat = s.nr := congrArg BitVec.toNat hneras
  have hlen : s.erasures.length = s.nr := (length_erasures s).trans hcount
  have hstart : s.bmResult = bmStart s.gf s.nr s.erasures := bmRun_full s.gf hlen _
  obtain ⟨hdeg, hresult⟩ := h.deg_result_eq_len hcount.le
  have hL : s.bmResult.len = s.nr := hstart ▸ hlen
  refine ⟨s.solveLocator.complete, h.exec_bm hcount.le (hcount ▸ hpos) hsyn, hdeg.trans hL, hresult.trans hL,
    fun x hx => ?_⟩
  have hcell : ∀ j, j < s.nr + 1 → s.solveLocator.complete.rd .lambda j =
      (erasureSeed s.gf s.nr s.erasures).getD j 0 := fun j hj => by
    rw [State.complete_rd, solveLocator_rd (Nat.le_of_lt_succ hj), hstart, bmStart]
  rw [evalAt_congr hcell, h.tablesBuilt.evalAt_erasureSeed hlen.le hx, erasures_eq_map, List.foldl_map, hcount]
  rfl

end Sys2Proof.Machine
end

section
/-! PROOFS. ROOTS (45_roots.md R250 to R257): the exact degree, the search over the positions as a sorted list without
gaps, and what the command stores of the two. -/

namespace Sys2Proof.Machine

variable {s : State}

/-! ## The exact degree (R252) -/

theorem trim_eq_zero_or (lam : Nat → Sym) (d : Nat) : trim lam d = 0 ∨ lam (trim lam d) ≠ 0 := by
  induction d with
  | zero => exact .inl rfl
  | succ d ih =>
    unfold trim
    split
    · exact ih
    · exact .inr ‹_›

/-- The coefficients trimmed off are zero. -/
theorem eq_zero_of_trim_lt {lam : Nat → Sym} {d j : Nat} (hj : trim lam d < j) (hd : j ≤ d) : lam j = 0 := by
  induction d with
  | zero => omega
  | succ d ih =>
    unfold trim at hj
    split at hj
    · obtain rfl | hlt := Nat.eq_or_lt_of_le hd
      · assumption
      · exact ih hj (Nat.le_of_lt_succ hlt)
    · omega

theorem trim_of_ne_zero {lam : Nat → Sym} {d : Nat} (h : lam (d + 1) ≠ 0) : trim lam (d + 1) = d + 1 := if_neg h

/-! ## The search (R250, R253) -/

section search

variable {F : GF} {lam : List Sym} {d : Nat}

/-- The positions of all the roots, before the search stops (R250). -/
def allRootPositions (F : GF) (lam : List Sym) : List Nat :=
  (List.range F.n).filter fun p => peval F lam (rootOf F p) == 0

theorem rootPositions_eq_take (F : GF) (lam : List Sym) (d : Nat) :
    rootPositions F lam d = (allRootPositions F lam).take d := rfl

theorem allRootPositions_pairwise (F : GF) (lam : List Sym) : (allRootPositions F lam).Pairwise (· < ·) :=
  List.pairwise_lt_range.filter _

theorem mem_allRootPositions {p : Nat} : p ∈ allRootPositions F lam ↔ p < F.n ∧ peval F lam (rootOf F p) = 0 := by
  rw [allRootPositions, List.mem_filter, List.mem_range, beq_iff_eq]

/-- The search finds positions in ascending order. -/
theorem rootPositions_pairwise (F : GF) (lam : List Sym) (d : Nat) : (rootPositions F lam d).Pairwise (· < ·) :=
  (allRootPositions_pairwise F lam).sublist (List.take_sublist _ _)

/-- What the search finds are positions of roots. -/
theorem isRoot_of_mem_rootPositions {p : Nat} (h : p ∈ rootPositions F lam d) :
    p < F.n ∧ peval F lam (rootOf F p) = 0 := mem_allRootPositions.mp (List.mem_of_mem_take h)

/-- A root the search does not list comes after the d-th, where it stopped (R253). -/
theorem mem_rootPositions_or_after {p : Nat} (hp : p < F.n) (hroot : peval F lam (rootOf F p) = 0) :
    p ∈ rootPositions F lam d ∨
      (rootPositions F lam d).length = d ∧ ∀ r ∈ rootPositions F lam d, r < p := by
  have hsorted := allRootPositions_pairwise F lam
  have hmem := mem_allRootPositions.mpr ⟨hp, hroot⟩
  rw [← List.take_append_drop d (allRootPositions F lam), List.pairwise_append] at hsorted
  rw [← List.take_append_drop d (allRootPositions F lam), List.mem_append] at hmem
  refine hmem.imp_right fun hlate => ?_
  have hlong : d ≤ (allRootPositions F lam).length := by
    have hdrop := List.length_pos_of_mem hlate
    rw [List.length_drop] at hdrop
    omega
  exact ⟨List.length_take_of_le hlong, fun r hr => hsorted.2.2 r hr p hlate⟩

/-- A sorted list of at most d positions that holds every root and nothing else is what the search finds. -/
theorem rootPositions_eq {l : List Nat} (hlen : l.length ≤ d) (hl : l.Pairwise (· < ·))
    (hmem : ∀ p, p ∈ l ↔ p < F.n ∧ peval F lam (rootOf F p) = 0) : rootPositions F lam d = l := by
  have hall : allRootPositions F lam = l :=
    (allRootPositions_pairwise F lam).eq_of_mem_iff hl fun p => by rw [hmem, mem_allRootPositions]
  rw [rootPositions_eq_take, hall, List.take_of_length_le hlen]

end search

/-! ## The command -/

/-- ROOTS' checks pass on a degree and coefficients in range (R250). -/
theorem rootsCheck_ok (hf : s.fieldOk = true) (hg : s.genOk = true) (hdeg : s.deg.toNat ≤ s.nr)
    (hlam : ∀ j, j ≤ s.deg.toNat → (s.rd .lambda j).toNat < s.q) : s.rootsCheck = none := by
  have hany : ((s.rdList .lambda (s.deg.toNat + 1)).any fun v => s.q ≤ v.toNat) = false := by
    rw [Bool.eq_false_iff, Ne, any_rdList_iff]
    rintro ⟨j, hj, hbad⟩
    exact Nat.not_lt.mpr hbad (hlam j (Nat.le_of_lt_succ hj))
  rw [State.rootsCheck, firstFault_pipelineCheck hf hg, firstFault_faultIf_of_ok (decide_eq_false (by omega)), hany,
    faultIf_false]

theorem exec_roots (hf : s.fieldOk = true) (hg : s.genOk = true) (hdeg : s.deg.toNat ≤ s.nr)
    (hlam : ∀ j, j ≤ s.deg.toNat → (s.rd .lambda j).toNat < s.q) : exec .roots s = .next s.findRoots.complete :=
  (finish_eq_next ..).mpr (.inr ⟨rootsCheck_ok hf hg hdeg hlam, rfl⟩)

/-- The exact degree of the locator in LAMBDA[0..DEG] (R252). -/
def State.exactDeg (s : State) : Nat := trim (s.rd .lambda) s.deg.toNat

/-- The positions ROOTS finds (R250). -/
def State.rootsFound (s : State) : List Nat :=
  rootPositions s.gf (s.rdList .lambda (s.exactDeg + 1)) s.exactDeg

/-- Position p belongs to a root of the locator (R250). -/
def State.IsRootAt (s : State) (p : Nat) : Prop :=
  evalAt s.gf (s.exactDeg + 1) (s.rd .lambda) (rootOf s.gf p) = 0

theorem isRootAt_iff (p : Nat) :
    s.IsRootAt p ↔ peval s.gf (s.rdList .lambda (s.exactDeg + 1)) (rootOf s.gf p) = 0 := by
  rw [peval_rdList, State.IsRootAt]

theorem exactDeg_le (s : State) : s.exactDeg ≤ s.deg.toNat := trim_le _ _

theorem length_rootsFound_le (s : State) : s.rootsFound.length ≤ s.exactDeg := length_rootPositions_le _ _

theorem isRootAt_of_mem_rootsFound {p : Nat} (h : p ∈ s.rootsFound) : p < s.n ∧ s.IsRootAt p :=
  (isRoot_of_mem_rootPositions h).imp_right (isRootAt_iff p).mpr

/-- With a locator of constant coefficient 1, ROOTS stores the positions found, the exact degree and the count. -/
theorem findRoots_eq (hone : s.rd .lambda 0 = 1) : s.findRoots =
    { s.store .loc 0 (s.rootsFound.map (BitVec.ofNat 16)) with
      deg := BitVec.ofNat 16 s.exactDeg, loccnt := BitVec.ofNat 16 s.rootsFound.length,
      result := BitVec.ofNat 32 s.rootsFound.length } := if_neg (not_not_intro hone)

/-- LOC[k] is the k-th position found, which 16 bits hold (R250). -/
theorem findRoots_loc (hone : s.rd .lambda 0 = 1) (hn : s.n ≤ 65535) {k p : Nat} (hk : s.rootsFound[k]? = some p) :
    (s.findRoots.rd .loc k).toNat = p := by
  have hp : p < s.n := (isRootAt_of_mem_rootsFound (List.mem_of_getElem? hk)).1
  have hlist : (s.rootsFound.map (BitVec.ofNat 16))[k]? = some (BitVec.ofNat 16 p) := by
    rw [List.getElem?_map, hk, Option.map_some]
  have hcell : s.findRoots.rd .loc k = BitVec.ofNat 16 p := by
    rw [findRoots_eq hone]
    exact store_rd_of_getElem? (s := s) (w := .loc) hlist
  rw [hcell, BitVec.toNat_ofNat, Nat.mod_eq_of_lt (by omega)]

/-- ROOTS leaves every cell but the first LOCCNT of LOC (R250). -/
theorem findRoots_sameCells (hone : s.rd .lambda 0 = 1) :
    s.SameCells s.findRoots fun w k => w = .loc ∧ k < s.rootsFound.length := by
  have hstore := sameCells_store_zero s .loc (s.rootsFound.map (BitVec.ofNat 16))
  rw [List.length_map] at hstore
  rw [findRoots_eq hone]
  exact hstore

/-- DEG, LOCCNT and RESULT hold the exact degree and the count whole. -/
theorem findRoots_registers (hone : s.rd .lambda 0 = 1) :
    s.findRoots.deg.toNat = s.exactDeg ∧ s.findRoots.loccnt.toNat = s.rootsFound.length ∧
      s.findRoots.result.toNat = s.rootsFound.length := by
  have hd := exactDeg_le s
  have hc := length_rootsFound_le s
  have h16 := s.deg.isLt
  rw [findRoots_eq hone]
  exact ⟨(BitVec.toNat_ofNat ..).trans (Nat.mod_eq_of_lt (by omega)),
    (BitVec.toNat_ofNat ..).trans (Nat.mod_eq_of_lt (by omega)),
    (BitVec.toNat_ofNat ..).trans (Nat.mod_eq_of_lt (by omega))⟩

/-! ## The obligations -/

/-- Settles O33: the checks pass, and the branch of R251 is the whole effect. -/
theorem rootsAnswersMinusOneOnABadConstant : Obligations.RootsAnswersMinusOneOnABadConstant := by
  intro s hf hg hdeg hlam hbad
  rw [exec_roots hf hg hdeg hlam, State.findRoots, if_pos hbad]
  rfl

/-- Settles O32: what is stored is the sorted list the search finds, cut at the exact degree. -/
theorem rootsFindsThePositions : Obligations.RootsFindsThePositions := by
  intro s h hdeg hlam hone
  refine ⟨s.findRoots.complete, exec_roots h.field_ok h.gen_ok hdeg hlam, ?_⟩
  obtain ⟨hd, hc, hresult⟩ := findRoots_registers hone
  have hloc : ∀ k (hk : k < s.rootsFound.length), (s.findRoots.rd .loc k).toNat = s.rootsFound[k] :=
    fun k hk => findRoots_loc hone h.n_le (List.getElem?_eq_getElem hk)
  have hsorted : s.rootsFound.Pairwise (· < ·) := rootPositions_pairwise _ _ _
  simp only [State.complete_deg, State.complete_loccnt, State.complete_result, State.complete_rd, hd, hc, hresult]
  refine ⟨exactDeg_le s, trim_eq_zero_or _ _, fun j => eq_zero_of_trim_lt, length_rootsFound_le s, trivial,
    fun k hk => ?_, fun k k' hkk hk' => ?_, fun p hp hd1 hroot => ?_, findRoots_sameCells hone, ?_⟩
  · rw [hloc k hk]
    exact isRootAt_of_mem_rootsFound (List.getElem_mem hk)
  · rw [hloc k (hkk.trans hk'), hloc k' hk']
    exact List.pairwise_iff_getElem.mp hsorted k k' _ _ hkk
  · obtain hmem | ⟨hlen, hafter⟩ := mem_rootPositions_or_after (d := s.exactDeg) hp ((isRootAt_iff p).mp hroot)
    · obtain ⟨k, hk, rfl⟩ := List.mem_iff_getElem.mp hmem
      exact .inl ⟨k, hk, hloc k hk⟩
    · have hlast : s.rootsFound.length - 1 < s.rootsFound.length := by rw [State.rootsFound, hlen]; omega
      exact .inr ⟨hlen, hloc _ hlast ▸ hafter _ (List.getElem_mem hlast)⟩
  · rw [findRoots_eq hone]
    rfl

end Sys2Proof.Machine
end

section
/-! PROOFS. The closed forms of ROOTS for the degrees 1 and 2 (45_roots.md R254 to R256): the nonzero values are the
roots of the positions, and the zeros of a locator of degree 1 or 2 are those the closed forms name. -/

namespace Sys2Proof.Machine

variable {s : State}

theorem one_xor_eq_zero_iff (v : Sym) : 1 ^^^ v = 0 ↔ v = 1 := BitVec.xor_eq_zero_iff.trans eq_comm

theorem ne_xor_one (v : Sym) : v ≠ v ^^^ 1 := fun he => by
  have hbit := congrArg (BitVec.getLsbD · 0) he
  simp at hbit

/-- The position whose root is x (R255). -/
def State.positionOf (s : State) (x : Sym) : Nat := (((s.logOf x : Int) - 1) % (s.n : Int)).toNat

/-- With x = k·z, k·b = a and c·a² = b, the quadratic 1 + a·x + b·x² is a·k·(c + z² + z), and a·k·c = 1. -/
theorem substituted_quadratic_eq_zero_iff {K : Type} [Field K] [CharP K 2] {a b k c z : K} (hb : b ≠ 0)
    (hk : k * b = a) (hc : c * (a * a) = b) :
    1 + a * (k * z) + b * ((k * z) * (k * z)) = 0 ↔ z * z + z = c := by
  have hone : c * (a * k) = 1 := mul_right_cancel₀ hb (by linear_combination hc + c * a * hk)
  have hak : a * k ≠ 0 := right_ne_zero_of_mul_eq_one hone
  have hfactor : 1 + a * (k * z) + b * ((k * z) * (k * z)) = a * k * (z * z + z + c) := by
    linear_combination k * z * z * hk - hone
  rw [hfactor, mul_eq_zero_iff_left hak, CharTwo.add_eq_zero]

namespace State.TablesBuilt

variable (h : s.TablesBuilt)
include h

/-! ## Values and positions -/

theorem logOf_pe (k : Int) : (s.logOf (s.gf.pe k) : Int) = k % (s.n : Int) := by
  have h3 := h.three_le_n
  have hk : 0 ≤ k % (s.n : Int) := Int.emod_nonneg _ (by omega)
  rw [h.pe_eq, h.logOf_power, Int.natCast_emod, Int.toNat_of_nonneg hk, Int.emod_emod]

theorem positionOf_pe (k : Int) : s.positionOf (s.gf.pe k) = ((k - 1) % (s.n : Int)).toNat := by
  rw [State.positionOf, h.logOf_pe, Int.emod_sub_emod]

/-- The position of a reciprocal, as R255 writes it. -/
theorem positionOf_ginv {a : Sym} (ha : a ≠ 0) (hq : a.toNat < s.q) :
    s.positionOf (ginv s.gf a) = (s.n - 1 - s.logOf a) % s.n := by
  have hlog := h.logOf_lt ha hq
  have hk : (s.n : Int) - s.logOf a - 1 = ((s.n - 1 - s.logOf a : Nat) : Int) := by omega
  refine (h.positionOf_pe ((s.n : Int) - s.logOf a)).trans ?_
  rw [hk, ← Int.natCast_emod, Int.toNat_natCast]

theorem positionOf_lt (x : Sym) : s.positionOf x < s.n := by
  have h3 := h.three_le_n
  have := Int.emod_lt_of_pos ((s.logOf x : Int) - 1) (b := (s.n : Int)) (by omega)
  rw [State.positionOf]
  omega

theorem positionOf_rootOf {p : Nat} (hp : p < s.n) : s.positionOf (rootOf s.gf p) = p := by
  rw [rootOf, h.positionOf_pe, Nat.cast_add, Nat.cast_one, Int.add_sub_cancel, ← Int.natCast_emod, Int.toNat_natCast,
    Nat.mod_eq_of_lt hp]

theorem rootOf_positionOf {x : Sym} (hx : x ≠ 0) (hq : x.toNat < s.q) : rootOf s.gf (s.positionOf x) = x := by
  have h3 := h.three_le_n
  have hpos : (s.positionOf x : Int) = ((s.logOf x : Int) - 1) % (s.n : Int) :=
    Int.toNat_of_nonneg (Int.emod_nonneg _ (by omega))
  rw [rootOf, Nat.cast_add, Nat.cast_one, hpos, h.pe_eq, Int.emod_add_emod, Int.sub_add_cancel, ← h.pe_eq,
    h.pe_logOf hx hq]

theorem positionOf_inj {x y : Sym} (hx : x ≠ 0) (hxq : x.toNat < s.q) (hy : y ≠ 0) (hyq : y.toNat < s.q)
    (he : s.positionOf x = s.positionOf y) : x = y := by
  rw [← h.rootOf_positionOf hx hxq, he, h.rootOf_positionOf hy hyq]

theorem rootOf_lt (p : Nat) : (rootOf s.gf p).toNat < s.q := h.pe_lt _

/-! ## Square roots and quadratics -/

theorem gmul_eq_one_iff {a x : Sym} (ha : a ≠ 0) (hq : a.toNat < s.q) (hx : x.toNat < s.q) :
    gmul s.gf a x = 1 ↔ x = ginv s.gf a := by
  rw [gmul_comm, ← h.ginv_gmul ha hq]
  exact ⟨h.gmul_right_cancel hx h.ginv_lt ha hq, fun he => he ▸ rfl⟩

/-- N = 2^M - 1 is odd (R6). -/
theorem n_odd : s.n % 2 = 1 := by
  have hm := h.config.m_range.1
  have hq : 2 ^ s.cfgM.toNat = 2 * 2 ^ (s.cfgM.toNat - 1) := by rw [← pow_succ', Nat.sub_add_cancel (by omega)]
  have h4 := h.one_lt_q
  rw [State.q] at h4
  rw [State.n]
  omega

/-- The square root halves the logarithm modulo N (R154). -/
theorem exists_gsqrt_eq_power {a : Sym} (ha : a ≠ 0) (hq : a.toNat < s.q) :
    ∃ j, gsqrt s.gf a = s.power j ∧ (j + j) % s.n = s.logOf a := by
  have hlog : s.logOf a < s.n := h.logOf_lt ha hq
  have hodd := h.n_odd
  rw [gsqrt, if_neg ha]
  refine ⟨_, h.exp _ ?_, ?_⟩
  all_goals
    rw [show s.gf.log a = s.logOf a from rfl, show s.gf.n = s.n from rfl]
    split
  · omega
  · omega
  · rw [show s.logOf a / 2 + s.logOf a / 2 = s.logOf a by omega, Nat.mod_eq_of_lt hlog]
  · rw [show (s.logOf a + s.n) / 2 + (s.logOf a + s.n) / 2 = s.logOf a + s.n by omega, Nat.add_mod_right,
      Nat.mod_eq_of_lt hlog]

theorem gsqrt_lt {a : Sym} (ha : a ≠ 0) (hq : a.toNat < s.q) : (gsqrt s.gf a).toNat < s.q := by
  obtain ⟨j, hj, -⟩ := h.exists_gsqrt_eq_power ha hq
  exact hj ▸ h.power_lt j

/-- The square root squares to its value (R154). -/
theorem gsqrt_sq {a : Sym} (ha : a ≠ 0) (hq : a.toNat < s.q) : gmul s.gf (gsqrt s.gf a) (gsqrt s.gf a) = a := by
  obtain ⟨j, hj, hlog⟩ := h.exists_gsqrt_eq_power ha hq
  rw [hj, h.gmul_power_power, ← h.power_mod, hlog, h.power_logOf ha hq]

/-- Every value has one square root (R154). -/
theorem gmul_self_eq_iff {a x : Sym} (ha : a ≠ 0) (hq : a.toNat < s.q) (hx : x.toNat < s.q) :
    gmul s.gf x x = a ↔ x = gsqrt s.gf a := by
  let := h.field
  have := h.charP_two
  have hinj : ∀ u v : s.Value, gmul s.gf u.1 u.1 = gmul s.gf v.1 v.1 → u = v := fun u v huv =>
    CharTwo.sq_inj.mp (by rw [sq, sq]; exact Subtype.ext huv)
  refine ⟨fun he => ?_, fun he => he ▸ h.gsqrt_sq ha hq⟩
  exact congrArg Subtype.val (hinj ⟨x, hx⟩ ⟨_, h.gsqrt_lt ha hq⟩ (he.trans (h.gsqrt_sq ha hq).symm))

/-- The quadratic of a locator of degree 2 in the unknown z of x = k·z, k = a/b, is z² ⊕ z = c, c = b/a² (R256). -/
theorem quadratic_eq_zero_iff {a b k c z : Sym} (ha : a.toNat < s.q) (hb : b.toNat < s.q) (hk : k.toNat < s.q)
    (hc : c.toNat < s.q) (hz : z.toNat < s.q) (hb0 : b ≠ 0) (hkb : gmul s.gf k b = a)
    (hca : gmul s.gf c (gmul s.gf a a) = b) :
    1 ^^^ gmul s.gf a (gmul s.gf k z) ^^^ gmul s.gf b (gmul s.gf (gmul s.gf k z) (gmul s.gf k z)) = 0 ↔
      gmul s.gf z z ^^^ z = c := by
  let := h.field
  have := h.charP_two
  have hb0' : (⟨b, hb⟩ : s.Value) ≠ 0 := fun h0 => hb0 (congrArg Subtype.val h0)
  have key := substituted_quadratic_eq_zero_iff (K := s.Value) (a := ⟨a, ha⟩) (b := ⟨b, hb⟩) (k := ⟨k, hk⟩)
    (c := ⟨c, hc⟩) (z := ⟨z, hz⟩) hb0' (Subtype.ext hkb) (Subtype.ext hca)
  exact Subtype.ext_iff.symm.trans (key.trans Subtype.ext_iff)

/-- y and y ⊕ 1 have the same z² ⊕ z (R152). -/
theorem quadratic_xor_one {y : Sym} (hy : y.toNat < s.q) :
    gmul s.gf (y ^^^ 1) (y ^^^ 1) ^^^ (y ^^^ 1) = gmul s.gf y y ^^^ y := by
  let := h.field
  have := h.charP_two
  have hsame : quadraticHom s.Value (⟨y, hy⟩ + 1) = quadraticHom s.Value ⟨y, hy⟩ := by
    rw [map_add, quadraticHom_eq_zero_iff.mpr (.inr rfl), add_zero]
  exact (h.coe_quadraticHom _).symm.trans ((congrArg Subtype.val hsame).trans (h.coe_quadraticHom _))

/-- Whatever the solver answers is a solution (R152). -/
theorem solution_of_gqsolve {c y : Sym} (hc : c.toNat < s.q) (hsolve : gqsolve s.gf c = some y) :
    y.toNat < s.q ∧ gmul s.gf y y ^^^ y = c := by
  have htrace : gtrace s.gf c ≠ 1 := fun hone => by
    rw [(h.gqsolve_eq_none_iff hc).mpr hone] at hsolve
    cases hsolve
  have hzero := (h.gtrace_eq_zero_or_one hc).resolve_right htrace
  obtain ⟨z, hz, hbit, rfl⟩ := h.exists_even_solution ((h.exists_solution_iff hc).mpr hzero)
  rw [h.gqsolve_of_solution hz hbit] at hsolve
  cases hsolve
  exact ⟨hz, rfl⟩

/-- When the solver answers NONE there is no solution (R152). -/
theorem no_solution_of_gqsolve {c z : Sym} (hc : c.toNat < s.q) (hz : z.toNat < s.q)
    (hsolve : gqsolve s.gf c = none) : gmul s.gf z z ^^^ z ≠ c := fun hzc => by
  have hzero := (h.exists_solution_iff hc).mp ⟨z, hz, hzc⟩
  rw [(h.gqsolve_eq_none_iff hc).mp hsolve] at hzero
  exact absurd hzero (by decide)

/-! ## Locators of degree 1 and 2, as functions of x -/

section locator

variable {f : Nat → Sym} (hone : f 0 = 1) {x : Sym} (hx : x.toNat < s.q)
include hone hx

theorem evalAt_two : evalAt s.gf 2 f x = 1 ^^^ gmul s.gf (f 1) x := by
  rw [evalAt_succ, evalAt_succ, evalAt_zero, hone, Nat.cast_zero, h.gpow_zero, h.gmul_one h.one_lt, Nat.cast_one,
    h.gpow_one hx]
  rfl

theorem evalAt_three : evalAt s.gf 3 f x = 1 ^^^ gmul s.gf (f 1) x ^^^ gmul s.gf (f 2) (gmul s.gf x x) := by
  rw [evalAt_succ, h.evalAt_two hone hx, h.gpow_succ hx, Nat.cast_one, h.gpow_one hx]

/-- 0 is no zero of a polynomial of constant coefficient 1. -/
theorem ne_zero_of_evalAt_eq_zero {n : Nat} (hroot : evalAt s.gf (n + 1) f x = 0) : x ≠ 0 := by
  rintro rfl
  have hterm : ∀ j, gmul s.gf (f (j + 1)) (gpow s.gf 0 ((j + 1 : Nat) : Int)) = 0 := fun j => by
    rw [h.gpow_succ h.zero_lt, gmul_zero, gmul_zero]
  rw [evalAt, xorSum_succ', xorSum_congr fun j _ => hterm j, xorSum_const_zero, hone, Nat.cast_zero, h.gpow_zero,
    h.gmul_one h.one_lt] at hroot
  exact absurd hroot (by decide)

end locator

section zeros

variable {f : Nat → Sym} (hone : f 0 = 1) (x : Sym)
include hone

/-- The zero of a locator of degree 1 (R255). -/
theorem linear_zero_iff (hne : f 1 ≠ 0) (hq : (f 1).toNat < s.q) :
    x.toNat < s.q ∧ evalAt s.gf 2 f x = 0 ↔ x = ginv s.gf (f 1) := by
  refine (and_congr_right fun hx => ?_).trans (and_iff_right_of_imp fun he => he ▸ h.ginv_lt)
  rw [h.evalAt_two hone hx, one_xor_eq_zero_iff, h.gmul_eq_one_iff hne hq hx]

/-- The double zero of a locator of degree 2 with Λ1 = 0 (R256). -/
theorem square_zero_iff (hzero : f 1 = 0) (hne : f 2 ≠ 0) (hq : (f 2).toNat < s.q) :
    x.toNat < s.q ∧ evalAt s.gf 3 f x = 0 ↔ x = gsqrt s.gf (ginv s.gf (f 2)) := by
  have hinv : ginv s.gf (f 2) ≠ 0 := h.pe_ne_zero _
  refine (and_congr_right fun hx => ?_).trans (and_iff_right_of_imp fun he => he ▸ h.gsqrt_lt hinv h.ginv_lt)
  rw [h.evalAt_three hone hx, hzero, zero_gmul, show (1 : Sym) ^^^ 0 = 1 from rfl, one_xor_eq_zero_iff,
    h.gmul_eq_one_iff hne hq (h.gmul_lt hx hx), h.gmul_self_eq_iff hinv h.ginv_lt hx]

variable (h1 : f 1 ≠ 0) (hq1 : (f 1).toNat < s.q) (h2 : f 2 ≠ 0) (hq2 : (f 2).toNat < s.q)
include h1 hq1 h2 hq2

/-- The zeros of a locator of degree 2 are k·z for the solutions z of z² ⊕ z = c (R256). -/
theorem quadratic_zero_iff :
    x.toNat < s.q ∧ evalAt s.gf 3 f x = 0 ↔
      ∃ z : Sym, z.toNat < s.q ∧ gmul s.gf z z ^^^ z = gdiv s.gf (f 2) (gmul s.gf (f 1) (f 1)) ∧
        gmul s.gf (gdiv s.gf (f 1) (f 2)) z = x := by
  have hkb := h.gdiv_gmul hq1 h2 hq2
  have hk : gdiv s.gf (f 1) (f 2) ≠ 0 := fun h0 => h1 (by rw [← hkb, h0, zero_gmul])
  have hsq : gmul s.gf (f 1) (f 1) ≠ 0 := fun h0 => h1 (or_self_iff.mp ((h.gmul_eq_zero hq1 hq1).mp h0))
  have hzero : ∀ z : Sym, z.toNat < s.q → (evalAt s.gf 3 f (gmul s.gf (gdiv s.gf (f 1) (f 2)) z) = 0 ↔
      gmul s.gf z z ^^^ z = gdiv s.gf (f 2) (gmul s.gf (f 1) (f 1))) := fun z hz => by
    rw [h.evalAt_three hone (h.gmul_lt h.gdiv_lt hz), h.quadratic_eq_zero_iff hq1 hq2 h.gdiv_lt h.gdiv_lt hz h2 hkb
      (h.gdiv_gmul hq2 hsq (h.gmul_lt hq1 hq1))]
  constructor
  · rintro ⟨hx, hroot⟩
    have hxz : gmul s.gf (gdiv s.gf (f 1) (f 2)) (gdiv s.gf x (gdiv s.gf (f 1) (f 2))) = x := by
      rw [gmul_comm, h.gdiv_gmul hx hk h.gdiv_lt]
    exact ⟨_, h.gdiv_lt, (hzero _ h.gdiv_lt).mp (by rwa [hxz]), hxz⟩
  · rintro ⟨z, hz, hzc, rfl⟩
    exact ⟨h.gmul_lt h.gdiv_lt hz, (hzero z hz).mpr hzc⟩

/-- With one solution y, the zeros of the locator are k·y and k·(y ⊕ 1) (R256). -/
theorem quadratic_zero_iff_of_solution {y : Sym} (hy : y.toNat < s.q)
    (hyc : gmul s.gf y y ^^^ y = gdiv s.gf (f 2) (gmul s.gf (f 1) (f 1))) :
    x.toNat < s.q ∧ evalAt s.gf 3 f x = 0 ↔
      x = gmul s.gf (gdiv s.gf (f 1) (f 2)) y ∨ x = gmul s.gf (gdiv s.gf (f 1) (f 2)) (y ^^^ 1) := by
  rw [h.quadratic_zero_iff hone x h1 hq1 h2 hq2]
  constructor
  · rintro ⟨z, hz, hzc, rfl⟩
    exact (h.eq_or_eq_xor_one hz hy (hzc.trans hyc.symm)).imp (congrArg _) (congrArg _)
  · rintro (rfl | rfl)
    · exact ⟨y, hy, hyc, rfl⟩
    · exact ⟨y ^^^ 1, xor_lt hy h.one_lt, (h.quadratic_xor_one hy).trans hyc, rfl⟩

end zeros

end State.TablesBuilt

/-! ## From the zeros of the locator to the positions -/

/-- The positions found are those of the locator's zeros xs, in ascending order, when the degree allows for them all
(R250, R253). -/
theorem rootsFound_eq (h : s.TablesBuilt) (hone : s.rd .lambda 0 = 1) {xs : List Sym} {l : List Nat}
    (hxs : ∀ x, x ∈ xs ↔ x.toNat < s.q ∧ evalAt s.gf (s.exactDeg + 1) (s.rd .lambda) x = 0)
    (hlen : l.length ≤ s.exactDeg) (hl : l.Pairwise (· < ·)) (hperm : l.Perm (xs.map s.positionOf)) :
    s.rootsFound = l := by
  refine rootPositions_eq hlen hl fun p => ?_
  rw [hperm.mem_iff, List.mem_map, ← isRootAt_iff, State.IsRootAt]
  constructor
  · rintro ⟨x, hx, rfl⟩
    obtain ⟨hq, hroot⟩ := (hxs x).mp hx
    refine ⟨h.positionOf_lt x, ?_⟩
    rwa [h.rootOf_positionOf (h.ne_zero_of_evalAt_eq_zero hone hq hroot) hq]
  · rintro ⟨hp, hroot⟩
    exact ⟨rootOf s.gf p, (hxs _).mpr ⟨h.rootOf_lt p, hroot⟩, h.positionOf_rootOf hp⟩

/-- Two numbers in ascending order are the same two numbers. -/
theorem perm_min_max (a b : Nat) : [min a b, max a b].Perm [a, b] := by
  obtain hab | hba := Nat.le_total a b
  · rw [Nat.min_eq_left hab, Nat.max_eq_right hab]
  · rw [Nat.min_eq_right hba, Nat.max_eq_left hba]
    exact List.Perm.swap ..

/-- The exact degree is DEG when its coefficient is not 0 (R252). -/
theorem exactDeg_eq {d : Nat} (hdeg : s.deg.toNat = d + 1) (hne : s.rd .lambda (d + 1) ≠ 0) : s.exactDeg = d + 1 := by
  rw [State.exactDeg, hdeg, trim_of_ne_zero hne]

/-- The closed form of degree 1 is the reciprocal's position (R255). -/
theorem rootsFound_of_degree_one (h : s.TablesBuilt) (hone : s.rd .lambda 0 = 1) (hd : s.exactDeg = 1)
    (hne : s.rd .lambda 1 ≠ 0) (hq : (s.rd .lambda 1).toNat < s.q) :
    s.rootsFound = [s.positionOf (ginv s.gf (s.rd .lambda 1))] := by
  refine rootsFound_eq h hone (xs := [ginv s.gf (s.rd .lambda 1)]) (fun x => ?_) hd.ge
    (List.pairwise_singleton ..) (List.Perm.refl _)
  rw [List.mem_singleton, hd, h.linear_zero_iff hone x hne hq]

section degreeTwo

variable (h : s.TablesBuilt) (hone : s.rd .lambda 0 = 1) (hd : s.exactDeg = 2) (h2 : s.rd .lambda 2 ≠ 0)
  (hq2 : (s.rd .lambda 2).toNat < s.q)
include h hone hd h2 hq2

/-- The double root of R256. -/
theorem rootsFound_of_square (h1 : s.rd .lambda 1 = 0) :
    s.rootsFound = [s.positionOf (gsqrt s.gf (ginv s.gf (s.rd .lambda 2)))] := by
  refine rootsFound_eq h hone (xs := [gsqrt s.gf (ginv s.gf (s.rd .lambda 2))]) (fun x => ?_)
    (show 1 ≤ s.exactDeg by omega) (List.pairwise_singleton ..) (List.Perm.refl _)
  rw [List.mem_singleton, hd, h.square_zero_iff hone x h1 h2 hq2]

variable (h1 : s.rd .lambda 1 ≠ 0) (hq1 : (s.rd .lambda 1).toNat < s.q)
include h1 hq1

/-- No solution of R256's quadratic, no root. -/
theorem rootsFound_of_no_solution
    (hsolve : gqsolve s.gf (gdiv s.gf (s.rd .lambda 2) (gmul s.gf (s.rd .lambda 1) (s.rd .lambda 1))) = none) :
    s.rootsFound = [] := by
  refine rootsFound_eq h hone (xs := []) (fun x => ?_) (Nat.zero_le _) .nil (List.Perm.refl _)
  rw [hd, h.quadratic_zero_iff hone x h1 hq1 h2 hq2]
  refine iff_of_false List.not_mem_nil ?_
  rintro ⟨z, hz, hzc, -⟩
  exact h.no_solution_of_gqsolve h.gdiv_lt hz hsolve hzc

/-- The two roots of R256, in ascending order of position. -/
theorem rootsFound_of_solution {y : Sym}
    (hsolve : gqsolve s.gf (gdiv s.gf (s.rd .lambda 2) (gmul s.gf (s.rd .lambda 1) (s.rd .lambda 1))) = some y) :
    let p := s.positionOf (gmul s.gf (gdiv s.gf (s.rd .lambda 1) (s.rd .lambda 2)) y)
    let p' := s.positionOf (gmul s.gf (gdiv s.gf (s.rd .lambda 1) (s.rd .lambda 2)) (y ^^^ 1))
    s.rootsFound = [min p p', max p p'] := by
  intro p p'
  obtain ⟨hy, hyc⟩ := h.solution_of_gqsolve h.gdiv_lt hsolve
  have hzeros := fun x => h.quadratic_zero_iff_of_solution hone x h1 hq1 h2 hq2 hy hyc
  obtain ⟨hq, hroot⟩ := (hzeros _).mpr (.inl rfl)
  obtain ⟨hq', hroot'⟩ := (hzeros _).mpr (.inr rfl)
  have hx := h.ne_zero_of_evalAt_eq_zero hone hq hroot
  have hx' := h.ne_zero_of_evalAt_eq_zero hone hq' hroot'
  have hne : p ≠ p' := fun he => ne_xor_one y <| by
    have hk : gdiv s.gf (s.rd .lambda 1) (s.rd .lambda 2) ≠ 0 := fun h0 => hx (by rw [h0, zero_gmul])
    refine h.gmul_right_cancel hy (State.TablesBuilt.xor_lt hy h.one_lt) hk h.gdiv_lt ?_
    rw [gmul_comm, h.positionOf_inj hx hq hx' hq' he, gmul_comm]
  refine rootsFound_eq h hone (xs := [_, _]) (fun x => ?_) hd.ge (List.pairwise_pair.mpr (min_lt_max.mpr hne))
    (perm_min_max p p')
  rw [hd, hzeros x, List.mem_pair]

end degreeTwo

/-! ## The obligations -/

/-- Settles O34: the one zero of 1 ⊕ Λ1·x is the reciprocal of Λ1. -/
theorem rootsOfDegreeOneInClosedForm : Obligations.RootsOfDegreeOneInClosedForm := by
  intro s h hdeg hone hne hq
  have hT := h.tablesBuilt
  have hdeg1 : s.deg.toNat = 1 := congrArg BitVec.toNat hdeg
  have hd := exactDeg_eq hdeg1 hne
  have hfound := rootsFound_of_degree_one hT hone hd hne hq
  have hloc : (s.findRoots.rd .loc 0).toNat = s.positionOf (ginv s.gf (s.rd .lambda 1)) :=
    findRoots_loc hone h.n_le (by rw [hfound]; rfl)
  obtain ⟨hregd, hregc, hregr⟩ := findRoots_registers hone
  rw [hfound] at hregc hregr
  refine ⟨s.findRoots.complete, exec_roots h.field_ok h.gen_ok ?_ fun j hj => ?_, BitVec.eq_of_toNat_eq hregc,
    BitVec.eq_of_toNat_eq (hregd.trans hd), BitVec.eq_of_toNat_eq hregr,
    hloc.trans (hT.positionOf_ginv hne hq), hloc.symm⟩
  · exact hdeg1 ▸ h.generatorBuilt.nr_range.1
  · obtain rfl | rfl : j = 0 ∨ j = 1 := by omega
    · exact hone ▸ hT.one_lt
    · exact hq

/-- Settles O35: the zeros of 1 ⊕ Λ1·x ⊕ Λ2·x² are the double zero or k times the two solutions, if there are any. -/
theorem rootsOfDegreeTwoInClosedForm : Obligations.RootsOfDegreeTwoInClosedForm := by
  intro s h hdeg hnr hone hq1 hq2 h2 l1 l2 pos
  have hT := h.tablesBuilt
  have hdeg2 : s.deg.toNat = 2 := congrArg BitVec.toNat hdeg
  have hd := exactDeg_eq hdeg2 h2
  obtain ⟨hregd, hregc, hregr⟩ := findRoots_registers hone
  refine ⟨s.findRoots.complete, exec_roots h.field_ok h.gen_ok (hdeg2 ▸ hnr) fun j hj => ?_,
    BitVec.eq_of_toNat_eq (hregd.trans hd), BitVec.eq_of_toNat_eq ?_, fun h1 => ?_, fun h1 => ?_⟩
  · obtain rfl | rfl | rfl : j = 0 ∨ j = 1 ∨ j = 2 := by omega
    · exact hone ▸ hT.one_lt
    · exact hq1
    · exact hq2
  · rw [State.complete_result, State.complete_loccnt, BitVec.toNat_setWidth, hregr, hregc, Nat.mod_eq_of_lt]
    have := length_rootsFound_le s
    omega
  · have hfound := rootsFound_of_square hT hone hd h2 hq2 h1
    rw [hfound] at hregc
    exact ⟨BitVec.eq_of_toNat_eq hregc, findRoots_loc hone h.n_le (by rw [hfound]; rfl)⟩
  · split
    · rw [rootsFound_of_no_solution hT hone hd h2 hq2 h1 hq1 ‹_›] at hregc
      exact BitVec.eq_of_toNat_eq hregc
    · have hfound := rootsFound_of_solution hT hone hd h2 hq2 h1 hq1 ‹_›
      rw [hfound] at hregc
      exact ⟨BitVec.eq_of_toNat_eq hregc, findRoots_loc hone h.n_le (by rw [hfound]; rfl),
        findRoots_loc hone h.n_le (by rw [hfound]; rfl)⟩

end Sys2Proof.Machine
end

section
/-! PROOFS. FORNEY and APPLY (46_forney.md R270 to R273, R280): the stored lists read off as the sums they are, and the
corrections, one after another, as one sum per position. -/

namespace Sys2Proof.Machine

variable {s t u : State}

/-! ## Frames -/

theorem State.SameCells.mono {W W' : Win → Nat → Prop} (h : s.SameCells t W) (hW : ∀ w i, W w i → W' w i) :
    s.SameCells t W' :=
  ⟨fun w i hi => h.1 w i (mt (hW w i) hi), h.2⟩

theorem State.SameCells.trans {W : Win → Nat → Prop} (h : s.SameCells t W) (h' : t.SameCells u W) :
    s.SameCells u W :=
  ⟨fun w i hi => (h'.1 w i hi).trans (h.1 w i hi), fun i => (h'.2 i).trans (h.2 i)⟩

/-! ## The lists FORNEY stores -/

/-- The evaluator FORNEY stores in OMEGA (R271). -/
def State.evaluatorList (s : State) : List Sym := evaluator s.gf s.nr (s.rdList .syn s.nr) s.locator

/-- The magnitudes FORNEY stores in MAG (R273). -/
def State.magnitudeList (s : State) : List Sym :=
  s.locations.map (magnitude s.gf s.fcr s.evaluatorList s.locator)

/-- The locator's formal derivative at x, as a sum (R272). -/
def State.derivativeAt (s : State) (x : Sym) : Sym :=
  xorSum (s.deg.toNat + 1) fun j =>
    if j % 2 = 1 then gmul s.gf (s.rd .lambda j) (gpow s.gf x ((j - 1 : Nat) : Int)) else 0

theorem locations_eq_map (s : State) :
    s.locations = (List.range s.loccnt.toNat).map fun k => (s.rd .loc k).toNat := by
  simp only [State.locations, State.rdList, Memory.rdList, State.rd, List.map_map]
  rfl

theorem length_locator (s : State) : s.locator.length = s.deg.toNat + 1 := Memory.length_rdList ..

theorem length_evaluatorList (s : State) : s.evaluatorList.length = s.nr := length_evaluator ..

theorem length_magnitudeList (s : State) : s.magnitudeList.length = s.loccnt.toNat :=
  (List.length_map ..).trans (length_locations s)

/-- Each coefficient of the evaluator is a term of the product of the syndromes and the locator (R271). -/
theorem getD_evaluatorList {i : Nat} (hi : i < s.nr) : s.evaluatorList.getD i 0 =
    xorSum (min i s.deg.toNat + 1) fun j => gmul s.gf (s.rd .syn (i - j)) (s.rd .lambda j) := by
  have hsum : s.evaluatorList.getD i 0 = xorSum (min i (s.locator.length - 1) + 1) fun j =>
      gmul s.gf ((s.rdList .syn s.nr).getD (i - j) 0) (s.locator.getD j 0) := by
    simp [State.evaluatorList, evaluator, xorSum, hi]
  rw [hsum, length_locator, Nat.add_sub_cancel]
  refine xorSum_congr fun j hj => ?_
  have hsyn : (s.rdList .syn s.nr).getD (i - j) 0 = s.rd .syn (i - j) := Memory.getD_rdList _ _ (by omega)
  have hlam : s.locator.getD j 0 = s.rd .lambda j := Memory.getD_rdList _ _ (by omega)
  rw [hsyn, hlam]

/-- The odd coefficients, summed term by term (R272). -/
theorem derivative_eq_xorSum (F : GF) (lam : List Sym) (x : Sym) : derivative F lam x =
    xorSum lam.length fun j =>
      if j % 2 = 1 then gmul F (lam.getD j 0) (gpow F x ((j - 1 : Nat) : Int)) else 0 := by
  rw [derivative, numbered_eq_map_range, List.foldl_map, xorSum]
  congr 1
  funext t j
  split
  · rfl
  · exact BitVec.xor_zero.symm

theorem derivative_locator (s : State) (x : Sym) : derivative s.gf s.locator x = s.derivativeAt x := by
  rw [derivative_eq_xorSum, length_locator]
  refine xorSum_congr fun j hj => ?_
  rw [show s.locator.getD j 0 = s.rd .lambda j from Memory.getD_rdList _ _ hj]

/-! ## FORNEY's checks -/

/-- With counts and operands in range only the derivatives are left to check (R270). -/
theorem forneyCheck_inRange (hf : s.fieldOk = true) (hg : s.genOk = true) (hdeg : s.deg.toNat ≤ s.nr)
    (hcount : s.loccnt.toNat ≤ s.nr) (hsyn : ∀ i, i < s.nr → (s.rd .syn i).toNat < s.q)
    (hlam : ∀ j, j ≤ s.deg.toNat → (s.rd .lambda j).toNat < s.q)
    (hloc : ∀ k, k < s.loccnt.toNat → (s.rd .loc k).toNat < s.n) :
    s.forneyCheck = faultIf (someDerivativeZero s.gf s.locator s.locations) .zero := by
  rw [State.forneyCheck, firstFault_pipelineCheck hf hg, firstFault_faultIf_of_ok (by simp [hdeg, hcount]),
    firstFault_faultIf_of_ok]
  rw [Bool.eq_false_iff, Ne, Bool.or_eq_true, Bool.or_eq_true, State.locator, any_rdList_iff, any_rdList_iff,
    any_locations_iff]
  rintro ((⟨i, hi, hbad⟩ | ⟨j, hj, hbad⟩) | ⟨k, hk, hbad⟩)
  · exact Nat.not_lt.mpr hbad (hsyn i hi)
  · exact Nat.not_lt.mpr hbad (hlam j (Nat.le_of_lt_succ hj))
  · exact Nat.not_lt.mpr hbad (hloc k hk)

theorem someDerivativeZero_iff : someDerivativeZero s.gf s.locator s.locations = true ↔
    ∃ k, k < s.loccnt.toNat ∧ s.derivativeAt (rootOf s.gf (s.rd .loc k).toNat) = 0 := by
  simp [someDerivativeZero, locations_eq_map, derivative_locator]

/-! ## FORNEY's effect -/

/-- FORNEY writes the arrays and RESULT only (R270). -/
theorem evaluateMagnitudes_eq (s : State) :
    s.evaluateMagnitudes = { s with result := s.evaluateMagnitudes.result, mem := s.evaluateMagnitudes.mem } := by
  simp only [State.evaluateMagnitudes, State.store]

theorem evaluateMagnitudes_omega {i : Nat} (hi : i < s.nr) :
    s.evaluateMagnitudes.rd .omega i = s.evaluatorList.getD i 0 := by
  have hi' : i < s.evaluatorList.length := by rwa [length_evaluatorList]
  rw [List.getD_eq_getElem _ _ hi']
  exact (State.store_rd_other (s := s.store .omega 0 s.evaluatorList) (v := .mag) i (by decide)).trans
    (store_rd_of_getElem? (List.getElem?_eq_getElem hi'))

/-- MAG[k] is the magnitude at the k-th position, of the evaluator in OMEGA (R273). -/
theorem evaluateMagnitudes_mag {k : Nat} (hk : k < s.loccnt.toNat) :
    let x := rootOf s.gf (s.rd .loc k).toNat
    s.evaluateMagnitudes.rd .mag k = gmul s.gf (gpow s.gf x ((s.fcr : Int) - 1))
      (gdiv s.gf (evalAt s.gf s.nr (s.evaluateMagnitudes.rd .omega) x) (s.derivativeAt x)) := by
  intro x
  have hlist : s.magnitudeList[k]? =
      some (magnitude s.gf s.fcr s.evaluatorList s.locator (s.rd .loc k).toNat) := by
    simp [State.magnitudeList, locations_eq_map, hk]
  have hcell : s.evaluateMagnitudes.rd .mag k =
      magnitude s.gf s.fcr s.evaluatorList s.locator (s.rd .loc k).toNat :=
    store_rd_of_getElem? (s := s.store .omega 0 s.evaluatorList) (w := .mag) hlist
  rw [hcell, magnitude, derivative_locator, peval_eq_evalAt, length_evaluatorList,
    evalAt_congr fun i hi => (evaluateMagnitudes_omega hi).symm]

/-- RESULT counts the nonzero cells of MAG, and 32 bits hold the count (R270). -/
theorem evaluateMagnitudes_result : s.evaluateMagnitudes.result.toNat =
    (List.range s.loccnt.toNat).countP fun k => s.evaluateMagnitudes.rd .mag k != 0 := by
  have hlist : s.evaluateMagnitudes.rdList .mag s.loccnt.toNat = s.magnitudeList :=
    length_magnitudeList s ▸ State.store_rdList_same (s := s.store .omega 0 s.evaluatorList) (v := .mag)
  have hle : s.magnitudeList.countP (fun v => v != 0) ≤ s.loccnt.toNat :=
    List.countP_le_length.trans (length_magnitudeList s).le
  have hfits := s.loccnt.isLt
  have hcount : s.evaluateMagnitudes.result.toNat = s.magnitudeList.countP fun v => v != 0 :=
    (BitVec.toNat_ofNat (s.magnitudeList.countP fun v => v != 0) 32).trans (Nat.mod_eq_of_lt (by omega))
  rw [hcount, ← hlist, State.rdList, Memory.rdList, List.countP_map]
  rfl

theorem evaluateMagnitudes_sameCells (s : State) : s.SameCells s.evaluateMagnitudes fun w i =>
    (w = .omega ∧ i < s.nr) ∨ (w = .mag ∧ i < s.loccnt.toNat) := by
  have homega := sameCells_store_zero s .omega s.evaluatorList
  have hmag := sameCells_store_zero (s.store .omega 0 s.evaluatorList) .mag s.magnitudeList
  rw [length_evaluatorList] at homega
  rw [length_magnitudeList] at hmag
  exact (homega.mono fun _ _ => .inl).trans (hmag.mono fun _ _ => .inr)

/-! ## APPLY's checks -/

/-- APPLY's checks pass on positions and magnitudes in range (R280). -/
theorem applyCheck_ok (hf : s.fieldOk = true) (hg : s.genOk = true) (hcount : s.loccnt.toNat ≤ s.nr)
    (hin : ∀ k, k < s.loccnt.toNat → (s.rd .loc k).toNat < s.n ∧ s.InRange (s.rd .mag k)) :
    s.applyCheck = none := by
  have hany : (s.corrections.any fun c => s.n ≤ c.1 || !s.symbolOk c.2) = false := by
    rw [Bool.eq_false_iff, Ne, any_corrections_iff]
    rintro ⟨k, hk, hbad | hbad⟩
    · exact Nat.not_lt.mpr hbad (hin k hk).1
    · exact hbad (hin k hk).2
  rw [State.applyCheck, firstFault_pipelineCheck hf hg, firstFault_faultIf_of_ok (decide_eq_false (by omega)), hany,
    faultIf_false]

/-! ## APPLY's effect -/

theorem correctCell_rd_code (s : State) (c : Nat × Sym) (p : Nat) :
    (s.correctCell c).rd .code p = s.rd .code p ^^^ if c.1 = p then c.2 else 0 := by
  by_cases hp : c.1 = p
  · subst hp
    rw [if_pos rfl]
    exact (store_cell s .code c.1 _).1
  · rw [if_neg hp]
    exact ((store_cell s .code c.1 _).2.1 _ _ fun h => hp h.2.symm).trans BitVec.xor_zero.symm

/-- Each position receives the sum of the magnitudes listed for it, so a position listed twice receives both (R280). -/
theorem correctCells_rd_code (s : State) (n : Nat) (pos : Nat → Nat) (mag : Nat → Sym) (p : Nat) :
    (((List.range n).map fun k => (pos k, mag k)).foldl State.correctCell s).rd .code p =
      s.rd .code p ^^^ xorSum n fun k => if pos k = p then mag k else 0 := by
  induction n with
  | zero => exact BitVec.xor_zero.symm
  | succ n ih =>
    rw [List.range_succ, List.map_append, List.foldl_append, List.map_singleton, List.foldl_cons, List.foldl_nil,
      correctCell_rd_code, ih, xorSum_succ, BitVec.xor_assoc]

theorem correctCells_sameCells (s : State) (cs : List (Nat × Sym)) :
    s.SameCells (cs.foldl State.correctCell s) fun w i => w = .code ∧ ∃ c ∈ cs, c.1 = i :=
  List.foldlRecOn (motive := fun u => s.SameCells u fun w i => w = .code ∧ ∃ c ∈ cs, c.1 = i) cs _
    ⟨fun _ _ _ => rfl, fun _ => rfl⟩ fun u hu c hc =>
      hu.trans ((store_cell u .code c.1 _).2.mono fun _ _ ⟨hw, hi⟩ => ⟨hw, c, hc, hi.symm⟩)

theorem changedCount_rdList (s t : State) (n : Nat) : changedCount (s.rdList .code n) (t.rdList .code n) =
    (List.range n).countP fun p => t.rd .code p != s.rd .code p := by
  rw [changedCount, State.rdList, State.rdList, Memory.rdList, Memory.rdList, List.zip_map', List.countP_map]
  exact List.countP_congr fun p _ => by
    rw [Function.comp_apply, bne_comm]
    rfl

/-- APPLY writes the arrays and RESULT only (R280). -/
theorem applyCorrections_eq (s : State) :
    s.applyCorrections = { s with result := s.applyCorrections.result, mem := s.applyCorrections.mem } :=
  congrArg (fun t : State => { t with result := s.applyCorrections.result }) (correctCells_eq s s.corrections)

/-- The codeword after APPLY (R280). -/
theorem applyCorrections_rd_code (s : State) (p : Nat) : s.applyCorrections.rd .code p = s.rd .code p ^^^
    xorSum s.loccnt.toNat fun k => if (s.rd .loc k).toNat = p then s.rd .mag k else 0 := by
  have hcells := correctCells_rd_code s s.loccnt.toNat (fun k => (s.rd .loc k).toNat) (s.rd .mag) p
  rw [← corrections_eq_map] at hcells
  exact hcells

/-- RESULT counts the positions changed (R280). -/
theorem applyCorrections_result (s : State) : s.applyCorrections.result =
    BitVec.ofNat 32 ((List.range s.n).countP fun p => s.applyCorrections.rd .code p != s.rd .code p) :=
  congrArg (BitVec.ofNat 32) (changedCount_rdList s (s.corrections.foldl State.correctCell s) s.n)

theorem applyCorrections_sameCells (s : State) : s.SameCells s.applyCorrections fun w i =>
    w = .code ∧ ∃ k, k < s.loccnt.toNat ∧ (s.rd .loc k).toNat = i := by
  refine State.SameCells.mono (correctCells_sameCells s s.corrections) ?_
  rintro w i ⟨hw, c, hc, hi⟩
  rw [corrections_eq_map, List.mem_map] at hc
  obtain ⟨k, hk, rfl⟩ := hc
  exact ⟨hw, k, List.mem_range.mp hk, hi⟩

/-! ## The obligations -/

/-- Settles O36: once the operands are in range the derivatives alone decide between E_ZERO and the stored lists. -/
theorem forneyWritesTheMagnitudes : Obligations.ForneyWritesTheMagnitudes := by
  intro s h hdeg hcount hsyn hlam hloc root deriv
  have hcheck := forneyCheck_inRange h.field_ok h.gen_ok hdeg hcount hsyn hlam hloc
  refine ⟨fun hzero => ?_, fun hne => ?_⟩
  · rw [someDerivativeZero_iff.mpr hzero, faultIf_true] at hcheck
    exact finish_faulted hcheck
  · have hnone : someDerivativeZero s.gf s.locator s.locations = false := by
      rw [Bool.eq_false_iff, Ne, someDerivativeZero_iff]
      rintro ⟨k, hk, hzero⟩
      exact hne k hk hzero
    rw [hnone, faultIf_false] at hcheck
    exact ⟨s.evaluateMagnitudes.complete, (finish_eq_next ..).mpr (.inr ⟨hcheck, rfl⟩),
      fun i hi => (evaluateMagnitudes_omega hi).trans (getD_evaluatorList hi),
      fun k hk => evaluateMagnitudes_mag hk, evaluateMagnitudes_result, evaluateMagnitudes_sameCells s,
      congrArg State.complete (evaluateMagnitudes_eq s)⟩

/-- Settles O37: the corrections are one XOR after another, so each position receives the sum of its magnitudes. -/
theorem applyXorsTheMagnitudes : Obligations.ApplyXorsTheMagnitudes := by
  intro s hf hg hcount hin
  exact ⟨s.applyCorrections.complete, (finish_eq_next ..).mpr (.inr ⟨applyCheck_ok hf hg hcount hin, rfl⟩),
    fun p _ => applyCorrections_rd_code s p, applyCorrections_result s, applyCorrections_sameCells s,
    congrArg State.complete (applyCorrections_eq s)⟩

end Sys2Proof.Machine
end

section
/-! PROOFS. NOP and SRST (48_system.md R310, R311), the interrupt output (60_exceptions.md R330), and the reset input
(70_reset_and_hazards.md R350, R351). -/

namespace Sys2Proof.Machine

variable {s t : State}

/-! ## NOP and SRST -/

/-- NOP is the one command of opcode 0 (R113). -/
theorem eq_nop_of_opcodeOf_eq_zero {i : Instr} (h : (opcodeOf i).toNat = 0) : i = .nop := by
  cases i <;> simp [opcodeOf] at h ⊢

/-- Settles O7: a word of opcode 0 that decodes is NOP's own, which is 0. -/
theorem nopOnlyCompletes : Obligations.NopOnlyCompletes := by
  intro s
  refine ⟨rfl, fun c hop hc => ?_⟩
  cases hd : decode c with
  | error e => exact runWord_error hd
  | ok i =>
    obtain rfl := decodedWordIsItsEncoding c i hd
    rw [toNat_encode_mod] at hop
    obtain rfl := eq_nop_of_opcodeOf_eq_zero hop
    exact absurd rfl hc

/-- Settles O8: the state after SRST, whose CFG_M of 0 BUILD_FIELD refuses. -/
theorem srstResetsTheRegisters : Obligations.SrstResetsTheRegisters := by
  intro s
  exact ⟨s.resetRegisters.complete, rfl, rfl, statusWord_idle rfl, rfl,
    execBuildField_cfgM (s := s.resetRegisters.complete) (.inl Nat.zero_lt_two)⟩

/-! ## The interrupt output -/

/-- However a command ends, the engine is IDLE and DONE is set (R32, R322). -/
theorem CommandOutcome.completed (ho : CommandOutcome s t) : t.done = true ∧ t.isBusy = false := by
  cases ho <;> exact ⟨rfl, rfl⟩

/-- A completed word leaves the engine IDLE and DONE set, whether or not it is a command (R115). -/
theorem runWord_completed {c : Word} (h : runWord c s = .next t) : t.done = true ∧ t.isBusy = false := by
  unfold runWord at h
  split at h
  · exact (exec_outcome h).completed
  · cases h
    exact ⟨rfl, rfl⟩

/-- No accepted write sets DONE: CMD clears it, STATUS may clear it, and the others leave it (R34, R35). -/
theorem WriteOutcome.done (ho : WriteOutcome s t) (ht : t.done = true) : s.done = true := by
  cases ho with
  | command c => cases ht
  | status v =>
    rw [writeStatus_eq] at ht
    exact ((Bool.and_eq_true ..).mp ht).1
  | field _ hu | code _ hu | data _ hu => exact (congrArg State.done hu :).symm.trans ht

theorem hostAccess_done {x : Access} (h : (s.hostAccess x).done = true) : s.done = true := by
  obtain ⟨r, u, hx, hu⟩ := hostAccess_outcome s x
  rw [hx] at h
  rcases hu with rfl | ⟨hw, -, -⟩
  · exact h
  · exact hw.done h

/-- The reset input clears DONE or changes nothing (R350). -/
theorem driveReset_done {b : Bool} (h : (s.driveReset b).done = true) : s.done = true := by
  unfold State.driveReset at h
  split at h
  · cases h
  split at h
  · cases h
  · exact h

/-- Settles O52: completion is the one event that sets DONE, and each of the three writes clears DONE or IE. -/
theorem irqFollowsDoneAndEnable : Obligations.IrqFollowsDoneAndEnable := by
  refine ⟨fun _ => rfl, fun s t c h => ?_, fun _ _ => hostAccess_done, fun _ _ => driveReset_done,
    fun s v hb hr => ?_⟩
  · obtain ⟨hdone, hidle⟩ := runWord_completed h
    exact ⟨by rw [State.irq, hdone, Bool.true_and], hdone, hidle⟩
  · obtain ⟨hcmd, hstatus⟩ := commandAndStatusWrites s v hb hr
    have hctrl : s.hostAccess (.write 0x0000C 0) = { s with ie := false, response := some .okay } :=
      (registerWritesStoreOrAreRefused s 0 hb hr).1 (by decide)
    rw [hcmd, hstatus, hctrl]
    exact ⟨rfl, fun h1 => by simp [State.irq, h1], Bool.and_false _, rfl⟩

/-! ## The reset input -/

/-- While reset is asserted an access changes the port's answer only (R350). -/
theorem hostAccess_inReset (h : s.inReset = true) (x : Access) : s.hostAccess x = s.respond .error := if_pos h

/-- While reset is asserted any number of accesses change the port's answer only. -/
theorem hostAccesses_inReset (h : s.inReset = true) (xs : List Access) :
    xs.foldl State.hostAccess s = { s with response := (xs.foldl State.hostAccess s).response } :=
  List.foldlRecOn (motive := fun t : State => t = { s with response := t.response }) xs _ rfl fun t ht x _ => by
    rw [hostAccess_inReset ((congrArg State.inReset ht :).trans h)]
    exact (congrArg (State.respond · .error) ht :)

/-- Settles O53: the accesses of the reset leave it asserted, and its release gives the registers their reset values and
draws every cell anew. -/
theorem resetInputGivesTheResetState : Obligations.ResetInputGivesTheResetState := by
  intro s xs held t u
  have ht : t = { held with response := t.response } := hostAccesses_inReset rfl xs
  have hin : t.inReset = true := (congrArg State.inReset ht :)
  have hu : u = { t.resetRegisters.redraw with inReset := false } := if_pos hin
  have hagenda : t.agenda = s.agenda := (congrArg State.agenda ht :)
  have hdraws : t.draws = s.draws + 1 := (congrArg State.draws ht :)
  refine ⟨fun x => congrArg State.response (hostAccess_inReset hin x), ?_⟩
  rw [hu, ← hagenda]
  exact ⟨rfl, rfl, cells_drawn t.draws, rfl, by omega, rfl, rfl⟩

end Sys2Proof.Machine
end

section
/-! PROOFS. The stages of DECODE as states (47_decode.md R290, 70_reset_and_hazards.md R362): what the stage commands
leave when they are run one after another on a word in range. -/

namespace Sys2Proof.Machine

variable {s t x y : State}

/-! ## States that a stage command may leave -/

/-- `x` differs from `s` in BUSY, DONE and ERR and in the results of commands only. -/
def State.StageOf (s x : State) : Prop :=
  x = { s.withResults x with engine := x.engine, done := x.done, err := x.err }

/-- The code stays ready while the part of the state the flags vouch for is kept (R62). -/
theorem State.CodeReady.of_codeView (h : s.CodeReady) (hv : t.codeView = s.codeView) : t.CodeReady where
  field_ok := (congrArg State.fieldOk hv :).trans h.field_ok
  gen_ok := (congrArg State.genOk hv :).trans h.gen_ok
  truthful := h.truthful.of_codeView hv

namespace State.StageOf

theorem refl (s : State) : s.StageOf s := rfl

theorem congr {α : Type} (h : s.StageOf x) (f : State → α) :
    f x = f { s.withResults x with engine := x.engine, done := x.done, err := x.err } := congrArg f h

/-- One more command that writes results only. -/
theorem next (h : s.StageOf x) (hy : x.ResultsOnly y) : s.StageOf y.complete := by
  have herr : y.err = x.err := hy.congr State.err
  calc y.complete = (x.withResults y).complete := congrArg State.complete hy
    _ = { (s.withResults y).complete with err := x.err } := (h.congr fun z => (z.withResults y).complete :)
    _ = { (s.withResults y).complete with err := y.err } := by rw [herr]

variable (h : s.StageOf x)
include h

theorem codeView : x.codeView = s.codeView := (h.congr State.codeView :)
theorem gf : x.gf = s.gf := (h.congr State.gf :)
theorem q : x.q = s.q := (h.congr State.q :)
theorem n : x.n = s.n := (h.congr State.n :)
theorem nr : x.nr = s.nr := (h.congr State.nr :)
theorem fcr : x.fcr = s.fcr := (h.congr State.fcr :)
theorem cfgBch : x.cfgBch = s.cfgBch := (h.congr State.cfgBch :)
theorem neras : x.neras = s.neras := (h.congr State.neras :)
theorem erasures : x.erasures = s.erasures := (h.congr State.erasures :)
theorem inRange (v : Sym) : x.InRange v ↔ s.InRange v := iff_of_eq (h.congr (State.InRange · v) :)

theorem rd_eras (e : Nat) : x.rd .eras e = s.rd .eras e := (h.congr (State.rd · .eras e) :)

theorem codeReady (hs : s.CodeReady) : x.CodeReady := hs.of_codeView h.codeView

end State.StageOf

/-! ## The stages -/

/-- After SYNDROMES (R292). -/
def State.afterSyndromes (x : State) : State := x.computeSyndromes.complete

/-- After SYNDROMES and BM (R293). -/
def State.afterBm (x : State) : State := x.afterSyndromes.solveLocator.complete

/-- After SYNDROMES, BM and ROOTS (R294). -/
def State.afterRoots (x : State) : State := x.afterBm.findRoots.complete

/-- After SYNDROMES, BM, ROOTS and FORNEY (R295). -/
def State.afterForney (x : State) : State := x.afterRoots.evaluateMagnitudes.complete

/-- After all five stages (R297). -/
def State.afterApply (x : State) : State := x.afterForney.applyCorrections.complete

theorem computeSyndromes_resultsOnly (s : State) : s.ResultsOnly s.computeSyndromes := rfl
theorem solveLocator_resultsOnly (s : State) : s.ResultsOnly s.solveLocator := rfl
theorem evaluateMagnitudes_resultsOnly (s : State) : s.ResultsOnly s.evaluateMagnitudes := rfl

namespace State.StageOf

variable (h : s.StageOf x)
include h

theorem afterSyndromes : s.StageOf x.afterSyndromes := h.next (computeSyndromes_resultsOnly x)
theorem afterBm : s.StageOf x.afterBm := h.afterSyndromes.next (solveLocator_resultsOnly _)
theorem afterRoots : s.StageOf x.afterRoots := h.afterBm.next (findRoots_resultsOnly _)
theorem afterForney : s.StageOf x.afterForney := h.afterRoots.next (evaluateMagnitudes_resultsOnly _)
theorem afterApply : s.StageOf x.afterApply := h.afterForney.next (applyCorrections_resultsOnly _)

end State.StageOf

/-! ## What each stage leaves -/

theorem State.SameCells.complete {W : Win → Nat → Prop} (h : s.SameCells t W) : s.SameCells t.complete W := h

theorem afterSyndromes_frame (x : State) : x.SameCells x.afterSyndromes fun w i => w = .syn ∧ i < x.nr :=
  (computeSyndromes_sameCells x).complete

theorem afterBm_frame (x : State) : x.afterSyndromes.SameCells x.afterBm fun w j => w = .lambda ∧ j ≤ x.nr :=
  (solveLocator_sameCells x.afterSyndromes).complete

theorem afterForney_frame (x : State) : x.afterRoots.SameCells x.afterForney fun w i =>
    (w = .omega ∧ i < x.nr) ∨ (w = .mag ∧ i < x.afterRoots.loccnt.toNat) :=
  (State.StageOf.refl x).afterRoots.nr ▸ (evaluateMagnitudes_sameCells x.afterRoots).complete

theorem afterApply_frame (x : State) : x.afterForney.SameCells x.afterApply fun w i =>
    w = .code ∧ ∃ k, k < x.afterForney.loccnt.toNat ∧ (x.afterForney.rd .loc k).toNat = i :=
  (applyCorrections_sameCells x.afterForney).complete

/-! ## The checks on the way -/

/-- What DECODE's checks ask for (R290). -/
structure State.Decodable (s : State) : Prop where
  ready : s.CodeReady
  count : s.neras.toNat ≤ s.nr
  erased : ∀ e, e < s.neras.toNat → (s.rd .eras e).toNat < s.n
  code : ∀ p, p < s.n → s.InRange (s.rd .code p)

/-- What FORNEY's checks ask for, but for the derivatives (R270). -/
structure State.Located (s : State) : Prop where
  ready : s.CodeReady
  deg : s.deg.toNat ≤ s.nr
  count : s.loccnt.toNat ≤ s.nr
  syn : ∀ i, i < s.nr → (s.rd .syn i).toNat < s.q
  lambda : ∀ j, j ≤ s.deg.toNat → (s.rd .lambda j).toNat < s.q
  loc : ∀ k, k < s.loccnt.toNat → (s.rd .loc k).toNat < s.n

namespace State.Decodable

variable (h : x.Decodable)
include h

theorem exec_decode (clr novfy : Bool) :
    exec (.decode clr novfy) x = .next (State.runDecode clr novfy x).complete := by
  refine (finish_eq_next ..).mpr (.inr ⟨?_, rfl⟩)
  rw [State.decodeCheck, firstFault_pipelineCheck h.ready.field_ok h.ready.gen_ok,
    erasureCheck_eq_none.mpr ⟨h.count, h.erased⟩, firstFault_none, State.codeword, all_symbolOk_iff.mpr h.code,
    Bool.not_true, faultIf_false]

theorem exec_syndromes : exec .syndromes x = .next x.afterSyndromes :=
  (finish_eq_next ..).mpr (.inr ⟨syndromesCheck_ok h.ready.field_ok h.ready.gen_ok h.code, rfl⟩)

theorem codeword_lt : ∀ v ∈ x.codeword, v.toNat < x.q := fun v hv =>
  h.ready.tablesBuilt.inRange_lt (inRange_rdList h.code v hv)

/-- SYN takes values of the field (R220). -/
theorem afterSyndromes_syn_lt {i : Nat} (hi : i < x.nr) : (x.afterSyndromes.rd .syn i).toNat < x.q := by
  have hT := h.ready.tablesBuilt
  rw [State.afterSyndromes, State.complete_rd, computeSyndromes_rd hi]
  exact hT.horner_lt h.codeword_lt (hT.targetRoot_lt i)

theorem afterSyndromes_ready : x.afterSyndromes.CodeReady := (State.StageOf.refl x).afterSyndromes.codeReady h.ready

theorem afterSyndromes_erased {e : Nat} (he : e < x.neras.toNat) : (x.afterSyndromes.rd .eras e).toNat < x.n := by
  rw [(State.StageOf.refl x).afterSyndromes.rd_eras]
  exact h.erased e he

theorem exec_bm : exec .bm x.afterSyndromes = .next x.afterBm :=
  h.afterSyndromes_ready.exec_bm h.count (fun _ => h.afterSyndromes_erased) (fun _ => h.afterSyndromes_syn_lt)

/-- The run of BM on the syndromes (R293). -/
theorem bmResult_invariant : x.afterSyndromes.BmInvariant x.neras.toNat x.nr x.afterSyndromes.bmResult :=
  h.afterSyndromes_ready.bmResult_invariant h.count

theorem afterBm_deg : x.afterBm.deg.toNat = x.afterSyndromes.bmResult.len :=
  (h.afterSyndromes_ready.deg_result_eq_len h.count).1

theorem afterBm_deg_le : x.afterBm.deg.toNat ≤ x.nr := h.afterBm_deg ▸ h.bmResult_invariant.len_le

omit h in
theorem afterBm_lambda {j : Nat} (hj : j ≤ x.nr) : x.afterBm.rd .lambda j = x.afterSyndromes.bmResult.c.getD j 0 :=
  solveLocator_rd (s := x.afterSyndromes) hj

theorem afterBm_lambda_zero : x.afterBm.rd .lambda 0 = 1 :=
  (afterBm_lambda (Nat.zero_le _)).trans h.bmResult_invariant.constant

theorem afterBm_lambda_lt {j : Nat} (hj : j ≤ x.nr) : (x.afterBm.rd .lambda j).toNat < x.q := by
  rw [afterBm_lambda hj]
  exact h.bmResult_invariant.values j

theorem exec_roots : exec .roots x.afterBm = .next x.afterRoots := by
  have hb := (State.StageOf.refl x).afterBm
  refine Machine.exec_roots (hb.codeReady h.ready).field_ok (hb.codeReady h.ready).gen_ok ?_ fun j hj => ?_
  · exact h.afterBm_deg_le
  · exact h.afterBm_lambda_lt (hj.trans h.afterBm_deg_le)

theorem afterRoots_registers : x.afterRoots.deg.toNat = x.afterBm.exactDeg ∧
    x.afterRoots.loccnt.toNat = x.afterBm.rootsFound.length := by
  obtain ⟨hdeg, hcount, -⟩ := findRoots_registers h.afterBm_lambda_zero
  exact ⟨hdeg, hcount⟩

theorem afterRoots_frame : x.afterBm.SameCells x.afterRoots fun w k => w = .loc ∧ k < x.afterBm.rootsFound.length :=
  (findRoots_sameCells h.afterBm_lambda_zero).complete

/-- ROOTS leaves every array but LOC (R250). -/
theorem afterRoots_rd {w : Win} (hw : w ≠ .loc) (i : Nat) : x.afterRoots.rd w i = x.afterBm.rd w i :=
  h.afterRoots_frame.1 w i fun hc => hw hc.1

theorem afterRoots_loc {k p : Nat} (hk : x.afterBm.rootsFound[k]? = some p) : (x.afterRoots.rd .loc k).toNat = p :=
  findRoots_loc h.afterBm_lambda_zero ((State.StageOf.refl x).afterBm.codeReady h.ready).n_le hk

/-- The positions in LOC are those found (R250). -/
theorem afterRoots_locations : x.afterRoots.locations = x.afterBm.rootsFound := by
  refine List.ext_getElem ((length_locations _).trans h.afterRoots_registers.2) fun k hk hk' => ?_
  simp only [locations_eq_map, List.getElem_map, List.getElem_range]
  exact h.afterRoots_loc (List.getElem?_eq_getElem hk')

/-- The state before FORNEY passes all checks but that of the derivatives. -/
theorem afterRoots_located : x.afterRoots.Located := by
  have hc := (State.StageOf.refl x).afterRoots
  obtain ⟨hdeg, hcount⟩ := h.afterRoots_registers
  have hle := exactDeg_le x.afterBm
  have hfound := length_rootsFound_le x.afterBm
  have hbm := h.afterBm_deg_le
  refine ⟨hc.codeReady h.ready, by rw [hc.nr]; omega, by rw [hc.nr]; omega, fun i hi => ?_, fun j hj => ?_,
    fun k hk => ?_⟩
  · rw [hc.nr] at hi
    rw [hc.q, h.afterRoots_rd (by decide), (afterBm_frame x).1 .syn i (by simp)]
    exact h.afterSyndromes_syn_lt hi
  · rw [hc.q, h.afterRoots_rd (by decide)]
    exact h.afterBm_lambda_lt (by omega)
  · rw [hcount] at hk
    rw [hc.n, h.afterRoots_loc (List.getElem?_eq_getElem hk)]
    exact (isRootAt_of_mem_rootsFound (List.getElem_mem hk)).1

end State.Decodable

namespace State.Located

variable (h : t.Located)
include h

/-- FORNEY's one check left (R270). -/
theorem forneyCheck : t.forneyCheck = faultIf (someDerivativeZero t.gf t.locator t.locations) .zero :=
  forneyCheck_inRange h.ready.field_ok h.ready.gen_ok h.deg h.count h.syn h.lambda h.loc

theorem exec_forney (hne : someDerivativeZero t.gf t.locator t.locations = false) :
    exec .forney t = .next t.evaluateMagnitudes.complete :=
  (finish_eq_next ..).mpr (.inr ⟨by rw [h.forneyCheck, hne, faultIf_false], rfl⟩)

theorem exec_forney_zero (hzero : someDerivativeZero t.gf t.locator t.locations = true) :
    exec .forney t = .next (t.raiseFault .zero) :=
  (finish_eq_next ..).mpr (.inl ⟨.zero, by rw [h.forneyCheck, hzero, faultIf_true], rfl⟩)

end State.Located

end Sys2Proof.Machine
end

section
/-! PROOFS. DECODE as its stages (47_decode.md R290 to R299): each step of the orchestrator leaves the arrays as the stage
command leaves them, and the exits of R298's table are tests on what the stages leave. -/

namespace Sys2Proof.Machine

variable {s x : State} {novfy : Bool}

/-! ## The state of a running DECODE -/

/-- `s` with DEG, LOCCNT and every array but CODE as the stage state `x` has them (R298). -/
def State.withStages (s x : State) : State :=
  { s with
    deg := x.deg, loccnt := x.loccnt,
    mem := { s.mem with syn := x.mem.syn, lambda := x.mem.lambda, omega := x.mem.omega, loc := x.mem.loc,
                        mag := x.mem.mag } }

theorem State.StageOf.withStages_rd (h : s.StageOf x) {w : Win} (hw : w ≠ .code) (i : Nat) :
    (s.withStages x).rd w i = x.rd w i := by
  refine Eq.trans ?_ (h.congr (State.rd · w i) :).symm
  cases w with
  | code => exact absurd rfl hw
  | _ => rfl

/-! ## Lists of cells -/

theorem take_rdList (s : State) (w : Win) {k n : Nat} (h : k ≤ n) : (s.rdList w n).take k = s.rdList w k := by
  rw [State.rdList, Memory.rdList, ← List.map_take, List.take_range, Nat.min_eq_left h]
  rfl

theorem rdList_congr {t : State} {w : Win} {n : Nat} (h : ∀ i, i < n → s.rd w i = t.rd w i) :
    s.rdList w n = t.rdList w n := List.map_congr_left fun i hi => h i (List.mem_range.mp hi)

theorem store_nil (s : State) (w : Win) : s.store w 0 [] = s := by
  have hcells : Cells.write (s.mem.cells w) 0 [] = s.mem.cells w := by simp [Cells.write, numbered]
  have hmem : s.mem.write w 0 [] = s.mem := by
    rw [Memory.write, hcells]
    cases w <;> rfl
  rw [State.store, hmem]

theorem trim_congr {f g : Nat → Sym} {d : Nat} (h : ∀ j, j ≤ d → f j = g j) : trim f d = trim g d := by
  induction d with
  | zero => rfl
  | succ d ih => rw [trim, trim, h _ (Nat.le_refl _), ih fun j hj => h j (by omega)]

/-! ## ComputeLocator (R293) -/

/-- A locator of a degree up to NR is never refused. -/
theorem decodeLocate_eq (h : s.StageOf x) (hlen : x.bmResult.len ≤ s.nr) (orig w : List Sym) :
    (s.withStages x).decodeLocate novfy orig w (x.rdList .syn x.nr) =
      (s.withStages x.solveLocator.complete).decodeRoots novfy orig w (x.rdList .syn x.nr) x.bmResult.c
        x.bmResult.len := by
  have hrun : bmRun (s.withStages x).gf (s.withStages x).nr (x.rdList .syn x.nr) (s.withStages x).erasures =
      x.bmResult := by
    rw [State.bmResult, h.gf, h.nr, h.erasures]
    rfl
  rw [State.decodeLocate, hrun]
  exact if_neg (Nat.not_lt.mpr hlen)

/-! ## FindRoots (R294) -/

/-- There is no root to find, or fewer were found than the degree (R294, R299). -/
def State.rootsMissing (x : State) : Bool := x.deg == 0 || x.loccnt != x.deg

section roots

variable (hone : x.rd .lambda 0 = 1)
include hone

theorem findRoots_rd {w : Win} (hw : w ≠ .loc) (i : Nat) : x.findRoots.rd w i = x.rd w i :=
  (findRoots_sameCells hone).1 w i fun hc => hw hc.1

theorem findRoots_locator : x.findRoots.locator = x.rdList .lambda (x.exactDeg + 1) := by
  rw [State.locator, (findRoots_registers hone).1]
  exact rdList_congr fun i _ => findRoots_rd hone (by decide) i

theorem findRoots_rootsMissing :
    x.findRoots.complete.rootsMissing = true ↔ x.exactDeg = 0 ∨ x.rootsFound.length < x.exactDeg := by
  obtain ⟨hdeg, hcount, -⟩ := findRoots_registers hone
  have hle := length_rootsFound_le x
  simp only [State.rootsMissing, Bool.or_eq_true, beq_iff_eq, bne_iff_ne, ← BitVec.toNat_inj, State.complete_deg,
    State.complete_loccnt, hdeg, hcount, Ne]
  exact or_congr_right (by omega)

/-- Found or not, the positions are left as ROOTS leaves them. -/
theorem decodeRoots_eq (h : s.StageOf x) {m : Nat} (hm : x.deg.toNat ≤ m) (orig w syn : List Sym) :
    (s.withStages x).decodeRoots novfy orig w syn (x.rdList .lambda (m + 1)) x.deg.toNat =
      if x.findRoots.complete.rootsMissing then (s.withStages x.findRoots.complete).decodeFailure
      else (s.withStages x.findRoots.complete).decodeMagnitudes novfy orig w syn x.findRoots.complete.locator
        x.rootsFound := by
  have hcell : ∀ j, j ≤ m → (x.rdList .lambda (m + 1)).getD j 0 = x.rd .lambda j := fun j hj =>
    Memory.getD_rdList _ _ (Nat.lt_succ_of_le hj)
  have htrim : trim (fun j => (x.rdList .lambda (m + 1)).getD j 0) x.deg.toNat = x.exactDeg :=
    trim_congr fun j hj => hcell j (hj.trans hm)
  have htake : (x.rdList .lambda (m + 1)).take (x.exactDeg + 1) = x.findRoots.locator := by
    have hd := exactDeg_le x
    rw [take_rdList _ _ (by omega), findRoots_locator hone]
  have hstages : s.withStages x.findRoots.complete =
      { (s.withStages x).store .loc 0 (x.rootsFound.map (BitVec.ofNat 16)) with
        deg := BitVec.ofNat 16 x.exactDeg, loccnt := BitVec.ofNat 16 x.rootsFound.length } := by
    rw [findRoots_eq hone]
    rfl
  have hps : rootPositions (s.withStages x).gf x.findRoots.locator x.exactDeg = x.rootsFound := by
    rw [State.rootsFound, findRoots_locator hone, h.gf]
    rfl
  have hmissing := findRoots_rootsMissing hone
  unfold State.decodeRoots
  rw [if_neg (not_not_intro ((hcell 0 (Nat.zero_le m)).trans hone))]
  dsimp only
  rw [htrim, htake, hps, hstages, State.complete_locator]
  by_cases h0 : x.exactDeg = 0
  · have hnil : x.rootsFound = [] := List.eq_nil_of_length_eq_zero (by have := length_rootsFound_le x; omega)
    rw [if_pos h0, if_pos (hmissing.mpr (.inl h0)), hnil, List.map_nil, store_nil]
    rfl
  · rw [if_neg h0]
    by_cases hlt : x.rootsFound.length < x.exactDeg
    · rw [if_pos hlt, if_pos (hmissing.mpr (.inr hlt))]
      rfl
    · rw [if_neg hlt, if_neg (by rw [hmissing]; omega)]
      rfl

end roots

/-! ## ComputeMagnitudes (R295, R296) -/

/-- In BCH mode a magnitude is no bit (R296). -/
def State.magnitudeTooLarge (x : State) : Bool :=
  x.cfgBch && (x.rdList .mag x.loccnt.toNat).any fun v => decide (1 < v.toNat)

/-- FORNEY stores its magnitudes in MAG[0..LOCCNT-1] (R270). -/
theorem evaluateMagnitudes_rdList_mag (x : State) :
    x.evaluateMagnitudes.rdList .mag x.loccnt.toNat = x.magnitudeList :=
  length_magnitudeList x ▸ State.store_rdList_same (s := x.store .omega 0 x.evaluatorList) (v := .mag)

theorem evaluateMagnitudes_locations (x : State) : x.evaluateMagnitudes.locations = x.locations := by
  rw [locations_eq_map, locations_eq_map]
  exact List.map_congr_left fun k _ => congrArg _ ((evaluateMagnitudes_sameCells x).1 .loc k (by simp))

theorem evaluateMagnitudes_corrections (x : State) :
    x.evaluateMagnitudes.corrections = x.locations.zip x.magnitudeList := by
  rw [State.corrections, evaluateMagnitudes_locations]
  exact congrArg _ (evaluateMagnitudes_rdList_mag x)

theorem decodeMagnitudes_eq (h : s.StageOf x) (orig w : List Sym) :
    (s.withStages x).decodeMagnitudes novfy orig w (x.rdList .syn x.nr) x.locator x.locations =
      if someDerivativeZero x.gf x.locator x.locations then (s.withStages x).decodeFailure
      else if x.evaluateMagnitudes.complete.magnitudeTooLarge then
        (s.withStages x.evaluateMagnitudes.complete).decodeFailure
      else (s.withStages x.evaluateMagnitudes.complete).decodeApply novfy orig w
        x.evaluateMagnitudes.complete.corrections := by
  have hom : evaluator (s.withStages x).gf (s.withStages x).nr (x.rdList .syn x.nr) x.locator = x.evaluatorList := by
    rw [State.evaluatorList, h.gf, h.nr]
    rfl
  have hmg : x.locations.map (magnitude (s.withStages x).gf (s.withStages x).fcr x.evaluatorList x.locator) =
      x.magnitudeList := by
    rw [State.magnitudeList, h.gf, h.fcr]
    rfl
  have hlarge : x.evaluateMagnitudes.complete.magnitudeTooLarge =
      (s.cfgBch && x.magnitudeList.any fun v => decide (1 < v.toNat)) := by
    rw [← h.cfgBch, ← evaluateMagnitudes_rdList_mag]
    rfl
  have hgf : (s.withStages x).gf = x.gf := h.gf.symm
  unfold State.decodeMagnitudes
  dsimp only
  rw [hom, hmg, hgf, hlarge, State.complete_corrections, evaluateMagnitudes_corrections]
  rfl

/-! ## ApplyCorrections (R297) -/

/-- The syndromes of the codeword are all zero (R297). -/
def State.codewordValid (x : State) : Bool := (syndromesOf x.gf x.nr x.fcr x.codeword).all fun v => v == 0

/-- One correction of a cell is one of the word. -/
theorem correctCell_rdList (x : State) (c : Nat × Sym) (n : Nat) :
    (x.correctCell c).rdList .code n = (x.rdList .code n).set c.1 ((x.rdList .code n).getD c.1 0 ^^^ c.2) := by
  refine List.ext_getElem (by simp [State.rdList]) fun p hp hp' => ?_
  have hpn : p < n := by simpa [State.rdList] using hp
  have hcell : ∀ y : State, ∀ hy : p < (y.rdList .code n).length, (y.rdList .code n)[p] = y.rd .code p :=
    fun y hy => Memory.getElem_rdList _ _ _ _ hy
  rw [hcell, correctCell_rd_code, List.getElem_set, hcell]
  split
  · subst_vars
    rw [show (x.rdList .code n).getD c.1 0 = x.rd .code c.1 from Memory.getD_rdList _ _ hpn]
  · exact BitVec.xor_zero

theorem correctCells_rdList (x : State) (cs : List (Nat × Sym)) (n : Nat) :
    (cs.foldl State.correctCell x).rdList .code n = correctWord (x.rdList .code n) cs := by
  induction cs generalizing x with
  | nil => rfl
  | cons c cs ih => rw [List.foldl_cons, ih, correctCell_rdList]; rfl

theorem applyCorrections_codeword (x : State) :
    x.applyCorrections.codeword = correctWord x.codeword x.corrections := by
  have hn : (x.corrections.foldl State.correctCell x).n = x.n := (correctCells_resultsOnly x _).congr State.n
  rw [State.codeword, State.codeword, ← correctCells_rdList, ← hn]
  rfl

theorem decodeApply_eq (h : s.StageOf x) (orig : List Sym) :
    (s.withStages x).decodeApply novfy orig x.codeword x.corrections =
      if !novfy && !x.applyCorrections.complete.codewordValid then (s.withStages x).decodeFailure
      else (s.withStages x).decodeSuccess orig x.applyCorrections.complete.codeword := by
  have happ := applyCorrections_resultsOnly x
  have hvalid : x.applyCorrections.complete.codewordValid = (syndromesOf s.gf s.nr s.fcr x.applyCorrections.codeword).all
      fun v => v == 0 := by
    rw [State.codewordValid, State.complete_codeword, State.complete_gf, State.complete_nr, State.complete_fcr,
      (happ.congr State.gf :), (happ.congr State.nr :), (happ.congr State.fcr :)]
    rw [← h.gf, ← h.nr, ← h.fcr]
    rfl
  have hverify : (!novfy && !x.applyCorrections.complete.codewordValid) =
      (!novfy && (syndromesOf s.gf s.nr s.fcr (correctWord x.codeword x.corrections)).any fun v => v != 0) := by
    rw [hvalid, applyCorrections_codeword, List.not_all_eq_any_not]
    rfl
  rw [hverify, State.complete_codeword, applyCorrections_codeword]
  rfl

/-! ## The start: NoSyndromeError (R291, R292) -/

/-- `x` is `s` with the working copy in CODE, as far as DECODE and its stages see (R290, R291). -/
structure State.WorksOn (s : State) (clr : Bool) (x : State) : Prop where
  stage : s.StageOf x
  same : s.withStages x = s
  codeword : x.codeword = workingCopy clr s.erasures s.codeword
  beyond : ∀ p, s.n ≤ p → x.rd .code p = s.rd .code p

/-- RESULT of SYNDROMES is 0 exactly when every syndrome is (R220). -/
theorem afterSyndromes_result_eq_zero_iff (hnr : x.nr ≤ 256) :
    x.afterSyndromes.result = 0 ↔ ∀ v ∈ syndromesOf x.gf x.nr x.fcr x.codeword, v = 0 := by
  have hle : (syndromesOf x.gf x.nr x.fcr x.codeword).countP (fun v => v != 0) ≤ x.nr :=
    List.countP_le_length.trans (length_syndromesOf ..).le
  have hresult : x.afterSyndromes.result.toNat =
      (syndromesOf x.gf x.nr x.fcr x.codeword).countP fun v => v != 0 :=
    (BitVec.toNat_ofNat ..).trans (Nat.mod_eq_of_lt (by omega))
  rw [← BitVec.toNat_inj, hresult]
  simp [List.countP_eq_zero]

theorem runDecode_start {clr : Bool} (h : s.WorksOn clr x) (hnr : s.nr ≤ 256) :
    State.runDecode clr novfy s =
      if x.afterSyndromes.result = 0 then (s.withStages x.afterSyndromes).decodeSuccess s.codeword x.codeword
      else (s.withStages x.afterSyndromes).decodeLocate novfy s.codeword x.codeword
        (x.afterSyndromes.rdList .syn x.nr) := by
  have hlist : x.afterSyndromes.rdList .syn x.nr = syndromesOf x.gf x.nr x.fcr x.codeword :=
    computeSyndromes_rdList x
  have hsyn : syndromesOf s.gf s.nr s.fcr (workingCopy clr s.erasures s.codeword) =
      x.afterSyndromes.rdList .syn x.nr := by
    rw [hlist, ← h.codeword, ← h.stage.gf, ← h.stage.nr, ← h.stage.fcr]
  have hstore : s.store .syn 0 (x.afterSyndromes.rdList .syn x.nr) = s.withStages x.afterSyndromes := by
    rw [hlist]
    exact congrArg (State.store · .syn 0 _) h.same.symm
  have hzero : (x.afterSyndromes.rdList .syn x.nr).all (fun v => v == 0) = true ↔ x.afterSyndromes.result = 0 := by
    rw [afterSyndromes_result_eq_zero_iff (h.stage.nr ▸ hnr), hlist]
    simp
  unfold State.runDecode
  dsimp only
  rw [hsyn, hstore, ← h.codeword]
  exact if_congr hzero rfl rfl

/-! ## The working copy (R291) -/

/-- Symbol p of the working copy: with CLR, 0 at an erased position. -/
def State.workSymbol (s : State) (clr : Bool) (p : Nat) : Sym :=
  if clr = true ∧ ∃ e, e < s.neras.toNat ∧ (s.rd .eras e).toNat = p then 0 else s.rd .code p

theorem foldl_set_zero (eras : List Nat) (n : Nat) (f : Nat → Sym) :
    eras.foldl (fun w p => w.set p 0) ((List.range n).map f) =
      (List.range n).map fun p => if p ∈ eras then 0 else f p := by
  induction eras generalizing f with
  | nil => simp
  | cons e eras ih =>
    have hset : ((List.range n).map f).set e 0 = (List.range n).map fun p => if p = e then 0 else f p := by
      refine List.ext_getElem (by simp) fun p hp hp' => ?_
      simp [List.getElem_set, eq_comm]
    rw [List.foldl_cons, hset, ih]
    refine List.map_congr_left fun p _ => ?_
    simp only [List.mem_cons]
    split <;> simp_all

theorem workingCopy_eq (s : State) (clr : Bool) :
    workingCopy clr s.erasures s.codeword = (List.range s.n).map (s.workSymbol clr) := by
  cases clr with
  | false => exact List.map_congr_left fun p _ => (if_neg (by simp)).symm
  | true =>
    refine (foldl_set_zero s.erasures s.n (s.rd .code)).trans (List.map_congr_left fun p _ => ?_)
    simp only [mem_erasures, State.workSymbol, true_and]

theorem State.Decodable.inRange_workSymbol (hs : s.Decodable) (clr : Bool) {p : Nat} (hp : p < s.n) :
    s.InRange (s.workSymbol clr p) := by
  unfold State.workSymbol
  split
  · exact hs.ready.tablesBuilt.inRange_zero
  · exact hs.code p hp

namespace State.WorksOn

variable {clr : Bool} (h : s.WorksOn clr x)
include h

theorem rd_code {p : Nat} (hp : p < s.n) : x.rd .code p = s.workSymbol clr p := by
  have hx : x.codeword.getD p 0 = x.rd .code p := Memory.getD_rdList _ _ (h.stage.n ▸ hp)
  rw [← hx, h.codeword, workingCopy_eq]
  simp [hp]

/-- The working copy passes DECODE's checks too. -/
theorem decodable (hs : s.Decodable) : x.Decodable where
  ready := h.stage.codeReady hs.ready
  count := by rw [h.stage.neras, h.stage.nr]; exact hs.count
  erased e he := by
    rw [h.stage.neras] at he
    rw [h.stage.rd_eras, h.stage.n]
    exact hs.erased e he
  code p hp := by
    rw [h.stage.n] at hp
    rw [h.stage.inRange, h.rd_code hp]
    exact hs.inRange_workSymbol clr hp

end State.WorksOn

/-- CODE itself is the working copy when CLR = 0 (R291). -/
theorem worksOn_self (s : State) : s.WorksOn false s := ⟨.refl s, rfl, rfl, fun _ _ => rfl⟩

/-- The stages can be run on a copy of the state whose CODE is the working copy. -/
theorem worksOn_store (s : State) (clr : Bool) :
    s.WorksOn clr { s.store .code 0 ((List.range s.n).map (s.workSymbol clr)) with err := false } where
  stage := rfl
  same := rfl
  codeword := by
    have hstore := State.store_rdList_same (s := s) (v := .code) (vs := (List.range s.n).map (s.workSymbol clr))
    rw [List.length_map, List.length_range] at hstore
    rw [workingCopy_eq]
    exact hstore
  beyond p hp := (sameCells_store_zero s .code _).1 .code p (by simp [hp])

/-! ## The exits of R298 -/

namespace State.Decodable

variable (h : x.Decodable)
include h

/-- The stages before APPLY leave CODE alone. -/
theorem afterForney_rd_code (p : Nat) : x.afterForney.rd .code p = x.rd .code p := by
  rw [(afterForney_frame x).1 .code p (by simp), h.afterRoots_rd (by decide), (afterBm_frame x).1 .code p (by simp),
    (afterSyndromes_frame x).1 .code p (by simp)]

theorem afterForney_codeword : x.afterForney.codeword = x.codeword := by
  rw [State.codeword, (State.StageOf.refl x).afterForney.n]
  exact rdList_congr fun p _ => h.afterForney_rd_code p

omit h in
/-- BM's C stands whole in LAMBDA[0..NR] (R230). -/
theorem afterBm_rdList_lambda : x.afterBm.rdList .lambda (x.nr + 1) = x.afterSyndromes.bmResult.c := by
  have hlen : x.afterSyndromes.bmResult.c.length = x.nr + 1 := length_bmResult _
  exact hlen ▸ State.store_rdList_same (s := x.afterSyndromes) (v := .lambda)

/-- The syndromes are those SYNDROMES wrote. -/
theorem afterRoots_rdList_syn : x.afterRoots.rdList .syn x.nr = x.afterSyndromes.rdList .syn x.nr :=
  rdList_congr fun i _ => by
    rw [h.afterRoots_rd (by decide), (afterBm_frame x).1 .syn i (by simp)]

end State.Decodable

/-- What a DECODE does, exit by exit: its arrays are those of the stage reached, and only a success writes CODE (R298). -/
theorem runDecode_eq {clr : Bool} (hs : s.Decodable) (h : s.WorksOn clr x) :
    State.runDecode clr novfy s =
      if x.afterSyndromes.result = 0 then (s.withStages x.afterSyndromes).decodeSuccess s.codeword x.codeword
      else if x.afterRoots.rootsMissing then (s.withStages x.afterRoots).decodeFailure
      else if someDerivativeZero x.afterRoots.gf x.afterRoots.locator x.afterRoots.locations then
        (s.withStages x.afterRoots).decodeFailure
      else if x.afterForney.magnitudeTooLarge then (s.withStages x.afterForney).decodeFailure
      else if !novfy && !x.afterApply.codewordValid then (s.withStages x.afterForney).decodeFailure
      else (s.withStages x.afterForney).decodeSuccess s.codeword x.afterApply.codeword := by
  have hx := h.decodable hs
  have hlen : x.afterSyndromes.bmResult.len ≤ s.nr := h.stage.nr ▸ hx.bmResult_invariant.len_le
  have hlocate := decodeLocate_eq (novfy := novfy) h.stage.afterSyndromes hlen s.codeword x.codeword
  have hroots := decodeRoots_eq (novfy := novfy) hx.afterBm_lambda_zero h.stage.afterBm hx.afterBm_deg_le s.codeword
    x.codeword (x.afterSyndromes.rdList .syn x.nr)
  have hmagnitudes := decodeMagnitudes_eq (novfy := novfy) h.stage.afterRoots s.codeword x.codeword
  have happly := decodeApply_eq (novfy := novfy) h.stage.afterForney s.codeword
  rw [State.Decodable.afterBm_rdList_lambda, hx.afterBm_deg] at hroots
  rw [hx.afterForney_codeword] at happly
  rw [runDecode_start h hs.ready.nr_le]
  refine if_congr Iff.rfl rfl (hlocate.trans (hroots.trans (if_congr Iff.rfl rfl ?_)))
  refine Eq.trans ?_ (hmagnitudes.trans (if_congr Iff.rfl rfl (if_congr Iff.rfl rfl happly)))
  rw [hx.afterRoots_locations, ← hx.afterRoots_rdList_syn, h.stage.afterRoots.nr, h.stage.nr]
  rfl

end Sys2Proof.Machine
end

section
/-! PROOFS. What a DECODE leaves (47_decode.md R292, R297, R298): the cells it may write, the range of what a success
writes to CODE, and the stage commands that leave the arrays as each exit does. -/

namespace Sys2Proof.Machine

variable {s t x y : State} {clr novfy : Bool}

/-! ## The cells the stages write (R298) -/

/-- The cells of SYN, LAMBDA, OMEGA, LOC and MAG within the counts (R298). -/
def stageCells (nr : Nat) (w : Win) (i : Nat) : Prop :=
  (w = .syn ∧ i < nr) ∨ (w = .lambda ∧ i ≤ nr) ∨ (w = .omega ∧ i < nr) ∨ ((w = .loc ∨ w = .mag) ∧ i < nr)

namespace State.Decodable

variable (h : x.Decodable)
include h

theorem afterRoots_sameCells : x.SameCells x.afterRoots (stageCells x.nr) := by
  have hfound : x.afterBm.rootsFound.length ≤ x.nr :=
    (length_rootsFound_le _).trans ((exactDeg_le _).trans h.afterBm_deg_le)
  have hsyn := (afterSyndromes_frame x).mono (W' := stageCells x.nr) fun _ _ => .inl
  have hlambda := (afterBm_frame x).mono (W' := stageCells x.nr) fun _ _ hw => .inr (.inl hw)
  have hloc := h.afterRoots_frame.mono (W' := stageCells x.nr) fun _ _ ⟨hw, hi⟩ =>
    .inr (.inr (.inr ⟨.inl hw, Nat.lt_of_lt_of_le hi hfound⟩))
  exact (hsyn.trans hlambda).trans hloc

theorem afterForney_sameCells : x.SameCells x.afterForney (stageCells x.nr) := by
  have hcount : x.afterRoots.loccnt.toNat ≤ x.nr :=
    h.afterRoots_located.count.trans_eq (State.StageOf.refl x).afterRoots.nr
  refine h.afterRoots_sameCells.trans ((afterForney_frame x).mono ?_)
  rintro w i (⟨hw, hi⟩ | ⟨hw, hi⟩)
  · exact .inr (.inr (.inl ⟨hw, hi⟩))
  · exact .inr (.inr (.inr ⟨.inr hw, Nat.lt_of_lt_of_le hi hcount⟩))

/-- FORNEY leaves SYN (R270). -/
theorem afterForney_rdList_syn : x.afterForney.rdList .syn x.nr = x.afterSyndromes.rdList .syn x.nr :=
  (rdList_congr fun i _ => (afterForney_frame x).1 .syn i (by simp)).trans h.afterRoots_rdList_syn

end State.Decodable

/-! ## The exits -/

/-- `y` is a state of the stages from `x`, run on the working copy of `s`, in which DECODE may end. -/
structure State.ExitStage (s x y : State) : Prop where
  stage : s.StageOf y
  cells : x.SameCells y (stageCells x.nr)
  syn : y.rdList .syn x.nr = x.afterSyndromes.rdList .syn x.nr

namespace State.WorksOn

variable (h : s.WorksOn clr x)
include h

theorem exitStage_afterSyndromes : s.ExitStage x x.afterSyndromes where
  stage := h.stage.afterSyndromes
  cells := (afterSyndromes_frame x).mono fun _ _ => .inl
  syn := rfl

variable (hs : s.Decodable)
include hs

theorem exitStage_afterRoots : s.ExitStage x x.afterRoots where
  stage := h.stage.afterRoots
  cells := (h.decodable hs).afterRoots_sameCells
  syn := (h.decodable hs).afterRoots_rdList_syn

theorem exitStage_afterForney : s.ExitStage x x.afterForney where
  stage := h.stage.afterForney
  cells := (h.decodable hs).afterForney_sameCells
  syn := (h.decodable hs).afterForney_rdList_syn

end State.WorksOn

/-! ## The corrected word -/

/-- A sum of symbols in range is in range (R201). -/
theorem State.TablesBuilt.inRange_xorSum (h : s.TablesBuilt) {n : Nat} {f : Nat → Sym}
    (hf : ∀ k, k < n → s.InRange (f k)) : s.InRange (xorSum n f) := by
  induction n with
  | zero => exact h.inRange_zero
  | succ n ih =>
    rw [xorSum_succ]
    exact h.inRange_xor (ih fun k hk => hf k (by omega)) (hf n (by omega))

theorem State.TablesBuilt.magnitude_lt (h : s.TablesBuilt) (om lam : List Sym) (p : Nat) :
    (magnitude s.gf s.fcr om lam p).toNat < s.q := h.gmul_lt (h.gpow_lt _) h.gdiv_lt

/-- The magnitudes are values, and bits in BCH mode unless one is too large (R296). -/
theorem State.Located.inRange_mag (h : t.Located) (hmag : t.evaluateMagnitudes.complete.magnitudeTooLarge = false)
    {k : Nat} (hk : k < t.loccnt.toNat) : t.InRange (t.evaluateMagnitudes.complete.rd .mag k) := by
  have hmem : t.evaluateMagnitudes.complete.rd .mag k ∈ t.magnitudeList :=
    evaluateMagnitudes_rdList_mag t ▸ mem_rdList.mpr ⟨k, hk, rfl⟩
  cases hb : t.cfgBch with
  | false =>
    obtain ⟨p, -, hp⟩ := List.mem_map.mp hmem
    rw [inRange_rs hb, ← hp]
    exact h.ready.tablesBuilt.magnitude_lt _ _ _
  | true =>
    have hany : (t.magnitudeList.any fun v => decide (1 < v.toNat)) = false := by
      have hlarge : (t.cfgBch && (t.evaluateMagnitudes.rdList .mag t.loccnt.toNat).any
        fun v => decide (1 < v.toNat)) = false := hmag
      rwa [hb, Bool.true_and, evaluateMagnitudes_rdList_mag] at hlarge
    rw [inRange_bch hb]
    exact Nat.not_lt.mp fun hlt => List.any_eq_false.mp hany _ hmem (decide_eq_true hlt)

namespace State.Decodable

variable (h : x.Decodable) (hmag : x.afterForney.magnitudeTooLarge = false)
include h hmag

theorem afterForney_corrections {k : Nat} (hk : k < x.afterForney.loccnt.toNat) :
    (x.afterForney.rd .loc k).toNat < x.n ∧ x.InRange (x.afterForney.rd .mag k) := by
  have hc := (State.StageOf.refl x).afterRoots
  have hloc := h.afterRoots_located.loc k hk
  have hvalue := h.afterRoots_located.inRange_mag hmag hk
  rw [hc.n, ← (afterForney_frame x).1 .loc k (by simp)] at hloc
  rw [hc.inRange] at hvalue
  exact ⟨hloc, hvalue⟩

theorem exec_apply : exec .apply x.afterForney = .next x.afterApply := by
  have hd := (State.StageOf.refl x).afterForney
  have hready := hd.codeReady h.ready
  refine (finish_eq_next ..).mpr (.inr ⟨applyCheck_ok hready.field_ok hready.gen_ok ?_ fun k hk => ?_, rfl⟩)
  · have hcount : x.afterRoots.loccnt.toNat ≤ x.afterRoots.nr := h.afterRoots_located.count
    rwa [(State.StageOf.refl x).afterRoots.nr, ← hd.nr] at hcount
  · rw [hd.n, hd.inRange]
    exact h.afterForney_corrections hmag hk

omit hmag in
theorem afterApply_rd_code (p : Nat) : x.afterApply.rd .code p = x.rd .code p ^^^
    xorSum x.afterForney.loccnt.toNat fun k =>
      if (x.afterForney.rd .loc k).toNat = p then x.afterForney.rd .mag k else 0 := by
  rw [State.afterApply, State.complete_rd, applyCorrections_rd_code, h.afterForney_rd_code]

theorem inRange_afterApply {p : Nat} (hp : p < x.n) : x.InRange (x.afterApply.rd .code p) := by
  have hT := h.ready.tablesBuilt
  rw [h.afterApply_rd_code]
  refine hT.inRange_xor (h.code p hp) (hT.inRange_xorSum fun k hk => ?_)
  split
  · exact (h.afterForney_corrections hmag hk).2
  · exact hT.inRange_zero

/-- No position beyond the codeword is corrected. -/
theorem afterApply_beyond {p : Nat} (hp : x.n ≤ p) : x.afterApply.rd .code p = x.rd .code p := by
  rw [(afterApply_frame x).1 .code p, h.afterForney_rd_code]
  rintro ⟨-, k, hk, rfl⟩
  exact absurd (h.afterForney_corrections hmag hk).1 (by omega)

end State.Decodable

/-! ## What an exit leaves (R298) -/

/-- The outcomes of R298's table: a failure that leaves the arrays of a stage, or a success that also writes a word in
range, whose syndromes are zero unless NOVFY. -/
inductive State.DecodeExit (s x : State) (novfy : Bool) : State → Prop where
  | failure (y : State) (hy : s.ExitStage x y) : DecodeExit s x novfy (s.withStages y).decodeFailure
  | success (y : State) (hy : s.ExitStage x y) (w : List Sym) (hlen : w.length = s.n) (hw : ∀ v ∈ w, s.InRange v)
      (hvalid : novfy = false → ∀ v ∈ syndromesOf s.gf s.nr s.fcr w, v = 0) :
      DecodeExit s x novfy ((s.withStages y).decodeSuccess s.codeword w)

theorem codewordValid_iff : x.codewordValid = true ↔ ∀ v ∈ syndromesOf x.gf x.nr x.fcr x.codeword, v = 0 := by
  simp [State.codewordValid]

/-- Every DECODE that passes its checks takes one of the exits. -/
theorem runDecode_exit (hs : s.Decodable) (h : s.WorksOn clr x) :
    s.DecodeExit x novfy (State.runDecode clr novfy s) := by
  have hx := h.decodable hs
  have he := h.stage.afterApply
  have hlen : ∀ y : State, s.StageOf y → y.codeword.length = s.n := fun y hy => (length_codeword y).trans hy.n
  rw [runDecode_eq hs h]
  split
  · next hzero =>
    refine .success _ h.exitStage_afterSyndromes _ (hlen x h.stage) (fun v hv => ?_) fun _ => ?_
    · obtain ⟨p, hp, rfl⟩ := mem_rdList.mp hv
      exact (h.stage.inRange _).mp (hx.code p hp)
    · rw [← h.stage.gf, ← h.stage.nr, ← h.stage.fcr]
      exact (afterSyndromes_result_eq_zero_iff (h.stage.nr ▸ hs.ready.nr_le)).mp hzero
  split
  · exact .failure _ (h.exitStage_afterRoots hs)
  split
  · exact .failure _ (h.exitStage_afterRoots hs)
  split
  · exact .failure _ (h.exitStage_afterForney hs)
  next hmag =>
  split
  · exact .failure _ (h.exitStage_afterForney hs)
  next hverify =>
  refine .success _ (h.exitStage_afterForney hs) _ (hlen _ he) (fun v hv => ?_) fun hn => ?_
  · obtain ⟨p, hp, rfl⟩ := mem_rdList.mp hv
    rw [he.n, ← h.stage.n] at hp
    exact (h.stage.inRange _).mp (hx.inRange_afterApply (by simpa using hmag) hp)
  · rw [← he.gf, ← he.nr, ← he.fcr]
    exact codewordValid_iff.mp (by simpa [hn] using hverify)

/-- The cells DECODE may write (R298). -/
def decodeCells (n nr : Nat) (w : Win) (i : Nat) : Prop := (w = .code ∧ i < n) ∨ stageCells nr w i

namespace State.WorksOn

variable (h : s.WorksOn clr x)
include h

theorem rd_eq {w : Win} (hw : w ≠ .code) (i : Nat) : x.rd w i = s.rd w i := by
  rw [← h.stage.withStages_rd hw, h.same]

/-- The arrays of a stage differ from those of `s` in the cells the stages wrote only. -/
theorem withStages_sameCells (hy : s.StageOf y) {W : Win → Nat → Prop} (hcells : x.SameCells y W) :
    s.SameCells (s.withStages y) W := by
  refine ⟨fun w i hi => ?_, fun _ => rfl⟩
  by_cases hw : w = .code
  · subst hw
    rfl
  · rw [hy.withStages_rd hw, hcells.1 w i hi, h.rd_eq hw]

theorem withStages_syn (hy : s.ExitStage x y) {i : Nat} (hi : i < s.nr) :
    (s.withStages y).rd .syn i = (syndromesOf s.gf s.nr s.fcr x.codeword).getD i 0 := by
  rw [← h.stage.gf, ← h.stage.nr, ← h.stage.fcr, hy.stage.withStages_rd (by decide)]
  have hlist : y.rdList .syn x.nr = syndromesOf x.gf x.nr x.fcr x.codeword :=
    hy.syn.trans (computeSyndromes_rdList x)
  rw [← hlist]
  exact (Memory.getD_rdList _ _ (h.stage.nr ▸ hi)).symm

end State.WorksOn

section success

variable {w : List Sym} (hlen : w.length = s.n)
include hlen

/-- A success writes the word to CODE[0..N-1] and nothing else (R298). -/
theorem decodeSuccess_sameCells (y : State) :
    (s.withStages y).SameCells ((s.withStages y).decodeSuccess s.codeword w) fun v i => v = .code ∧ i < s.n :=
  hlen ▸ sameCells_store_zero (s.withStages y) .code w

theorem decodeSuccess_codeword (y : State) :
    ((s.withStages y).decodeSuccess s.codeword w).rdList .code s.n = w :=
  hlen ▸ State.store_rdList_same (s := s.withStages y) (v := .code)

/-- RESULT counts the positions changed, and 32 bits hold the count (R298). -/
theorem decodeSuccess_result (hn : s.n ≤ 65535) (y : State) :
    ((s.withStages y).decodeSuccess s.codeword w).result.toNat = (List.range s.n).countP fun p =>
      ((s.withStages y).decodeSuccess s.codeword w).rd .code p != s.rd .code p := by
  rw [← changedCount_rdList, decodeSuccess_codeword hlen]
  have hle : changedCount s.codeword w ≤ s.n := by
    refine List.countP_le_length.trans ?_
    rw [List.length_zip, length_codeword]
    exact Nat.min_le_left _ _
  exact (BitVec.toNat_ofNat ..).trans (Nat.mod_eq_of_lt (by omega))

end success

end Sys2Proof.Machine
end

section
/-! PROOFS. The obligations about DECODE (47_decode.md R290 to R300), read off its exits and its stages. -/

namespace Sys2Proof.Machine

variable {s t x y : State} {clr novfy : Bool}

/-! ## Every exit -/

namespace State.DecodeExit

variable (h : s.WorksOn clr x) (ht : s.DecodeExit x novfy t)
include h ht

theorem sameCells : s.SameCells t (decodeCells s.n s.nr) := by
  have hstages : ∀ y, s.ExitStage x y → s.SameCells (s.withStages y) (decodeCells s.n s.nr) := fun y hy =>
    (h.withStages_sameCells hy.stage hy.cells).mono fun _ _ hc => .inr (h.stage.nr ▸ hc)
  cases ht with
  | failure y hy => exact hstages y hy
  | success y hy w hlen hw hvalid =>
    exact (hstages y hy).trans ((decodeSuccess_sameCells hlen y).mono fun _ _ => .inl)

theorem syn {i : Nat} (hi : i < s.nr) :
    t.rd .syn i = (syndromesOf s.gf s.nr s.fcr x.codeword).getD i 0 := by
  cases ht with
  | failure y hy => exact h.withStages_syn hy hi
  | success y hy w hlen hw hvalid =>
    rw [(decodeSuccess_sameCells hlen y).1 .syn i (by simp), h.withStages_syn hy hi]

omit h in
theorem registers : t.complete = { s with
    deg := t.deg, loccnt := t.loccnt, result := t.result, engine := .idle, done := true, mem := t.mem } := by
  cases ht <;> rfl

omit h in
theorem result (hn : s.n ≤ 65535) : (t.result = minusOne ∧ ∀ p, t.rd .code p = s.rd .code p) ∨
    t.result.toNat = (List.range s.n).countP fun p => t.rd .code p != s.rd .code p := by
  cases ht with
  | failure y hy => exact .inl ⟨rfl, fun _ => rfl⟩
  | success y hy w hlen hw hvalid => exact .inr (decodeSuccess_result hlen hn y)

end State.DecodeExit

/-! ## R298's table -/

/-- `t` has DEG, LOCCNT and every array but CODE as `x` has them. -/
def State.LeavesAs (t x : State) : Prop :=
  (∀ w i, w ≠ .code → t.rd w i = x.rd w i) ∧ t.deg = x.deg ∧ t.loccnt = x.loccnt

theorem leavesAs_failure (hy : s.StageOf y) : (s.withStages y).decodeFailure.complete.LeavesAs y :=
  ⟨fun _ i hw => hy.withStages_rd hw i, rfl, rfl⟩

section success

variable (hy : s.StageOf y) {e : State} (he : s.StageOf e)
include he

theorem length_codeword_stage : e.codeword.length = s.n := (length_codeword e).trans he.n

include hy in
theorem leavesAs_success : ((s.withStages y).decodeSuccess s.codeword e.codeword).complete.LeavesAs y :=
  ⟨fun w i hw => ((decodeSuccess_sameCells (length_codeword_stage he) y).1 w i fun hc => hw hc.1).trans
    (hy.withStages_rd hw i), rfl, rfl⟩

/-- CODE becomes the codeword of `e`, which agrees with `s` beyond the codeword. -/
theorem decodeSuccess_rd_code (hbeyond : ∀ p, s.n ≤ p → e.rd .code p = s.rd .code p) (y : State) (p : Nat) :
    ((s.withStages y).decodeSuccess s.codeword e.codeword).rd .code p = e.rd .code p := by
  by_cases hp : p < s.n
  · have hlist := decodeSuccess_codeword (length_codeword_stage he) y
    have hcell := congrArg (List.getD · p 0) hlist
    have hleft : (((s.withStages y).decodeSuccess s.codeword e.codeword).rdList .code s.n).getD p 0 = _ :=
      Memory.getD_rdList _ _ hp
    have hright : e.codeword.getD p 0 = e.rd .code p := Memory.getD_rdList _ _ (he.n.symm ▸ hp)
    exact (hleft.symm.trans hcell).trans hright
  · rw [(decodeSuccess_sameCells (length_codeword_stage he) y).1 .code p (by simp [hp]),
      hbeyond p (Nat.le_of_not_lt hp)]
    rfl

/-- The count of R298, by the codeword of `e`. -/
theorem decodeSuccess_result_eq (hn : s.n ≤ 65535) (hbeyond : ∀ p, s.n ≤ p → e.rd .code p = s.rd .code p)
    (y : State) : ((s.withStages y).decodeSuccess s.codeword e.codeword).result.toNat =
      (List.range s.n).countP fun p => e.rd .code p != s.rd .code p := by
  simp only [decodeSuccess_result (length_codeword_stage he) hn y, decodeSuccess_rd_code he hbeyond]

end success

/-- A failure, as R298's table states it. -/
theorem failure_outcome (ht : t = (s.withStages y).decodeFailure) (hy : s.StageOf y) :
    t.complete.LeavesAs y ∧ t.complete.result = minusOne ∧ ∀ p, t.complete.rd .code p = s.rd .code p := by
  subst ht
  exact ⟨leavesAs_failure hy, rfl, fun _ => rfl⟩

/-- A success, as R298's table states it, CODE becoming the codeword of `e`. -/
theorem success_outcome {e : State} (ht : t = (s.withStages y).decodeSuccess s.codeword e.codeword)
    (hn : s.n ≤ 65535) (hy : s.StageOf y) (he : s.StageOf e) (hbeyond : ∀ p, s.n ≤ p → e.rd .code p = s.rd .code p) :
    t.complete.LeavesAs y ∧ (∀ p, t.complete.rd .code p = e.rd .code p) ∧
      t.complete.result.toNat = (List.range s.n).countP fun p => e.rd .code p != s.rd .code p := by
  subst ht
  exact ⟨leavesAs_success hy he, decodeSuccess_rd_code he hbeyond y, decodeSuccess_result_eq he hn hbeyond y⟩

namespace State.WorksOn

variable (h : s.WorksOn clr x)
include h

theorem afterSyndromes_beyond (p : Nat) (hp : s.n ≤ p) : x.afterSyndromes.rd .code p = s.rd .code p :=
  ((afterSyndromes_frame x).1 .code p (by simp)).trans (h.beyond p hp)

theorem afterApply_beyond (hs : s.Decodable) (hmag : x.afterForney.magnitudeTooLarge = false) (p : Nat)
    (hp : s.n ≤ p) : x.afterApply.rd .code p = s.rd .code p :=
  ((h.decodable hs).afterApply_beyond hmag (h.stage.n.trans_le hp)).trans (h.beyond p hp)

end State.WorksOn

theorem afterForney_err (x : State) : x.afterForney.err = x.err := by
  have hroots : x.afterRoots.err = x.afterBm.err := (findRoots_resultsOnly x.afterBm).congr State.err
  exact hroots

/-- FORNEY's magnitudes decide the bound of R296. -/
theorem magnitudeTooLarge_iff : x.magnitudeTooLarge = true ↔
    x.cfgBch = true ∧ ∃ k, k < x.loccnt.toNat ∧ 1 < (x.rd .mag k).toNat := by
  simp [State.magnitudeTooLarge, State.rdList, Memory.rdList, State.rd]

theorem rootsMissing_iff : x.rootsMissing = true ↔ x.deg = 0 ∨ x.loccnt ≠ x.deg := by
  simp [State.rootsMissing]

/-- No syndrome of a word is nonzero. -/
theorem syndromesOf_eq_zero_iff (w : List Sym) : (∀ v ∈ syndromesOf s.gf s.nr s.fcr w, v = 0) ↔
    ∀ i, i < s.nr → (syndromesOf s.gf s.nr s.fcr w).getD i 0 = 0 := by
  rw [← forall_getD_iff (P := fun v => v = 0) rfl]
  refine ⟨fun h i _ => h i, fun h i => ?_⟩
  by_cases hi : i < s.nr
  · exact h i hi
  · exact List.getD_eq_default _ _ (by rw [length_syndromesOf]; omega)

theorem State.StageOf.codewordValid_iff (h : s.StageOf x) : x.codewordValid = true ↔
    ∀ i, i < s.nr → (syndromesOf s.gf s.nr s.fcr (x.rdList .code s.n)).getD i 0 = 0 := by
  rw [Machine.codewordValid_iff, State.codeword, h.gf, h.nr, h.fcr, h.n, syndromesOf_eq_zero_iff]

theorem State.StageOf.magnitudeTooLarge_iff (h : s.StageOf x) : x.magnitudeTooLarge = true ↔
    s.cfgBch = true ∧ ∃ k, k < x.loccnt.toNat ∧ 1 < (x.rd .mag k).toNat := by
  rw [Machine.magnitudeTooLarge_iff, h.cfgBch]

/-- Settles O38: the exits of `runDecode_eq`, each with the stage it reaches. -/
theorem decodeOutcomes : Obligations.DecodeOutcomes := by
  intro s clr novfy hready hcount heras hcode w s0
  have hs : s.Decodable := ⟨hready, hcount, heras, hcode⟩
  have h : s.WorksOn clr s0 := worksOn_store s clr
  have hx := h.decodable hs
  have hexit := runDecode_exit (novfy := novfy) hs h
  have hword : s0.codeword = (List.range s.n).map w := h.codeword.trans (workingCopy_eq s clr)
  refine ⟨_, s0.afterSyndromes, hs.exec_decode clr novfy, hexit.result hready.n_le,
    fun i hi => hword ▸ hexit.syn h hi, (hexit.sameCells h).complete, hexit.registers, ?_⟩
  intro leaves fails succeeds
  have hrun := runDecode_eq (novfy := novfy) hs h
  refine ⟨hx.exec_syndromes, fun ha => ?_, fun ha => ?_⟩
  · rw [if_pos ha] at hrun
    exact success_outcome hrun hready.n_le h.stage.afterSyndromes h.stage.afterSyndromes h.afterSyndromes_beyond
  rw [if_neg ha] at hrun
  refine ⟨s0.afterBm, s0.afterRoots, hx.exec_bm, hx.exec_roots, fun hc => ?_, fun hdeg hcnt => ?_⟩
  · rw [if_pos (rootsMissing_iff.mpr hc)] at hrun
    exact failure_outcome hrun h.stage.afterRoots
  rw [if_neg (by rw [rootsMissing_iff]; tauto)] at hrun
  cases hzero : someDerivativeZero s0.afterRoots.gf s0.afterRoots.locator s0.afterRoots.locations with
  | true =>
    rw [if_pos hzero] at hrun
    exact ⟨_, hx.afterRoots_located.exec_forney_zero hzero, fun _ => failure_outcome hrun h.stage.afterRoots,
      fun he => Bool.noConfusion he, fun he => Bool.noConfusion he⟩
  | false =>
    rw [if_neg (by simp [hzero])] at hrun
    have hd := h.stage.afterForney
    refine ⟨s0.afterForney, hx.afterRoots_located.exec_forney hzero,
      fun he => absurd he (by simp [afterForney_err, s0]), fun _ hlarge => ?_, fun _ hsmall => ?_⟩
    · rw [if_pos (hd.magnitudeTooLarge_iff.mpr hlarge)] at hrun
      exact failure_outcome hrun hd
    · have hmag : s0.afterForney.magnitudeTooLarge = false :=
        Bool.eq_false_iff.mpr (mt hd.magnitudeTooLarge_iff.mp hsmall)
      rw [if_neg (by simp [hmag])] at hrun
      refine ⟨s0.afterApply, hx.exec_apply hmag, fun hverify hinvalid => ?_, fun hok => ?_⟩
      · have he := mt h.stage.afterApply.codewordValid_iff.mp hinvalid
        rw [if_pos (by simpa [hverify] using he)] at hrun
        exact failure_outcome hrun hd
      · have he := hok.imp_right h.stage.afterApply.codewordValid_iff.mpr
        rw [if_neg (by rcases he with he | he <;> simp [he])] at hrun
        exact success_outcome hrun hready.n_le hd h.stage.afterApply (h.afterApply_beyond hs hmag)

/-- Settles O39: the first exit, which leaves the arrays as SYNDROMES does. -/
theorem decodeExitsEarlyOnZeroSyndromes : Obligations.DecodeExitsEarlyOnZeroSyndromes := by
  intro s clr novfy hready hcount heras hcode w hzero
  have hs : s.Decodable := ⟨hready, hcount, heras, hcode⟩
  obtain ⟨x, h⟩ : ∃ x, s.WorksOn clr x := ⟨_, worksOn_store s clr⟩
  have hword : x.codeword = (List.range s.n).map w := h.codeword.trans (workingCopy_eq s clr)
  have ha : x.afterSyndromes.result = 0 := by
    refine (afterSyndromes_result_eq_zero_iff (h.stage.nr.trans_le hready.nr_le)).mpr ?_
    rw [h.stage.gf, h.stage.nr, h.stage.fcr, hword]
    exact (syndromesOf_eq_zero_iff _).mpr hzero
  have hrun := runDecode_eq (novfy := novfy) hs h
  rw [if_pos ha] at hrun
  have hy := h.stage.afterSyndromes
  have hlen := length_codeword_stage h.stage
  obtain ⟨⟨-, hdeg, hloccnt⟩, hcode', hresult⟩ := success_outcome hrun hready.n_le hy h.stage h.beyond
  have hcount' : (List.range s.n).countP (fun p => x.rd .code p != s.rd .code p) =
      (List.range s.n).countP fun p => w p != s.rd .code p :=
    List.countP_congr fun p hp => by rw [h.rd_code (List.mem_range.mp hp)]; rfl
  rw [hcount'] at hresult
  refine ⟨_, hs.exec_decode clr novfy, fun p hp => (hcode' p).trans (h.rd_code hp), fun i hi => ?_, hresult,
    fun hclr => ?_, ?_, ?_⟩
  · rw [State.complete_rd, (runDecode_exit hs h).syn h hi, hword]
    exact hzero i hi
  · refine BitVec.eq_of_toNat_eq (hresult.trans (List.countP_eq_zero.mpr fun p hp => ?_))
    simp [w, hclr]
  · have hframe := (h.withStages_sameCells hy (afterSyndromes_frame x)).mono
      (W' := fun v i => (v = .code ∧ i < s.n) ∨ (v = .syn ∧ i < s.nr)) fun _ _ hc => .inr (h.stage.nr ▸ hc)
    rw [hrun]
    exact (hframe.trans ((decodeSuccess_sameCells hlen _).mono fun _ _ => .inl)).complete
  · have hdeg' : (State.runDecode clr novfy s).deg = s.deg := hdeg.trans (congrArg State.deg h.same :)
    have hloccnt' : (State.runDecode clr novfy s).loccnt = s.loccnt := hloccnt.trans (congrArg State.loccnt h.same :)
    refine (runDecode_exit hs h).registers.trans ?_
    rw [hdeg', hloccnt']
    rfl

/-! ## R300 -/

/-- A word whose syndromes are zero decodes to itself (R292). -/
theorem State.Decodable.decode_valid (hs : s.Decodable)
    (hvalid : ∀ v ∈ syndromesOf s.gf s.nr s.fcr s.codeword, v = 0) (novfy : Bool) :
    ∃ u, exec (.decode false novfy) s = .next u ∧ u.result = 0 ∧ ∀ p, u.rd .code p = s.rd .code p := by
  have h := worksOn_self s
  have hrun := runDecode_eq (novfy := novfy) hs h
  rw [if_pos ((afterSyndromes_result_eq_zero_iff hs.ready.nr_le).mpr hvalid)] at hrun
  obtain ⟨-, hcode, hresult⟩ := success_outcome hrun hs.ready.n_le h.stage.afterSyndromes h.stage h.beyond
  exact ⟨_, hs.exec_decode false novfy, BitVec.eq_of_toNat_eq (hresult.trans (by simp)), hcode⟩

/-- Settles O40: an encoded word is in range and has zero syndromes. -/
theorem decodeOfAnEncodedWordReturnsZero : Obligations.DecodeOfAnEncodedWordReturnsZero := by
  intro s novfy h hneras hmsg
  have hneras' : s.neras.toNat = 0 := congrArg BitVec.toNat hneras
  have ht : s.encode.complete.Decodable :=
    ⟨h.of_codeView rfl, hneras'.trans_le (Nat.zero_le _), fun e he => absurd (he.trans_eq hneras') (Nat.not_lt_zero e),
      fun p hp => h.inRange_encode_rd hmsg hp⟩
  have hzero : ∀ v ∈ syndromesOf s.encode.gf s.nr s.fcr s.encode.codeword, v = 0 := by
    rw [encode_gf, syndromesOf, List.forall_mem_map]
    exact fun i hi => h.horner_encode_targetRoot hmsg (List.mem_range.mp hi)
  obtain ⟨u, hu, hresult, hcode⟩ := ht.decode_valid hzero novfy
  exact ⟨s.encode.complete, u, h.exec_encode hmsg, hu, hresult, hcode⟩

/-- A word in range that a success wrote passes the checks of a DECODE without erasures. -/
theorem decodeSuccess_decodable (hs : s.CodeReady) {w : List Sym} (hlen : w.length = s.n)
    (hw : ∀ v ∈ w, s.InRange v) (y : State) :
    State.Decodable { ((s.withStages y).decodeSuccess s.codeword w).complete with neras := 0 } where
  ready := hs.of_codeView rfl
  count := Nat.zero_le _
  erased e he := absurd he (Nat.not_lt_zero e)
  code p hp := by
    have hmem : ((s.withStages y).decodeSuccess s.codeword w).rd .code p ∈
        ((s.withStages y).decodeSuccess s.codeword w).rdList .code s.n := mem_rdList.mpr ⟨p, hp, rfl⟩
    rw [decodeSuccess_codeword hlen] at hmem
    exact hw _ hmem

/-- Settles O41: whatever word a verified success writes is in range and has zero syndromes. -/
theorem decodedWordRedecodesToZero : Obligations.DecodedWordRedecodesToZero := by
  intro s t clr hready hcount heras hcode ht hsucc
  have hs : s.Decodable := ⟨hready, hcount, heras, hcode⟩
  obtain ⟨x, h⟩ : ∃ x, s.WorksOn clr x := ⟨_, worksOn_store s clr⟩
  have hexit := runDecode_exit (novfy := false) hs h
  rw [hs.exec_decode] at ht
  cases ht
  generalize State.runDecode clr false s = u at hexit hsucc ⊢
  cases hexit with
  | failure y hy => exact absurd rfl hsucc
  | success y hy w hlen hw hvalid =>
    have hword : State.codeword { ((s.withStages y).decodeSuccess s.codeword w).complete with neras := 0 } = w :=
      decodeSuccess_codeword hlen y
    refine (decodeSuccess_decodable hready hlen hw y).decode_valid ?_ false
    rw [hword]
    exact hvalid rfl

/-- APPLY leaves DEG and LOCCNT (R280). -/
theorem applyCorrections_registers (x : State) :
    x.applyCorrections.complete.deg = x.deg ∧ x.applyCorrections.complete.loccnt = x.loccnt :=
  ⟨(congrArg State.deg (applyCorrections_eq x) :), (congrArg State.loccnt (applyCorrections_eq x) :)⟩

theorem afterApply_registers (x : State) :
    x.afterApply.deg = x.afterForney.deg ∧ x.afterApply.loccnt = x.afterForney.loccnt :=
  applyCorrections_registers x.afterForney

/-- RESULT counts the positions APPLY changed (R280). -/
theorem State.Decodable.afterApply_result (h : x.Decodable) : x.afterApply.result =
    BitVec.ofNat 32 ((List.range x.n).countP fun p => x.afterApply.rd .code p != x.rd .code p) := by
  simp only [State.afterApply, State.complete_result, State.complete_rd, applyCorrections_result,
    (State.StageOf.refl x).afterForney.n, h.afterForney_rd_code]

/-- Settles O43: CODE itself is the working copy, and a success that is not the early one has passed every stage. -/
theorem decodeMatchesItsStages : Obligations.DecodeMatchesItsStages := by
  intro s t novfy hready hcount heras hcode hne ht hsucc
  have hs : s.Decodable := ⟨hready, hcount, heras, hcode⟩
  have h := worksOn_self s
  have hrun := runDecode_eq (novfy := novfy) hs h
  have ha : s.afterSyndromes.result ≠ 0 := by
    rw [Ne, afterSyndromes_result_eq_zero_iff hready.nr_le, syndromesOf_eq_zero_iff]
    obtain ⟨i, hi, hnz⟩ := hne
    exact fun hz => hnz (hz i hi)
  rw [hs.exec_decode] at ht
  cases ht
  have hnofail : ∀ y, State.runDecode false novfy s ≠ (s.withStages y).decodeFailure := fun y hy =>
    hsucc (congrArg State.result hy)
  rw [if_neg ha] at hrun
  split at hrun
  · exact absurd hrun (hnofail _)
  split at hrun
  · exact absurd hrun (hnofail _)
  next hzero =>
  split at hrun
  · exact absurd hrun (hnofail _)
  next hmag =>
  split at hrun
  · exact absurd hrun (hnofail _)
  have hmag : s.afterForney.magnitudeTooLarge = false := by simpa using hmag
  have hd := h.stage.afterForney
  obtain ⟨⟨harrays, hdeg, hloccnt⟩, hcode', hresult⟩ :=
    success_outcome hrun hready.n_le hd h.stage.afterApply (h.afterApply_beyond hs hmag)
  refine ⟨_, _, _, _, _, hs.exec_syndromes, hs.exec_bm, hs.exec_roots,
    hs.afterRoots_located.exec_forney (by simpa using hzero), hs.exec_apply hmag, fun w i => ?_, ?_, ?_, ?_⟩
  · by_cases hw : w = .code
    · subst hw
      exact (hcode' i).symm
    · rw [harrays w i hw]
      exact (afterApply_frame s).1 w i fun hc => hw hc.1
  · exact (afterApply_registers s).1.trans hdeg.symm
  · exact (afterApply_registers s).2.trans hloccnt.symm
  · rw [hs.afterApply_result, ← hresult]
    simp

end Sys2Proof.Machine
end

section
/-! PROOFS. One symbol error (47_decode.md R300 item 2, 93_implementation_defined.md K11): its syndromes are a geometric
sequence, from which BM finds the locator of degree 1, ROOTS its position and FORNEY its value. -/

namespace Sys2Proof.Machine

variable {s : State}

/-! ## BM on a geometric sequence -/

/-- Cell j of the locator 1 ⊕ x·X. -/
def linearCell (x : Sym) (j : Nat) : Sym := if j = 0 then 1 else if j = 1 then x else 0

theorem linearCell_zero (x : Sym) : linearCell x 0 = 1 := rfl

theorem linearCell_one (x : Sym) : linearCell x 1 = x := rfl

theorem linearCell_of_two_le {x : Sym} {j : Nat} (hj : 2 ≤ j) : linearCell x j = 0 := by
  rw [linearCell, if_neg (by omega), if_neg (by omega)]

theorem linearCell_zero_ratio {j : Nat} (hj : 1 ≤ j) : linearCell 0 j = 0 := by
  rw [linearCell, if_neg (by omega), ite_self]

theorem erasureSeed_nil (F : GF) (nr j : Nat) : (erasureSeed F nr []).getD j 0 = linearCell 0 j := by
  rw [getD_erasureSeed_nil, linearCell, ite_self]

theorem getD_corrected (F : GF) {nr i : Nat} (hi : i ≤ nr) (r : BMRun) (d : Sym) :
    (corrected F nr r d).getD i 0 = if i < r.gap then r.c.getD i 0
      else gmul F (gdiv F d r.disc) (r.prev.getD (i - r.gap) 0) ^^^ r.c.getD i 0 := by
  simp [corrected, Nat.lt_succ_of_le hi, gfma_eq]

theorem getD_corrected_beyond (F : GF) {nr i : Nat} (hi : nr < i) (r : BMRun) (d : Sym) :
    (corrected F nr r d).getD i 0 = 0 := List.getD_eq_default _ _ (by simp [corrected]; omega)

/-- With m = 1 and B = 1, a correction of 1 ⊕ a·X changes a only. -/
theorem State.TablesBuilt.getD_corrected_linear (h : s.TablesBuilt) {nr : Nat} (hnr : 1 ≤ nr) {r : BMRun} {a : Sym}
    (hgap : r.gap = 1) (hprev : ∀ j, r.prev.getD j 0 = linearCell 0 j) (hc : ∀ j, r.c.getD j 0 = linearCell a j)
    (d : Sym) (j : Nat) :
    (corrected s.gf nr r d).getD j 0 = linearCell (gdiv s.gf d r.disc ^^^ a) j := by
  by_cases hj : j ≤ nr
  · rw [getD_corrected _ hj, hgap, hc, hprev]
    obtain rfl | rfl | hj2 : j = 0 ∨ j = 1 ∨ 2 ≤ j := by omega
    · rfl
    · rw [if_neg (Nat.lt_irrefl 1), linearCell_one, linearCell_one]
      exact congrArg (· ^^^ a) (h.gmul_one h.gdiv_lt)
    · rw [if_neg (by omega), linearCell_zero_ratio (by omega), gmul_zero, linearCell_of_two_le hj2,
        linearCell_of_two_le hj2]
      rfl
  · rw [getD_corrected_beyond _ (by omega), linearCell_of_two_le (by omega)]

theorem discrepancy_of_len_zero (F : GF) (syn : List Sym) {r : BMRun} (hr : r.len = 0) (n : Nat) :
    discrepancy F syn r n = syn.getD n 0 := by simp [discrepancy, hr]

theorem discrepancy_of_len_one (F : GF) (syn : List Sym) {r : BMRun} (hr : r.len = 1) (n : Nat) :
    discrepancy F syn r n = gmul F (r.c.getD 1 0) (syn.getD (n - 1) 0) ^^^ syn.getD n 0 := by
  simp [discrepancy, hr, gfma_eq]

theorem State.TablesBuilt.gdiv_one (h : s.TablesBuilt) {a : Sym} (ha : a.toNat < s.q) : gdiv s.gf a 1 = a := by
  have hdiv := h.gdiv_gmul ha (b := 1) (by decide) h.one_lt
  rwa [h.gmul_one h.gdiv_lt] at hdiv

/-- The syndromes syn are a geometric sequence of ratio x, NR of them (R222). -/
structure State.Geometric (s : State) (nr : Nat) (x : Sym) (syn : List Sym) : Prop where
  ratio_lt : x.toNat < s.q
  lt : ∀ i, (syn.getD i 0).toNat < s.q
  first : syn.getD 0 0 ≠ 0
  next : ∀ i, i + 1 < nr → syn.getD (i + 1) 0 = gmul s.gf x (syn.getD i 0)

/-- A run of length 1 with the locator 1 ⊕ a·X. -/
structure BMRun.Linear (r : BMRun) (a : Sym) : Prop where
  len : r.len = 1
  c : ∀ j, r.c.getD j 0 = linearCell a j

namespace State.Geometric

variable {nr : Nat} {x : Sym} {syn : List Sym} (hg : s.Geometric nr x syn) (h : s.TablesBuilt)
include hg h

/-- Step 0 takes the first syndrome for the ratio, with B = 1 and m = 1 (R232). -/
theorem bmStep_zero (hnr : 1 ≤ nr) :
    let r := bmStep s.gf nr syn 0 (bmStart s.gf nr []) 0
    r.Linear (syn.getD 0 0) ∧ r.gap = 1 ∧ r.disc = syn.getD 0 0 ∧ ∀ j, r.prev.getD j 0 = linearCell 0 j := by
  intro r
  have hd : discrepancy s.gf syn (bmStart s.gf nr []) 0 = syn.getD 0 0 := discrepancy_of_len_zero _ _ rfl 0
  have hr : r =
      { c := corrected s.gf nr (bmStart s.gf nr []) (syn.getD 0 0), prev := erasureSeed s.gf nr [], len := 1, gap := 1,
        disc := syn.getD 0 0 } := by
    obtain ⟨hz, -⟩ | ⟨-, -, hstep⟩ | ⟨-, hlen, -⟩ := bmStep_cases s.gf nr syn 0 (bmStart s.gf nr []) 0
    · exact absurd (hd.symm.trans hz) hg.first
    · rw [hd] at hstep
      exact hstep
    · exact absurd hlen (Nat.not_lt_zero _)
  have hcells := h.getD_corrected_linear hnr (r := bmStart s.gf nr []) rfl (erasureSeed_nil s.gf nr)
    (erasureSeed_nil s.gf nr) (syn.getD 0 0)
  have hone : gdiv s.gf (syn.getD 0 0) (bmStart s.gf nr []).disc = syn.getD 0 0 := h.gdiv_one (hg.lt 0)
  rw [hone] at hcells
  rw [hr]
  exact ⟨⟨rfl, fun j => (hcells j).trans (congrArg (linearCell · j) BitVec.xor_zero)⟩, rfl, rfl, erasureSeed_nil s.gf nr⟩

/-- Step 1 corrects the ratio, or finds it right (R232). -/
theorem bmStep_one (hnr : 2 ≤ nr) {r : BMRun} (hr : r.Linear (syn.getD 0 0)) (hgap : r.gap = 1)
    (hdisc : r.disc = syn.getD 0 0) (hprev : ∀ j, r.prev.getD j 0 = linearCell 0 j) :
    (bmStep s.gf nr syn 0 r 1).Linear x := by
  have hs0 := hg.lt 0
  have hd : discrepancy s.gf syn r 1 = gmul s.gf (syn.getD 0 0 ^^^ x) (syn.getD 0 0) := by
    rw [discrepancy_of_len_one _ _ hr.len, hr.c, hg.next 0 hnr, h.xor_gmul hs0 hg.ratio_lt hs0]
    rfl
  obtain ⟨hz, hstep⟩ | ⟨-, hlen, -⟩ | ⟨-, -, hstep⟩ := bmStep_cases s.gf nr syn 0 r 1
  · have hx : syn.getD 0 0 = x := by
      rw [hd, h.gmul_eq_zero (State.TablesBuilt.xor_lt hs0 hg.ratio_lt) hs0] at hz
      exact BitVec.xor_eq_zero_iff.mp (hz.resolve_right hg.first)
    rw [hstep]
    exact ⟨hr.len, hx ▸ hr.c⟩
  · rw [hr.len] at hlen
    omega
  · have hq : gdiv s.gf (discrepancy s.gf syn r 1) r.disc = syn.getD 0 0 ^^^ x := by
      refine h.gmul_right_cancel h.gdiv_lt (State.TablesBuilt.xor_lt hs0 hg.ratio_lt) hg.first hs0 ?_
      rw [hdisc, h.gdiv_gmul (hd ▸ h.gmul_lt (State.TablesBuilt.xor_lt hs0 hg.ratio_lt) hs0) hg.first hs0, hd]
    have hcells := h.getD_corrected_linear (nr := nr) (by omega) hgap hprev hr.c (discrepancy s.gf syn r 1)
    rw [hq, BitVec.xor_comm, ← BitVec.xor_assoc, BitVec.xor_self] at hcells
    rw [hstep]
    exact ⟨hr.len, fun j => (hcells j).trans (congrArg (linearCell · j) BitVec.zero_xor)⟩

omit h in
/-- Every later step finds no discrepancy (R232). -/
theorem bmStep_later {n : Nat} (hn : n + 1 < nr) {r : BMRun} (hr : r.Linear x) :
    (bmStep s.gf nr syn 0 r (n + 1)).Linear x := by
  have hd : discrepancy s.gf syn r (n + 1) = 0 := by
    rw [discrepancy_of_len_one _ _ hr.len, hr.c, hg.next n hn]
    exact BitVec.xor_self
  obtain ⟨-, hstep⟩ | ⟨hne, -⟩ | ⟨hne, -⟩ := bmStep_cases s.gf nr syn 0 r (n + 1)
  · rw [hstep]
    exact ⟨hr.len, hr.c⟩
  · exact absurd hd hne
  · exact absurd hd hne

/-- The locator of a geometric sequence is 1 ⊕ x·X. -/
theorem bmRun_linear (hnr : 2 ≤ nr) : (bmRun s.gf nr syn []).Linear x := by
  obtain ⟨m, rfl⟩ := Nat.exists_eq_add_of_le' hnr
  obtain ⟨hlin, hgap, hdisc, hprev⟩ := hg.bmStep_zero h (by omega)
  refine List.foldlRecOn (motive := fun r : BMRun => r.Linear x) (List.range' 2 m) _
    (hg.bmStep_one h hnr hlin hgap hdisc hprev) fun r hr n hn => ?_
  obtain ⟨hn2, hnm⟩ := List.mem_range'_1.mp hn
  obtain ⟨k, rfl⟩ := Nat.exists_eq_add_of_le' (Nat.le_of_succ_le hn2)
  exact hg.bmStep_later (by omega) hr

end State.Geometric

/-! ## The error -/

/-- The error locator X of position p (00_scope.md R12). -/
def State.errorLocator (s : State) (p : Nat) : Sym := s.gf.pe ((s.n : Int) - 1 - (p : Int))

/-- `s` holds a word one symbol error away from a codeword (R300 item 2). -/
structure State.SingleError (s : State) (c : Nat → Sym) (p : Nat) (v : Sym) : Prop where
  ready : s.CodeReady
  two_le_nr : 2 ≤ s.nr
  neras : s.neras = 0
  inRange : ∀ j, j < s.n → s.InRange (c j)
  valid : ∀ i, i < s.nr → (syndromesOf s.gf s.nr s.fcr ((List.range s.n).map c)).getD i 0 = 0
  pos : p < s.n
  ne_zero : v ≠ 0
  value : s.InRange v
  code : ∀ j, j < s.n → s.rd .code j = if j = p then c j ^^^ v else c j

namespace State.SingleError

variable {c : Nat → Sym} {p : Nat} {v : Sym} (h : s.SingleError c p v)
include h

theorem tablesBuilt : s.TablesBuilt := h.ready.tablesBuilt

theorem value_lt : v.toNat < s.q := h.tablesBuilt.inRange_lt h.value

theorem errorLocator_ne_zero : s.errorLocator p ≠ 0 := h.tablesBuilt.pe_ne_zero _

theorem errorLocator_lt : (s.errorLocator p).toNat < s.q := h.tablesBuilt.pe_lt _

theorem code_eq {j : Nat} (hj : j < s.n) : s.rd .code j = c j ^^^ if p = j then v else 0 := by
  rw [h.code j hj]
  by_cases hp : p = j
  · rw [if_pos hp.symm, if_pos hp]
  · rw [if_neg (Ne.symm hp), if_neg hp]
    exact BitVec.xor_zero.symm

theorem erasures : s.erasures = [] :=
  List.eq_nil_of_length_eq_zero ((length_erasures s).trans (congrArg BitVec.toNat h.neras))

theorem decodable : s.Decodable where
  ready := h.ready
  count := (congrArg BitVec.toNat h.neras).trans_le (Nat.zero_le _)
  erased e he := absurd (he.trans_eq (congrArg BitVec.toNat h.neras)) (Nat.not_lt_zero e)
  code j hj := by
    rw [h.code_eq hj]
    refine h.tablesBuilt.inRange_xor (h.inRange j hj) ?_
    split
    · exact h.value
    · exact h.tablesBuilt.inRange_zero

/-- The word is the codeword and the error, symbol by symbol. -/
theorem codeword_eq : s.codeword =
    List.zipWith (fun a b => a ^^^ b) ((List.range s.n).map c) ((List.replicate s.n 0).set p v) := by
  refine List.ext_getElem (by simp [length_codeword]) fun j hj hj' => ?_
  have hjn : j < s.n := hj.trans_eq (length_codeword s)
  have hcell : s.codeword[j] = s.rd .code j := Memory.getElem_rdList _ _ _ _ hj
  rw [hcell, h.code_eq hjn]
  simp [List.getElem_set]

/-- The syndromes are those of the error alone (R222). -/
theorem syndrome {i : Nat} (hi : i < s.nr) : (syndromesOf s.gf s.nr s.fcr s.codeword).getD i 0 =
    gmul s.gf v (gpow s.gf (s.errorLocator p) ((s.fcr + i : Nat) : Int)) := by
  have hT := h.tablesBuilt
  have hword : ∀ u ∈ (List.range s.n).map c, u.toNat < s.q := by
    rw [List.forall_mem_map]
    exact fun j hj => hT.inRange_lt (h.inRange j (List.mem_range.mp hj))
  have herror : ∀ u ∈ (List.replicate s.n 0).set p v, u.toNat < s.q := fun u hu =>
    (List.mem_or_eq_of_mem_set hu).elim (fun h0 => List.eq_of_mem_replicate h0 ▸ hT.zero_lt) (· ▸ h.value_lt)
  obtain ⟨hlinear, hsingle⟩ := syndromesAreLinear s hT _ _ (by simp) (by simp) hword herror
  rw [h.codeword_eq, hlinear, getD_zipWith_xor (by simp [length_syndromesOf]), h.valid i hi,
    hsingle p v h.pos h.value_lt rfl i hi]
  exact BitVec.zero_xor

/-- They are a geometric sequence whose ratio is the error locator. -/
theorem geometric : s.Geometric s.nr (s.errorLocator p) (syndromesOf s.gf s.nr s.fcr s.codeword) where
  ratio_lt := h.errorLocator_lt
  lt := (forall_getD_iff (P := fun u => u.toNat < s.q) h.tablesBuilt.zero_lt).mpr fun u hu => by
    obtain ⟨i, -, rfl⟩ := List.mem_map.mp hu
    exact h.tablesBuilt.horner_lt h.decodable.codeword_lt (h.tablesBuilt.targetRoot_lt i)
  first := by
    have hT := h.tablesBuilt
    rw [h.syndrome (by have := h.two_le_nr; omega), Ne, hT.gmul_eq_zero h.value_lt (hT.gpow_lt _)]
    exact not_or.mpr ⟨h.ne_zero, hT.gpow_ne_zero h.errorLocator_ne_zero _⟩
  next i hi := by
    have hT := h.tablesBuilt
    rw [h.syndrome hi, h.syndrome (by omega), ← Nat.add_assoc, hT.gpow_succ h.errorLocator_lt,
      ← hT.gmul_assoc h.value_lt (hT.gpow_lt _) h.errorLocator_lt, gmul_comm]

omit h in
theorem afterSyndromes_rdList : s.afterSyndromes.rdList .syn s.nr = syndromesOf s.gf s.nr s.fcr s.codeword :=
  computeSyndromes_rdList s

/-! ### BM -/

theorem bmResult_linear : s.afterSyndromes.bmResult.Linear (s.errorLocator p) := by
  have ha := (State.StageOf.refl s).afterSyndromes
  rw [State.bmResult, ha.gf, ha.nr, ha.erasures, h.erasures, afterSyndromes_rdList]
  exact h.geometric.bmRun_linear h.tablesBuilt h.two_le_nr

theorem afterBm_deg : s.afterBm.deg.toNat = 1 := h.decodable.afterBm_deg.trans h.bmResult_linear.len

theorem afterBm_lambda {j : Nat} (hj : j ≤ s.nr) : s.afterBm.rd .lambda j = linearCell (s.errorLocator p) j :=
  (State.Decodable.afterBm_lambda hj).trans (h.bmResult_linear.c j)

theorem afterBm_lambda_one : s.afterBm.rd .lambda 1 = s.errorLocator p :=
  h.afterBm_lambda (by have := h.two_le_nr; omega)

/-! ### ROOTS -/

/-- The root of position p is the reciprocal of its locator (00_scope.md R12). -/
theorem rootOf_eq : rootOf s.gf p = ginv s.gf (s.errorLocator p) := by
  have hT := h.tablesBuilt
  refine (hT.gmul_eq_one_iff h.errorLocator_ne_zero h.errorLocator_lt (hT.rootOf_lt p)).mp ?_
  rw [State.errorLocator, rootOf, hT.pe_add, show (s.n : Int) - 1 - p + ((p + 1 : Nat) : Int) = s.n by push_cast; ring,
    hT.pe_eq, Int.emod_self]
  rfl

theorem afterBm_exactDeg : s.afterBm.exactDeg = 1 :=
  exactDeg_eq h.afterBm_deg (h.afterBm_lambda_one ▸ h.errorLocator_ne_zero)

theorem afterBm_rootsFound : s.afterBm.rootsFound = [p] := by
  have hb := (State.StageOf.refl s).afterBm
  have hfound := rootsFound_of_degree_one (hb.codeReady h.ready).tablesBuilt h.decodable.afterBm_lambda_zero
    h.afterBm_exactDeg (h.afterBm_lambda_one ▸ h.errorLocator_ne_zero)
    (by rw [h.afterBm_lambda_one, hb.q]; exact h.errorLocator_lt)
  have hpos : s.afterBm.positionOf (rootOf s.gf p) = p := by
    rw [← hb.gf]
    exact (hb.codeReady h.ready).tablesBuilt.positionOf_rootOf (hb.n.symm ▸ h.pos)
  rw [hfound, h.afterBm_lambda_one, hb.gf, ← h.rootOf_eq, hpos]

theorem afterRoots_locations : s.afterRoots.locations = [p] :=
  h.decodable.afterRoots_locations.trans h.afterBm_rootsFound

theorem afterRoots_registers : s.afterRoots.deg = 1 ∧ s.afterRoots.loccnt = 1 := by
  obtain ⟨hdeg, hcount⟩ := h.decodable.afterRoots_registers
  rw [h.afterBm_exactDeg] at hdeg
  rw [h.afterBm_rootsFound] at hcount
  exact ⟨BitVec.eq_of_toNat_eq hdeg, BitVec.eq_of_toNat_eq hcount⟩

theorem afterRoots_rootsMissing : s.afterRoots.rootsMissing = false := by
  obtain ⟨hdeg, hcount⟩ := h.afterRoots_registers
  rw [State.rootsMissing, hdeg, hcount]
  rfl

theorem afterRoots_lambda {j : Nat} (hj : j ≤ s.nr) :
    s.afterRoots.rd .lambda j = linearCell (s.errorLocator p) j :=
  (h.decodable.afterRoots_rd (by decide) j).trans (h.afterBm_lambda hj)

/-! ### FORNEY -/

/-- The derivative of a locator of degree 1 is its linear coefficient (R272). -/
theorem derivativeAt_eq (x : Sym) : s.afterRoots.derivativeAt x = s.errorLocator p := by
  have hc := (State.StageOf.refl s).afterRoots
  have hnr := h.two_le_nr
  have hdeg : s.afterRoots.deg.toNat = 1 := congrArg BitVec.toNat h.afterRoots_registers.1
  rw [State.derivativeAt, hdeg, hc.gf, xorSum_single (p := 1) Nat.one_lt_two, if_pos rfl,
    h.afterRoots_lambda (by omega), linearCell_one, show ((1 - 1 : Nat) : Int) = 0 from rfl, h.tablesBuilt.gpow_zero,
    h.tablesBuilt.gmul_one h.errorLocator_lt]
  rintro i hi hne
  exact if_neg (by omega)

theorem afterRoots_someDerivativeZero :
    someDerivativeZero s.afterRoots.gf s.afterRoots.locator s.afterRoots.locations = false := by
  rw [Bool.eq_false_iff, Ne, someDerivativeZero_iff]
  rintro ⟨k, -, hzero⟩
  rw [h.derivativeAt_eq] at hzero
  exact h.errorLocator_ne_zero hzero

theorem afterRoots_syn {i : Nat} (hi : i < s.nr) :
    s.afterRoots.rd .syn i = (syndromesOf s.gf s.nr s.fcr s.codeword).getD i 0 := by
  have hcell : (s.afterRoots.rdList .syn s.nr).getD i 0 = s.afterRoots.rd .syn i := Memory.getD_rdList _ _ hi
  rw [← hcell, h.decodable.afterRoots_rdList_syn, afterSyndromes_rdList]

/-- The evaluator is the constant S0: the other coefficients cancel (R271). -/
theorem evaluatorList_getD {i : Nat} (hi : i < s.nr) : s.afterRoots.evaluatorList.getD i 0 =
    if i = 0 then (syndromesOf s.gf s.nr s.fcr s.codeword).getD 0 0 else 0 := by
  have hT := h.tablesBuilt
  have hc := (State.StageOf.refl s).afterRoots
  have hnr := h.two_le_nr
  have hdeg : s.afterRoots.deg.toNat = 1 := congrArg BitVec.toNat h.afterRoots_registers.1
  have hlt := h.geometric.lt
  rw [getD_evaluatorList (hc.nr.symm ▸ hi), hdeg, hc.gf]
  cases i with
  | zero =>
    rw [Nat.zero_min, xorSum_succ, xorSum_zero, h.afterRoots_syn (by omega), h.afterRoots_lambda (by omega)]
    exact BitVec.zero_xor.trans (hT.gmul_one (hlt 0))
  | succ i =>
    rw [Nat.min_eq_right (by omega), xorSum_succ, xorSum_succ, xorSum_zero, h.afterRoots_syn (by omega),
      h.afterRoots_syn (by omega), h.afterRoots_lambda (by omega), h.afterRoots_lambda (by omega), linearCell_one,
      Nat.add_sub_cancel, Nat.sub_zero, if_neg (Nat.succ_ne_zero i), gmul_comm _ _ (s.errorLocator p),
      ← h.geometric.next i hi, linearCell_zero, hT.gmul_one (hlt _)]
    exact (congrArg (· ^^^ _) BitVec.zero_xor).trans BitVec.xor_self

/-- FORNEY's formula at the error's position gives the error: with x = 1/X, x^(FCR-1)·(v·X^FCR)/X = v (R273). -/
theorem forney_value : gmul s.gf (gpow s.gf (rootOf s.gf p) ((s.fcr : Int) - 1))
    (gdiv s.gf ((syndromesOf s.gf s.nr s.fcr s.codeword).getD 0 0) (s.errorLocator p)) = v := by
  have hT := h.tablesBuilt
  have hnr := h.two_le_nr
  have hexp : (((p + 1 : Nat) : Int) * ((s.fcr : Int) - 1)) + ((s.n : Int) - 1 - p) * ((s.fcr + 0 : Nat) : Int) =
      (s.n : Int) - 1 - p + s.n * ((s.fcr : Int) - 1) := by push_cast; ring
  refine hT.gmul_right_cancel (hT.gmul_lt (hT.gpow_lt _) hT.gdiv_lt) h.value_lt h.errorLocator_ne_zero
    h.errorLocator_lt ?_
  rw [hT.gmul_assoc (hT.gpow_lt _) hT.gdiv_lt h.errorLocator_lt,
    hT.gdiv_gmul (h.geometric.lt 0) h.errorLocator_ne_zero h.errorLocator_lt, h.syndrome (by omega),
    gmul_comm s.gf v, ← hT.gmul_assoc (hT.gpow_lt _) (hT.gpow_lt _) h.value_lt, State.errorLocator, rootOf,
    hT.gpow_pe, hT.gpow_pe, hT.pe_add, hexp, hT.pe_eq, Int.add_mul_emod_self_left, ← hT.pe_eq, gmul_comm]

theorem afterRoots_loc : (s.afterRoots.rd .loc 0).toNat = p :=
  h.decodable.afterRoots_loc (by rw [h.afterBm_rootsFound]; rfl)

/-- The magnitude at the error's position is the error. -/
theorem afterForney_mag : s.afterForney.rd .mag 0 = v := by
  have hT := h.tablesBuilt
  have hc := (State.StageOf.refl s).afterRoots
  have hnr := h.two_le_nr
  have hcount : 0 < s.afterRoots.loccnt.toNat := by rw [h.afterRoots_registers.2]; decide
  have homega : ∀ x : Sym, evalAt s.gf s.nr (s.afterRoots.evaluateMagnitudes.rd .omega) x =
      (syndromesOf s.gf s.nr s.fcr s.codeword).getD 0 0 := fun x => by
    have hcell : ∀ i, i < s.nr → s.afterRoots.evaluateMagnitudes.rd .omega i =
        if i = 0 then (syndromesOf s.gf s.nr s.fcr s.codeword).getD 0 0 else 0 := fun i hi =>
      (evaluateMagnitudes_omega (hc.nr.symm ▸ hi)).trans (h.evaluatorList_getD hi)
    rw [evalAt_congr hcell, evalAt, xorSum_single (p := 0) (by omega), if_pos rfl, Nat.cast_zero, hT.gpow_zero,
      hT.gmul_one (h.geometric.lt 0)]
    exact fun i _ hi => by rw [if_neg hi, zero_gmul]
  have hmag := evaluateMagnitudes_mag hcount
  dsimp only at hmag
  rw [hc.gf, hc.nr, hc.fcr, h.derivativeAt_eq, h.afterRoots_loc] at hmag
  rw [State.afterForney, State.complete_rd, hmag, homega, h.forney_value]

theorem afterForney_loccnt : s.afterForney.loccnt = 1 := h.afterRoots_registers.2

theorem afterForney_loc : (s.afterForney.rd .loc 0).toNat = p := by
  rw [(afterForney_frame s).1 .loc 0 (by simp)]
  exact h.afterRoots_loc

theorem afterForney_magnitudeTooLarge : s.afterForney.magnitudeTooLarge = false := by
  rw [Bool.eq_false_iff, Ne, (State.StageOf.refl s).afterForney.magnitudeTooLarge_iff, h.afterForney_loccnt]
  rintro ⟨hbch, k, hk, hlarge⟩
  obtain rfl : k = 0 := Nat.lt_one_iff.mp hk
  rw [h.afterForney_mag] at hlarge
  exact absurd ((inRange_bch hbch v).mp h.value) (Nat.not_le.mpr hlarge)

/-! ### APPLY -/

theorem afterApply_rd_code {j : Nat} (hj : j < s.n) : s.afterApply.rd .code j = c j := by
  have hsum : (xorSum s.afterForney.loccnt.toNat fun k =>
      if (s.afterForney.rd .loc k).toNat = j then s.afterForney.rd .mag k else 0) = if p = j then v else 0 := by
    rw [h.afterForney_loccnt]
    refine (xorSum_single (p := 0) Nat.one_pos _ fun i hi hne => absurd (Nat.lt_one_iff.mp hi) hne).trans ?_
    rw [h.afterForney_loc, h.afterForney_mag]
  rw [h.decodable.afterApply_rd_code, hsum, h.code_eq hj, BitVec.xor_assoc, BitVec.xor_self]
  exact BitVec.xor_zero

theorem afterApply_codewordValid : s.afterApply.codewordValid = true := by
  have hword : s.afterApply.rdList .code s.n = (List.range s.n).map c :=
    List.map_congr_left fun j hj => h.afterApply_rd_code (List.mem_range.mp hj)
  rw [(State.StageOf.refl s).afterApply.codewordValid_iff, hword]
  exact h.valid

/-! ### DECODE -/

theorem afterSyndromes_result_ne_zero : s.afterSyndromes.result ≠ 0 := by
  rw [Ne, afterSyndromes_result_eq_zero_iff h.ready.nr_le, syndromesOf_eq_zero_iff]
  exact fun hz => h.geometric.first (hz 0 (Nat.lt_of_lt_of_le Nat.two_pos h.two_le_nr))

/-- DECODE passes every stage and succeeds. -/
theorem runDecode_eq : State.runDecode false false s =
    (s.withStages s.afterForney).decodeSuccess s.codeword s.afterApply.codeword := by
  have hrun := Machine.runDecode_eq (novfy := false) h.decodable (worksOn_self s)
  rwa [if_neg h.afterSyndromes_result_ne_zero, if_neg (by simp [h.afterRoots_rootsMissing]),
    if_neg (by simp [h.afterRoots_someDerivativeZero]), if_neg (by simp [h.afterForney_magnitudeTooLarge]),
    if_neg (by simp [h.afterApply_codewordValid])] at hrun

/-- The one position that changes is p. -/
theorem changed_eq_one :
    ((List.range s.n).countP fun j => s.afterApply.rd .code j != s.rd .code j) = 1 := by
  have hchanged : ∀ j ∈ List.range s.n, (s.afterApply.rd .code j != s.rd .code j) = true ↔ (j == p) = true := by
    intro j hj
    have hjn := List.mem_range.mp hj
    rw [h.afterApply_rd_code hjn, h.code_eq hjn, bne_iff_ne, beq_iff_eq]
    by_cases hp : p = j
    · have hne : c j ≠ c j ^^^ v := fun heq => h.ne_zero (by simpa using congrArg (c j ^^^ ·) heq.symm)
      simpa [hp] using hne
    · simp [hp, Ne.symm hp]
  rw [List.countP_congr hchanged]
  exact List.count_eq_one_of_mem List.nodup_range (List.mem_range.mpr h.pos)

end State.SingleError

/-- Settles O42: the stages find the one error, and APPLY takes it out again. -/
theorem decodeCorrectsOneError : Obligations.DecodeCorrectsOneError := by
  intro s c p v hready hnr hneras hc hvalid hp hv hvr hcode
  have h : s.SingleError c p v := ⟨hready, hnr, hneras, hc, hvalid, hp, hv, hvr, hcode⟩
  have hs := State.StageOf.refl s
  obtain ⟨-, hcells, hresult⟩ := success_outcome h.runDecode_eq hready.n_le hs.afterForney hs.afterApply
    ((worksOn_self s).afterApply_beyond h.decodable h.afterForney_magnitudeTooLarge)
  exact ⟨_, h.decodable.exec_decode false false, BitVec.eq_of_toNat_eq (hresult.trans h.changed_eq_one),
    fun j hj => (hcells j).trans (h.afterApply_rd_code hj)⟩

end Sys2Proof.Machine
end
